-- ==== Sys2Proof/Word.lean ====
section
/-! DEFINITION. The word and byte types of the spec (R9: WORD = 32 bits). -/

namespace Sys2Proof

/-- A 32-bit word: every address, descriptor word, register and offset (R9, R11). -/
abbrev Word := BitVec 32

/-- One byte of physical memory (R70, R73). -/
abbrev Byte := BitVec 8

end Sys2Proof
end

