-- ==== Sys2Proof/Syntax.lean ====
section
/-! DEFINITION. What the host can ask of the block: the request record of R116 as it arrives, and `Instr`, one constructor per row of
spec/opcode_table.json. -/

namespace Sys2Proof

/-- The access kinds of R108. -/
inductive AccessKind where
  | read | write | iread | fetch
  deriving DecidableEq, Repr

/-- The CPU execution level passed with a request (R107, R116 `cmd[7:6]`): 0 kernel to 3 user. -/
abbrev Level := BitVec 2

/-- The register groups of R112; groups 12 to 15 are undefined (R115). -/
inductive RegGroup where
  | sdcl | sdch | pdcrl | pdcrh | pdcll | pdclh | srama | sramb | fc | fa | conf | var
  | undef12 | undef13 | undef14 | undef15
  deriving DecidableEq, Repr

/-- A request as the host issues it (R116): the command word, the address and the value. -/
structure Request where
  cmd : BitVec 16
  a   : Word
  v   : Word
  deriving DecidableEq, Repr

/-- One constructor per row of spec/opcode_table.json. `va` is a virtual and `pa` a physical address. The register rows are
PREAD32 and PWRITE32 of a word in the MMU window (R117); their two fields are the bits of that address the row leaves free: bit 7,
which selects nothing, and the index `off[6:2]` (R111). -/
inductive Instr where
  /-- R170. -/
  | translate (acc : AccessKind) (lvl : Level) (se : Bool) (va : Word)
  /-- R280, 1 byte. -/
  | read8 (acc : AccessKind) (lvl : Level) (va : Word)
  /-- R280, 2 bytes. -/
  | read16 (acc : AccessKind) (lvl : Level) (va : Word)
  /-- R280, 4 bytes. -/
  | read32 (acc : AccessKind) (lvl : Level) (va : Word)
  /-- R281, 1 byte. -/
  | write8 (lvl : Level) (va v : Word)
  /-- R281, 2 bytes. -/
  | write16 (lvl : Level) (va v : Word)
  /-- R281, 4 bytes. -/
  | write32 (lvl : Level) (va v : Word)
  /-- R283. -/
  | examine (va : Word)
  /-- R284; the byte is `v[7:0]`. -/
  | deposit (va v : Word)
  /-- R229, width code 0. -/
  | pread8 (pa : Word)
  /-- R229, width code 1. -/
  | pread16 (pa : Word)
  /-- R229, width code 2. -/
  | pread32 (pa : Word)
  /-- R230, width code 0. -/
  | pwrite8 (pa v : Word)
  /-- R230, width code 1. -/
  | pwrite16 (pa v : Word)
  /-- R230, width code 2. -/
  | pwrite32 (pa v : Word)
  /-- R262; the bit is `v[0]`. -/
  | setEnable (v : Word)
  /-- R263. -/
  | clearAlign
  /-- R340. -/
  | reset
  /-- R116 op 0xE; the other bits of the record are arbitrary. -/
  | reservedE (rest : BitVec 12) (a v : Word)
  /-- R116 op 0xF; the other bits of the record are arbitrary. -/
  | reservedF (rest : BitVec 12) (a v : Word)
  /-- R252, group 0. -/
  | mmurSdcl (b7 : BitVec 1) (index : BitVec 5)
  /-- R253, group 0. -/
  | mmuwSdcl (b7 : BitVec 1) (index : BitVec 5) (v : Word)
  /-- R252, group 1. -/
  | mmurSdch (b7 : BitVec 1) (index : BitVec 5)
  /-- R253, group 1. -/
  | mmuwSdch (b7 : BitVec 1) (index : BitVec 5) (v : Word)
  /-- R252, group 2. -/
  | mmurPdcrl (b7 : BitVec 1) (index : BitVec 5)
  /-- R253, group 2. -/
  | mmuwPdcrl (b7 : BitVec 1) (index : BitVec 5) (v : Word)
  /-- R252, group 3. -/
  | mmurPdcrh (b7 : BitVec 1) (index : BitVec 5)
  /-- R253, group 3. -/
  | mmuwPdcrh (b7 : BitVec 1) (index : BitVec 5) (v : Word)
  /-- R252, group 4. -/
  | mmurPdcll (b7 : BitVec 1) (index : BitVec 5)
  /-- R253, group 4. -/
  | mmuwPdcll (b7 : BitVec 1) (index : BitVec 5) (v : Word)
  /-- R252, group 5. -/
  | mmurPdclh (b7 : BitVec 1) (index : BitVec 5)
  /-- R253, group 5. -/
  | mmuwPdclh (b7 : BitVec 1) (index : BitVec 5) (v : Word)
  /-- R254, group 6. -/
  | mmurSrama (b7 : BitVec 1) (index : BitVec 5)
  /-- R256, group 6. -/
  | mmuwSrama (b7 : BitVec 1) (index : BitVec 5) (v : Word)
  /-- R255, group 7. -/
  | mmurSramb (b7 : BitVec 1) (index : BitVec 5)
  /-- R257, group 7. -/
  | mmuwSramb (b7 : BitVec 1) (index : BitVec 5) (v : Word)
  /-- R259, group 8. -/
  | mmurFc (b7 : BitVec 1) (index : BitVec 5)
  /-- R260, group 8. -/
  | mmuwFc (b7 : BitVec 1) (index : BitVec 5) (v : Word)
  /-- R259, group 9. -/
  | mmurFa (b7 : BitVec 1) (index : BitVec 5)
  /-- R260, group 9. -/
  | mmuwFa (b7 : BitVec 1) (index : BitVec 5) (v : Word)
  /-- R261, group 10. -/
  | mmurConf (b7 : BitVec 1) (index : BitVec 5)
  /-- R261, group 10. -/
  | mmuwConf (b7 : BitVec 1) (index : BitVec 5) (v : Word)
  /-- R259, group 11. -/
  | mmurVar (b7 : BitVec 1) (index : BitVec 5)
  /-- R258, group 11. -/
  | mmuwVar (b7 : BitVec 1) (index : BitVec 5) (v : Word)
  /-- R115, group 12. -/
  | mmurUndef12 (b7 : BitVec 1) (index : BitVec 5)
  /-- R115, group 12. -/
  | mmuwUndef12 (b7 : BitVec 1) (index : BitVec 5) (v : Word)
  /-- R115, group 13. -/
  | mmurUndef13 (b7 : BitVec 1) (index : BitVec 5)
  /-- R115, group 13. -/
  | mmuwUndef13 (b7 : BitVec 1) (index : BitVec 5) (v : Word)
  /-- R115, group 14. -/
  | mmurUndef14 (b7 : BitVec 1) (index : BitVec 5)
  /-- R115, group 14. -/
  | mmuwUndef14 (b7 : BitVec 1) (index : BitVec 5) (v : Word)
  /-- R115, group 15. -/
  | mmurUndef15 (b7 : BitVec 1) (index : BitVec 5)
  /-- R115, group 15. -/
  | mmuwUndef15 (b7 : BitVec 1) (index : BitVec 5) (v : Word)
  deriving DecidableEq, Repr

end Sys2Proof
end

