-- ==== Sys2Proof/Config.lean ====
section
/-! DEFINITION. What an implementation fixes: the constants of R9, the open parameters of R10 as `Params` and, with CONF_EFFECT, as
`Setup`, and the constants the spec leaves without any value. The default instantiation (L0 and TC) stands in Machine/Layout.lean. -/

namespace Sys2Proof

/-- The ten translation faults of R109 and R301, by name. -/
inductive TransFault where
  | sdtlen | pw | pdtlen | invSd | segNotPres | otrap | pdtNotPres | pageNotPres | acc | segOffset
  deriving DecidableEq, Repr

/-- SDC_CAP (R9, R38). -/
def Config.sdcCap : Nat := 32

/-- PDC_CAP (R9, R39). -/
def Config.pdcCap : Nat := 32

/-- A free input of a step once the inputs supplied with the run are used up (R12 `draw()`, R47): the n-th such number. It has no
value. DESIGN CHOICE (safe), log 3. -/
opaque Config.freeNat : Nat → Nat

/-- What a byte of RAM that nothing has written reads as (R42, R341): a free value for each address, of which nothing is known, zero
least of all. DESIGN CHOICE (safe), log 5. -/
opaque Config.powerOnByte : Nat → Byte

/-- ROM_IMAGE (R10, R41, D23) where nothing else is given: named, without any value. Log 6. -/
opaque Config.romImage : Nat → Byte

/-- ABORT_CLASS_EMF (R10, D26): named, not interpreted. -/
opaque Config.abortClassEmf : Word

/-- ABORT_CAUSE_EMF (R10, D26): named, not interpreted. -/
opaque Config.abortCauseEmf : Word

/-- The parameters R10 leaves open, all but `CONF_EFFECT`, which is a function of these (`Setup`). Selectors, offsets and rights are
words (R11; log 20). -/
structure Params where
  /-- Whether the MMU translates, from the enable flag of R31: by default the flag itself (R171). It stands here so that a CONF_EFFECT can
  drive it (90_conflicts.md C4; log 18). -/
  enabled : Bool → Bool
  /-- `SID(va)` (R100). -/
  sid : Word → Fin 4
  /-- `SSL(va)` (R100). -/
  ssl : Word → Word
  /-- `SOT(va)` (R100). -/
  sot : Word → Word
  /-- `PSL(va)` (R100). -/
  psl : Word → Word
  /-- `POT(va)` (R100). -/
  pot : Word → Word
  /-- `PAGE_SHIFT` (R100). -/
  pageShift : Nat
  /-- `V(sd0)` (R101). -/
  valid : Word → Bool
  /-- `I(sd0)` (R101). -/
  indirect : Word → Bool
  /-- `C(sd0)` (R101). -/
  contiguous : Word → Bool
  /-- `P(sd0)` (R101). -/
  present : Word → Bool
  /-- `T(sd0)` (R101). -/
  objectTrap : Word → Bool
  /-- `R(sd0)` (R101). -/
  referenced : Word → Bool
  /-- `M(sd0)` (R101). -/
  modified : Word → Bool
  /-- `CA(sd0)` (R101); read by no rule under the default `CACHE_ALLOWED` (D17). -/
  cacheable : Word → Bool
  /-- `ACC(sd0)` (R101). -/
  rights : Word → Word
  /-- `setR(sd0)` (R101). -/
  setR : Word → Word
  /-- `setM(sd0)` (R101). -/
  setM : Word → Word
  /-- `maxOff(sd0)` (R104). -/
  maxOff : Word → Word
  /-- `segBase(sd1)` (R102). -/
  segBase : Word → Word
  /-- `ptBase(sd1)` (R102). -/
  ptBase : Word → Word
  /-- `PP(pd)` (R103). -/
  pagePresent : Word → Bool
  /-- `W(pd)` (R103). -/
  writeFault : Word → Bool
  /-- `L(pd)` (R103). -/
  lastInSegment : Word → Bool
  /-- `PR(pd)` (R103). -/
  pageReferenced : Word → Bool
  /-- `PM(pd)` (R103). -/
  pageModified : Word → Bool
  /-- `setPR(pd)` (R103). -/
  setPR : Word → Word
  /-- `setPM(pd)` (R103). -/
  setPM : Word → Word
  /-- `pageBase(pd)` (R103). -/
  pageBase : Word → Word
  /-- `sectBase(srama)` (R106). -/
  sectBase : Word → Word
  /-- `sectLen(sramb)` (R106). -/
  sectLen : Word → Word
  /-- The SRAMA word of a section base, R106 read the other way: the `srama` of SETSECT (R117). -/
  sramaOf : Word → Word
  /-- The SRAMB word of a section length, R106 read the other way: the `sramb` of SETSECT (R117). -/
  srambOf : Word → Word
  /-- `PERMITS(rights, acc, lvl)` (R107). -/
  permits : Word → AccessKind → Level → Bool
  /-- `zext_32(FCODE(code))` (R109, R110). -/
  fcode : TransFault → Word
  /-- `MMU_BASE` (R111). -/
  mmuBase : Word
  /-- `REG_GROUP(off)` with the group numbers of R112. -/
  regGroup : Word → RegGroup
  /-- `REG_INDEX(off)` (R111). -/
  regIndex : Word → BitVec 5
  /-- The bit of `off` that selects no register (R111), which the register rows of spec/opcode_table.json leave free. -/
  regFree : Word → BitVec 1
  /-- The offset of a register word (R117): the group numbers of R112 read the other way. -/
  regOffset : RegGroup → BitVec 1 → BitVec 5 → Word
  /-- Membership in `M_ACCESSES` (R182, D15). -/
  mAccesses : AccessKind → Bool
  /-- `CACHE_ALLOWED(sd0)` (R179, D17). -/
  cacheAllowed : Word → Bool
  /-- `CACHE_REFLECTS_RM` (R198, D20). -/
  cacheReflectsRM : Bool
  /-- `PEEK_SEG_M` (R182, D36). -/
  peekSegM : Bool
  /-- `FLUSH_ON_SRAMB` (R257, D41). -/
  flushOnSramb : Bool
  /-- `ROM_SIZE` (R72, D23). -/
  romSize : Nat
  /-- `RAM_BASE` (R72, D23). -/
  ramBase : Nat
  /-- `RAM_SIZE` (R72, D23). -/
  ramSize : Nat
  /-- `IO_BASE` (R72, D23). -/
  ioBase : Nat
  /-- `IO_LIMIT` (R72, D23). -/
  ioLimit : Nat
  /-- `ROM_IMAGE` (R41, D23), by physical address. -/
  romImage : Nat → Byte
  /-- `ABORT_CLASS_EMF` (R221, D26). -/
  abortClassEmf : Word
  /-- `ABORT_CAUSE_EMF` (R221, D26). -/
  abortCauseEmf : Word

/-- All the open parameters of R10: `Params`, and `CONF_EFFECT` (R32, D12), which answers the parameters in force under a value of
CONF. Every request, the step, the decoder and the encoder take them as an argument. -/
structure Setup where
  /-- The parameters as built. -/
  base : Params
  /-- `CONF_EFFECT`. -/
  confEffect : Word → Params → Params

/-- The parameters in force under a value of CONF; a request takes them with the value CONF has when it begins (log 18). -/
def Setup.under (C : Setup) (conf : Word) : Params := C.confEffect conf C.base

end Sys2Proof
end

