-- ==== Sys2Proof/Machine/Layout.lean ====
section
/-! DEFINITION. The default instantiation of the open parameters: layout L0 (30_encoding.md) and the test configuration TC
(95_test_vectors.md), and no CONF_EFFECT. PRESUMED (unsafe for claims that use the numbers), log 4: the spec marks L0 as general
knowledge. -/

namespace Sys2Proof.Machine

/-- `v[hi:lo]` (R11). -/
def field (v : Word) (hi lo : Nat) : Word :=
  (v >>> lo) &&& BitVec.ofNat 32 (2 ^ (hi + 1 - lo) - 1)

/-- `v[i]` (R11). -/
def bit (v : Word) (i : Nat) : Bool := v.getLsbD i

/-- `v` with bit `i` set and every other bit kept (R101, R103). -/
def withBit (v : Word) (i : Nat) : Word := v ||| BitVec.ofNat 32 (2 ^ i)

namespace L0

/-- SID va[31:30] (R100). -/
def sid (va : Word) : Fin 4 := Fin.ofNat 4 (field va 31 30).toNat

/-- MAXOFF_F sd0[23:10], in units of 8 bytes (R101, R104). -/
def maxOff (sd0 : Word) : Word := (field sd0 23 10 <<< 3) ||| 7#32

/-- The permission predicate of R107: two rights bits a level, kernel in bits 7:6. -/
def permits (rights : Word) (acc : AccessKind) (lvl : Level) : Bool :=
  match ((rights >>> (2 * (3 - lvl.toNat))) &&& 3#32).toNat with
  | 0 => false
  | 1 => acc == .fetch
  | 2 => acc == .read || acc == .fetch
  | _ => true

/-- The numeric fault codes of R109. -/
def fcode : TransFault → Word
  | .sdtlen => 0x3#32
  | .pw => 0x4#32
  | .pdtlen => 0x5#32
  | .invSd => 0x6#32
  | .segNotPres => 0x7#32
  | .otrap => 0x8#32
  | .pdtNotPres => 0x9#32
  | .pageNotPres => 0xA#32
  | .acc => 0xD#32
  | .segOffset => 0xE#32

/-- The group numbers of R112. -/
def groupOfNumber : Nat → RegGroup
  | 0 => .sdcl
  | 1 => .sdch
  | 2 => .pdcrl
  | 3 => .pdcrh
  | 4 => .pdcll
  | 5 => .pdclh
  | 6 => .srama
  | 7 => .sramb
  | 8 => .fc
  | 9 => .fa
  | 10 => .conf
  | 11 => .var
  | 12 => .undef12
  | 13 => .undef13
  | 14 => .undef14
  | _ => .undef15

/-- The number of a group (R112), the left column of the same table. -/
def numberOfGroup : RegGroup → BitVec 4
  | .sdcl => 0
  | .sdch => 1
  | .pdcrl => 2
  | .pdcrh => 3
  | .pdcll => 4
  | .pdclh => 5
  | .srama => 6
  | .sramb => 7
  | .fc => 8
  | .fa => 9
  | .conf => 10
  | .var => 11
  | .undef12 => 12
  | .undef13 => 13
  | .undef14 => 14
  | .undef15 => 15

/-- REG_GROUP: off[11:8] (R111). -/
def regGroup (off : Word) : RegGroup := groupOfNumber (off.extractLsb' 8 4).toNat

/-- REG_INDEX: off[6:2] (R111). -/
def regIndex (off : Word) : BitVec 5 := off.extractLsb' 2 5

/-- The offset of a register: `(G << 8) + (i << 2)`, with bit 7 as given (R111, R117). -/
def regOffset (g : RegGroup) (b7 : BitVec 1) (index : BitVec 5) : Word := 0#20 ++ numberOfGroup g ++ b7 ++ index ++ 0#2

/-- M_ACCESSES = {WRITE} (D15). -/
def mAccesses (acc : AccessKind) : Bool := acc == .write

end L0

/-- The default instantiation of R10's parameters: L0 (R100 to R112) with the map and the flags of TC (95_test_vectors.md). -/
def params : Params where
  enabled flag := flag
  sid := L0.sid
  ssl va := field va 29 17
  sot va := field va 16 0
  psl va := field va 16 11
  pot va := field va 10 0
  pageShift := 11
  valid sd0 := bit sd0 6
  indirect sd0 := bit sd0 7
  contiguous sd0 := bit sd0 2
  present sd0 := bit sd0 0
  objectTrap sd0 := bit sd0 4
  referenced sd0 := bit sd0 5
  modified sd0 := bit sd0 1
  cacheable sd0 := bit sd0 3
  rights sd0 := field sd0 31 24
  setR sd0 := withBit sd0 5
  setM sd0 := withBit sd0 1
  maxOff := L0.maxOff
  segBase sd1 := sd1 &&& 0xFFFFFFE0#32
  ptBase sd1 := sd1 &&& 0xFFFFFFE0#32
  pagePresent pd := bit pd 0
  writeFault pd := bit pd 4
  lastInSegment pd := bit pd 2
  pageReferenced pd := bit pd 5
  pageModified pd := bit pd 1
  setPR pd := withBit pd 5
  setPM pd := withBit pd 1
  pageBase pd := pd &&& 0xFFFFF800#32
  sectBase srama := srama &&& 0xFFFFFFE0#32
  sectLen sramb := field sramb 22 10
  sramaOf base := base
  srambOf len := len <<< 10
  permits := L0.permits
  fcode := L0.fcode
  mmuBase := 0x00040000#32
  regGroup := L0.regGroup
  regIndex := L0.regIndex
  regFree off := off.extractLsb' 7 1
  regOffset := L0.regOffset
  mAccesses := L0.mAccesses
  cacheAllowed _ := true
  cacheReflectsRM := false
  peekSegM := true
  flushOnSramb := false
  romSize := 0x8000
  ramBase := 0x02000000
  ramSize := 0x00100000
  ioBase := 0x00040000
  ioLimit := 0x00050000
  romImage := Config.romImage
  abortClassEmf := Config.abortClassEmf
  abortCauseEmf := Config.abortCauseEmf

/-- `pa` lies in the MMU window `[MMU_BASE, MMU_BASE + 0x1000)` (R111, R228). The upper bound is a number and does not wrap at 2^32:
DESIGN CHOICE, log 23. -/
def inMmuWindow (P : Params) (pa : Word) : Bool :=
  P.mmuBase.toNat ≤ pa.toNat && pa.toNat < P.mmuBase.toNat + 0x1000

/-- `pa` is the address of a register word: what the MMUR and MMUW rows of spec/opcode_table.json match under the default map. -/
def isRegisterWord (P : Params) (pa : Word) : Bool := inMmuWindow P pa && pa.toNat % 4 == 0

/-- The default instantiation of all of R10: `params`, and CONF_EFFECT at its default, none (R32, D12). Log 18. -/
def setup : Setup where
  base := params
  confEffect _ P := P

end Sys2Proof.Machine
end

