-- ==== Sys2Proof/WellFormed.lean ====
section
/-! DEFINITION. Which terms of `Instr` stand for exactly one request record. Operand ranges are in the types; what is left is that a
32-bit physical access of an aligned word of the MMU window is the register row of that word (R117), so PREAD32 and PWRITE32 stand
for the other addresses. -/

namespace Sys2Proof

/-- The check, under the layout `P`: PREAD32 and PWRITE32 do not spell a register row. -/
def Instr.wellFormed (P : Params) : Instr → Bool
  | .pread32 pa => !Machine.isRegisterWord P pa
  | .pwrite32 pa _ => !Machine.isRegisterWord P pa
  | .translate .. | .read8 .. | .read16 .. | .read32 .. | .write8 .. | .write16 .. | .write32 ..
  | .examine _ | .deposit .. | .pread8 _ | .pread16 _ | .pwrite8 .. | .pwrite16 ..
  | .setEnable _ | .clearAlign | .reset | .reservedE .. | .reservedF ..
  | .mmurSdcl .. | .mmuwSdcl .. | .mmurSdch .. | .mmuwSdch .. | .mmurPdcrl .. | .mmuwPdcrl ..
  | .mmurPdcrh .. | .mmuwPdcrh .. | .mmurPdcll .. | .mmuwPdcll .. | .mmurPdclh .. | .mmuwPdclh ..
  | .mmurSrama .. | .mmuwSrama .. | .mmurSramb .. | .mmuwSramb .. | .mmurFc .. | .mmuwFc ..
  | .mmurFa .. | .mmuwFa .. | .mmurConf .. | .mmuwConf .. | .mmurVar .. | .mmuwVar ..
  | .mmurUndef12 .. | .mmuwUndef12 .. | .mmurUndef13 .. | .mmuwUndef13 ..
  | .mmurUndef14 .. | .mmuwUndef14 .. | .mmurUndef15 .. | .mmuwUndef15 .. => true

end Sys2Proof
end

