-- ==== Sys2Proof/Decode.lean ====
section
/-! DEFINITION. The decoder of a request record, total, rejecting by name, and the encoder, both from R116 (command word, operation
codes, unused fields) and R111, R112 (the register words). -/

namespace Sys2Proof

/-- Why a record is no request: all of these are `Refused(BAD_OP)` (R116, R310). -/
inductive DecodeReject where
  /-- `cmd[15:9] != 0`. -/
  | highBits
  /-- A nonzero field that the operation does not use. -/
  | unusedField
  /-- Width code 3 of PREAD or PWRITE. -/
  | widthCode
  deriving DecidableEq, Repr

/-- What the decoder answers. -/
inductive Decoded where
  | ok (i : Instr)
  | rejected (r : DecodeReject)
  deriving DecidableEq, Repr

namespace Request

/-- `cmd[3:0]` (R116). -/
def op (r : Request) : BitVec 4 := r.cmd.extractLsb' 0 4

/-- `cmd[5:4]` (R116). -/
def accBits (r : Request) : BitVec 2 := r.cmd.extractLsb' 4 2

/-- `cmd[7:6]` (R116). -/
def lvl (r : Request) : Level := r.cmd.extractLsb' 6 2

/-- `cmd[8]` (R116). -/
def se (r : Request) : Bool := r.cmd.getLsbD 8

/-- `cmd[15:9]` (R116). -/
def high (r : Request) : BitVec 7 := r.cmd.extractLsb' 9 7

end Request

/-- The access kind with a 2-bit code (R108). -/
def AccessKind.ofCode (c : BitVec 2) : AccessKind :=
  match c.toNat with
  | 0 => .read
  | 1 => .write
  | 2 => .iread
  | _ => .fetch

/-- The 2-bit code of an access kind (R108). -/
def AccessKind.code : AccessKind → BitVec 2
  | .read => 0
  | .write => 1
  | .iread => 2
  | .fetch => 3

/-- The instruction, if the operation's unused fields are zero (R116). -/
def accepted (r : Request) (unusedZero : Bool) (i : Instr) : Decoded :=
  if r.high ≠ 0 then .rejected .highBits
  else if unusedZero then .ok i
  else .rejected .unusedField

/-- An MMUR row: the free bit and the index are the address bits the row leaves open (R111). -/
def registerReadRow (P : Params) (pa : Word) : Instr :=
  let off := pa - P.mmuBase
  let b7 := P.regFree off
  let index := P.regIndex off
  match P.regGroup off with
  | .sdcl => .mmurSdcl b7 index
  | .sdch => .mmurSdch b7 index
  | .pdcrl => .mmurPdcrl b7 index
  | .pdcrh => .mmurPdcrh b7 index
  | .pdcll => .mmurPdcll b7 index
  | .pdclh => .mmurPdclh b7 index
  | .srama => .mmurSrama b7 index
  | .sramb => .mmurSramb b7 index
  | .fc => .mmurFc b7 index
  | .fa => .mmurFa b7 index
  | .conf => .mmurConf b7 index
  | .var => .mmurVar b7 index
  | .undef12 => .mmurUndef12 b7 index
  | .undef13 => .mmurUndef13 b7 index
  | .undef14 => .mmurUndef14 b7 index
  | .undef15 => .mmurUndef15 b7 index

/-- An MMUW row: the free bit and the index are the address bits the row leaves open (R111). -/
def registerWriteRow (P : Params) (pa v : Word) : Instr :=
  let off := pa - P.mmuBase
  let b7 := P.regFree off
  let index := P.regIndex off
  match P.regGroup off with
  | .sdcl => .mmuwSdcl b7 index v
  | .sdch => .mmuwSdch b7 index v
  | .pdcrl => .mmuwPdcrl b7 index v
  | .pdcrh => .mmuwPdcrh b7 index v
  | .pdcll => .mmuwPdcll b7 index v
  | .pdclh => .mmuwPdclh b7 index v
  | .srama => .mmuwSrama b7 index v
  | .sramb => .mmuwSramb b7 index v
  | .fc => .mmuwFc b7 index v
  | .fa => .mmuwFa b7 index v
  | .conf => .mmuwConf b7 index v
  | .var => .mmuwVar b7 index v
  | .undef12 => .mmuwUndef12 b7 index v
  | .undef13 => .mmuwUndef13 b7 index v
  | .undef14 => .mmuwUndef14 b7 index v
  | .undef15 => .mmuwUndef15 b7 index v

/-- A 4-byte PREAD: a register row when the address is a register word (R117), else PREAD32. -/
def physicalRead32 (P : Params) (pa : Word) : Instr :=
  if Machine.isRegisterWord P pa then registerReadRow P pa else .pread32 pa

/-- A 4-byte PWRITE: a register row when the address is a register word (R117), else PWRITE32. -/
def physicalWrite32 (P : Params) (pa v : Word) : Instr :=
  if Machine.isRegisterWord P pa then registerWriteRow P pa v else .pwrite32 pa v

/-- The fields that no translated access but TRANSLATE uses: `se` (R116). -/
def Request.noSe (r : Request) : Bool := r.se == false

/-- `cmd[5:4]`, `cmd[7:6]` and `cmd[8]` all zero (R116). -/
def Request.noCmdFields (r : Request) : Bool := r.accBits == 0 && r.lvl == 0 && r.noSe

/-- `cmd[7:6]` and `cmd[8]` zero: what PREAD and PWRITE leave unused beside the width code (R116). -/
def Request.onlyWidth (r : Request) : Bool := r.lvl == 0 && r.noSe

/-- PREAD by width code (R116, R229). -/
def decodePread (P : Params) (r : Request) : Decoded :=
  match r.accBits.toNat with
  | 0 => accepted r (r.onlyWidth && r.v == 0) (.pread8 r.a)
  | 1 => accepted r (r.onlyWidth && r.v == 0) (.pread16 r.a)
  | 2 => accepted r (r.onlyWidth && r.v == 0) (physicalRead32 P r.a)
  | _ => .rejected .widthCode

/-- PWRITE by width code (R116, R230). -/
def decodePwrite (P : Params) (r : Request) : Decoded :=
  match r.accBits.toNat with
  | 0 => accepted r r.onlyWidth (.pwrite8 r.a r.v)
  | 1 => accepted r r.onlyWidth (.pwrite16 r.a r.v)
  | 2 => accepted r r.onlyWidth (physicalWrite32 P r.a r.v)
  | _ => .rejected .widthCode

/-- The decoder (R116), under the register layout of `P` (R111). The bits of `v` above `v[7:0]` of DEPOSIT and above `v[0]` of SETENABLE
belong to a used field and are ignored, as PWRITE ignores the high bits of `v`: DEDUCED, log 13. -/
def decode (P : Params) (r : Request) : Decoded :=
  match r.op.toNat with
  | 0 => accepted r (r.v == 0) (.translate (.ofCode r.accBits) r.lvl r.se r.a)
  | 1 => accepted r (r.noSe && r.v == 0) (.read8 (.ofCode r.accBits) r.lvl r.a)
  | 2 => accepted r (r.noSe && r.v == 0) (.read16 (.ofCode r.accBits) r.lvl r.a)
  | 3 => accepted r (r.noSe && r.v == 0) (.read32 (.ofCode r.accBits) r.lvl r.a)
  | 4 => accepted r (r.accBits == 0 && r.noSe) (.write8 r.lvl r.a r.v)
  | 5 => accepted r (r.accBits == 0 && r.noSe) (.write16 r.lvl r.a r.v)
  | 6 => accepted r (r.accBits == 0 && r.noSe) (.write32 r.lvl r.a r.v)
  | 7 => accepted r (r.noCmdFields && r.v == 0) (.examine r.a)
  | 8 => accepted r r.noCmdFields (.deposit r.a r.v)
  | 9 => decodePread P r
  | 10 => decodePwrite P r
  | 11 => accepted r (r.noCmdFields && r.a == 0) (.setEnable r.v)
  | 12 => accepted r (r.noCmdFields && r.a == 0 && r.v == 0) .clearAlign
  | 13 => accepted r (r.noCmdFields && r.a == 0 && r.v == 0) .reset
  | 14 => .ok (.reservedE (r.cmd.extractLsb' 4 12) r.a r.v)
  | _ => .ok (.reservedF (r.cmd.extractLsb' 4 12) r.a r.v)

/-- A command word from its fields, `cmd[15:9] = 0` (R116). -/
def commandWord (se : Bool) (lvl : Level) (acc : BitVec 2) (op : BitVec 4) : BitVec 16 :=
  0#7 ++ BitVec.ofBool se ++ lvl ++ acc ++ op

/-- The physical address of a register (R111, R117). -/
def registerAddress (P : Params) (g : RegGroup) (b7 : BitVec 1) (index : BitVec 5) : Word := P.mmuBase + P.regOffset g b7 index

/-- The record of an MMUR row: PREAD32 of the register's address (R117). -/
def registerReadRequest (P : Params) (g : RegGroup) (b7 : BitVec 1) (index : BitVec 5) : Request :=
  ⟨commandWord false 0 2 9, registerAddress P g b7 index, 0⟩

/-- The record of an MMUW row: PWRITE32 of the register's address (R117). -/
def registerWriteRequest (P : Params) (g : RegGroup) (b7 : BitVec 1) (index : BitVec 5) (v : Word) : Request :=
  ⟨commandWord false 0 2 10, registerAddress P g b7 index, v⟩

/-- The record of a request (R116), under the register layout of `P`. -/
def encode (P : Params) : Instr → Request
  | .translate acc lvl se va => ⟨commandWord se lvl acc.code 0, va, 0⟩
  | .read8 acc lvl va => ⟨commandWord false lvl acc.code 1, va, 0⟩
  | .read16 acc lvl va => ⟨commandWord false lvl acc.code 2, va, 0⟩
  | .read32 acc lvl va => ⟨commandWord false lvl acc.code 3, va, 0⟩
  | .write8 lvl va v => ⟨commandWord false lvl 0 4, va, v⟩
  | .write16 lvl va v => ⟨commandWord false lvl 0 5, va, v⟩
  | .write32 lvl va v => ⟨commandWord false lvl 0 6, va, v⟩
  | .examine va => ⟨commandWord false 0 0 7, va, 0⟩
  | .deposit va v => ⟨commandWord false 0 0 8, va, v⟩
  | .pread8 pa => ⟨commandWord false 0 0 9, pa, 0⟩
  | .pread16 pa => ⟨commandWord false 0 1 9, pa, 0⟩
  | .pread32 pa => ⟨commandWord false 0 2 9, pa, 0⟩
  | .pwrite8 pa v => ⟨commandWord false 0 0 10, pa, v⟩
  | .pwrite16 pa v => ⟨commandWord false 0 1 10, pa, v⟩
  | .pwrite32 pa v => ⟨commandWord false 0 2 10, pa, v⟩
  | .setEnable v => ⟨commandWord false 0 0 11, 0, v⟩
  | .clearAlign => ⟨commandWord false 0 0 12, 0, 0⟩
  | .reset => ⟨commandWord false 0 0 13, 0, 0⟩
  | .reservedE rest a v => ⟨rest ++ 14#4, a, v⟩
  | .reservedF rest a v => ⟨rest ++ 15#4, a, v⟩
  | .mmurSdcl b7 index => registerReadRequest P .sdcl b7 index
  | .mmuwSdcl b7 index v => registerWriteRequest P .sdcl b7 index v
  | .mmurSdch b7 index => registerReadRequest P .sdch b7 index
  | .mmuwSdch b7 index v => registerWriteRequest P .sdch b7 index v
  | .mmurPdcrl b7 index => registerReadRequest P .pdcrl b7 index
  | .mmuwPdcrl b7 index v => registerWriteRequest P .pdcrl b7 index v
  | .mmurPdcrh b7 index => registerReadRequest P .pdcrh b7 index
  | .mmuwPdcrh b7 index v => registerWriteRequest P .pdcrh b7 index v
  | .mmurPdcll b7 index => registerReadRequest P .pdcll b7 index
  | .mmuwPdcll b7 index v => registerWriteRequest P .pdcll b7 index v
  | .mmurPdclh b7 index => registerReadRequest P .pdclh b7 index
  | .mmuwPdclh b7 index v => registerWriteRequest P .pdclh b7 index v
  | .mmurSrama b7 index => registerReadRequest P .srama b7 index
  | .mmuwSrama b7 index v => registerWriteRequest P .srama b7 index v
  | .mmurSramb b7 index => registerReadRequest P .sramb b7 index
  | .mmuwSramb b7 index v => registerWriteRequest P .sramb b7 index v
  | .mmurFc b7 index => registerReadRequest P .fc b7 index
  | .mmuwFc b7 index v => registerWriteRequest P .fc b7 index v
  | .mmurFa b7 index => registerReadRequest P .fa b7 index
  | .mmuwFa b7 index v => registerWriteRequest P .fa b7 index v
  | .mmurConf b7 index => registerReadRequest P .conf b7 index
  | .mmuwConf b7 index v => registerWriteRequest P .conf b7 index v
  | .mmurVar b7 index => registerReadRequest P .var b7 index
  | .mmuwVar b7 index v => registerWriteRequest P .var b7 index v
  | .mmurUndef12 b7 index => registerReadRequest P .undef12 b7 index
  | .mmuwUndef12 b7 index v => registerWriteRequest P .undef12 b7 index v
  | .mmurUndef13 b7 index => registerReadRequest P .undef13 b7 index
  | .mmuwUndef13 b7 index v => registerWriteRequest P .undef13 b7 index v
  | .mmurUndef14 b7 index => registerReadRequest P .undef14 b7 index
  | .mmuwUndef14 b7 index v => registerWriteRequest P .undef14 b7 index v
  | .mmurUndef15 b7 index => registerReadRequest P .undef15 b7 index
  | .mmuwUndef15 b7 index v => registerWriteRequest P .undef15 b7 index v

/-- The record that a table word stands for, numbered as spec/opcode_table.json numbers its bits: up to 16 bits are a command word
(`a = v = 0`); up to 32 bits are the address of the table's PA32 rows, taken as PREAD32 of it (the table gives the MMUR and the MMUW
row of a group the same word; log 14); more are the whole record, `cmd`, then `a`, then `v`. -/
def tableRequest (nbits w : Nat) : Request :=
  if nbits ≤ 16 then ⟨BitVec.ofNat 16 w, 0, 0⟩
  else if nbits ≤ 32 then ⟨0x0029#16, BitVec.ofNat 32 w, 0⟩
  else ⟨BitVec.ofNat 16 w, BitVec.ofNat 32 (w >>> 16), BitVec.ofNat 32 (w >>> 48)⟩

/-- The instruction the decoder reads from a table word, under the default layout, which is the table's. -/
def decodeTableWord (nbits w : Nat) : Option Instr :=
  match decode Machine.params (tableRequest nbits w) with
  | .ok i => some i
  | .rejected _ => none

end Sys2Proof
end

