-- ==== Sys2Proof/Machine/State.lean ====
section
/-! DEFINITION. The state of the block (R30, R48), what a run carries beside it (R310, R360, R361), the outcomes of a request (R14,
R300), and the state after reset (R48). Plain data throughout. -/

namespace Sys2Proof.Machine

/-- Why the machine cannot step. Raised by `step` alone, never by a request: each of the spec's faults, aborts, stops and refusals is
an outcome of a request and a next state (R14, R300). -/
inductive Fault where
  /-- No request is pending: the block performs nothing until the host issues one (R14, R360). Raised by `step`. Safe: the model stops
  where the block waits. Log 1. -/
  | noRequest
  deriving DecidableEq, Repr

/-- Why the model has no meaning for an instruction. -/
inductive Refusal where
  /-- Not modelled, by the mnemonic of spec/opcode_table.json. Would be raised by an arm of `exec` without a meaning; there is none.
  Safe. -/
  | notModelled (mnemonic : String)
  deriving DecidableEq, Repr

/-- The reasons of `Stop` (R309). -/
inductive StopReason where
  | indirectSd
  deriving DecidableEq, Repr

/-- The reasons of `Abort` (R307). -/
inductive AbortReason where
  | emf
  deriving DecidableEq, Repr

/-- The reasons of `Refused` (R310). -/
inductive RefuseReason where
  | mmuSubword | badOp | halted
  deriving DecidableEq, Repr

/-- The outcome of one request (R14, R300). -/
inductive Response where
  /-- `Ok(x)`. -/
  | value (x : Word)
  /-- `Ok()`. -/
  | done
  /-- `Fault(code)`: a side-effect translation failed. -/
  | fault (code : TransFault)
  /-- `Fail(code)`: a peek translation failed. -/
  | fail (code : TransFault)
  /-- `Abort(EMF)`. -/
  | abort (reason : AbortReason)
  /-- `Stop(INDIRECT_SD)`. -/
  | stop (reason : StopReason)
  /-- `Refused(reason)`. -/
  | refused (reason : RefuseReason)
  deriving DecidableEq, Repr

/-- The width of a physical access: 1, 2 or 4 bytes (R78, R220). -/
inductive Width where
  | byte | half | word
  deriving DecidableEq, Repr

/-- An SDC key `(sid, ssl)` (R38). -/
structure SegKey where
  sid : Fin 4
  ssl : Word
  deriving DecidableEq, Repr

/-- A PDC key `(sid, ssl, psl)` (R39). -/
structure PageKey where
  sid : Fin 4
  ssl : Word
  psl : Word
  deriving DecidableEq, Repr

/-- An SDC entry (R38). -/
structure SegEntry where
  key : SegKey
  sd0 : Word
  sd1 : Word
  deriving DecidableEq, Repr

/-- A PDC entry (R39). -/
structure PageEntry where
  key    : PageKey
  pd     : Word
  rights : Word
  deriving DecidableEq, Repr

/-- Four 32-bit registers, one per section (R36, R37). -/
structure SectRegs where
  r0 : Word
  r1 : Word
  r2 : Word
  r3 : Word
  deriving DecidableEq, Repr

/-- An `IoWrite(pa, n, v)` event (R228(b)). -/
structure IoEvent where
  pa    : Word
  width : Width
  v     : Word
  deriving DecidableEq, Repr

/-- Bytes by physical address, in the canonical form of `Memory.wf` (Machine/Ops.lean). -/
abbrev Memory := List Host.Cell

/-- The state. The first part is R30's tuple with the ROM that R48 lists beside it; the second is what a run carries (R310, R341, R360,
R361, R12). INVENTORY.md lists every field with its rule and reset value. -/
structure State where
  enable      : Bool
  conf        : Word
  fc          : Word
  fa          : Word
  var         : Word
  srama       : SectRegs
  sramb       : SectRegs
  sdc         : List SegEntry
  pdc         : List PageEntry
  rom         : Memory
  ram         : Memory
  alignErr    : Bool
  halted      : Bool
  refusedMark : Bool
  outcomes    : List Response
  ioLog       : List IoEvent
  requests    : List Request
  draws       : List Nat
  drawCount   : Nat
  deriving DecidableEq, Repr

/-- The state after reset at power-on (R48, R341). RAM and ROM content are launch inputs that R48 gives no value: none is listed here
(logs 5 and 6); no request and no free input is supplied (logs 1 and 3). -/
def State.reset : State where
  enable := false
  conf := 0
  fc := 0
  fa := 0
  var := 0
  srama := ⟨0, 0, 0, 0⟩
  sramb := ⟨0, 0, 0, 0⟩
  sdc := []
  pdc := []
  rom := []
  ram := []
  alignErr := false
  halted := false
  refusedMark := false
  outcomes := []
  ioLog := []
  requests := []
  draws := []
  drawCount := 0

end Sys2Proof.Machine
end

