-- ==== Sys2Proof/Machine/Flags.lean ====
section
/-! DEFINITION. The flags of the block and the named single updates of State. -/

namespace Sys2Proof.Machine

/-- `enable <- b` (R31, R262). -/
def State.setEnable (s : State) (b : Bool) : State := { s with enable := b }

/-- `CONF <- w` (R32). -/
def State.setConf (s : State) (w : Word) : State := { s with conf := w }

/-- `FC <- w` (R33). -/
def State.setFc (s : State) (w : Word) : State := { s with fc := w }

/-- `FA <- w` (R34). -/
def State.setFa (s : State) (w : Word) : State := { s with fa := w }

/-- `VAR <- w` (R35). -/
def State.setVar (s : State) (w : Word) : State := { s with var := w }

/-- The four SRAMA registers (R36). -/
def State.setSrama (s : State) (r : SectRegs) : State := { s with srama := r }

/-- The four SRAMB registers (R37). -/
def State.setSramb (s : State) (r : SectRegs) : State := { s with sramb := r }

/-- `SDC <- l` (R38). -/
def State.setSdc (s : State) (l : List SegEntry) : State := { s with sdc := l }

/-- `PDC <- l` (R39). -/
def State.setPdc (s : State) (l : List PageEntry) : State := { s with pdc := l }

/-- `RAM <- m` (R42). -/
def State.setRam (s : State) (m : Memory) : State := { s with ram := m }

/-- `alignErr <- b` (R43, R221, R263). -/
def State.setAlignErr (s : State) (b : Bool) : State := { s with alignErr := b }

/-- `halted <- b` (R44, R309). -/
def State.setHalted (s : State) (b : Bool) : State := { s with halted := b }

/-- The requests the host has still to have performed (R360; log 1). -/
def State.setRequests (s : State) (l : List Request) : State := { s with requests := l }

/-- Record an `IoWrite` event (R228(b)), newest first. -/
def State.logIo (s : State) (e : IoEvent) : State := { s with ioLog := e :: s.ioLog }

/-- The outcome is a refusal (R310). -/
def Response.isRefusal : Response → Bool
  | .refused _ => true
  | .value _ | .done | .fault _ | .fail _ | .abort _ | .stop _ => false

/-- Record a request's outcome (R361), newest first. A refusal leaves its mark for the whole run (R310). -/
def State.respond (s : State) (r : Response) : State :=
  { s with outcomes := r :: s.outcomes, refusedMark := s.refusedMark || r.isRefusal }

/-- The next free input (R12 `draw()`, R47): the next number supplied with the run, and once these are used up an opaque constant of
the count of such draws. DESIGN CHOICE (safe), log 3. -/
def State.draw (s : State) : Nat × State :=
  match s.draws with
  | d :: ds => (d, { s with draws := ds })
  | [] => (Config.freeNat s.drawCount, { s with drawCount := s.drawCount + 1 })

/-- A drawn word: any 32-bit value, under no law (R12). -/
def State.drawWord (s : State) : Word × State :=
  (BitVec.ofNat 32 s.draw.1, s.draw.2)

end Sys2Proof.Machine
end

