-- ==== Sys2Proof/Machine/Operands.lean ====
section
/-! DEFINITION. The operand forms: access widths and the bytes they take of a value, section registers by index, cache keys and
descriptor addresses of a virtual address. -/

namespace Sys2Proof.Machine

/-- The number of bytes of an access (R78). -/
def Width.bytes : Width → Nat
  | .byte => 1
  | .half => 2
  | .word => 4

/-- `v[8n-1:0]`, zero-extended (R220). -/
def Width.truncate (w : Width) (v : Word) : Word :=
  match w with
  | .byte => v &&& 0xFF#32
  | .half => v &&& 0xFFFF#32
  | .word => v

/-- The alignment that R76 asks of a physical address. -/
def Width.aligned (w : Width) (pa : Word) : Bool := pa.toNat % w.bytes == 0

/-- `SRAMA[s]`, `SRAMB[s]` (R36, R37). -/
def SectRegs.get (r : SectRegs) (s : Fin 4) : Word :=
  match s with
  | 0 => r.r0
  | 1 => r.r1
  | 2 => r.r2
  | 3 => r.r3

/-- `SRAMA[s] <- v`, `SRAMB[s] <- v` (R256, R257). -/
def SectRegs.set (r : SectRegs) (s : Fin 4) (v : Word) : SectRegs :=
  match s with
  | 0 => { r with r0 := v }
  | 1 => { r with r1 := v }
  | 2 => { r with r2 := v }
  | 3 => { r with r3 := v }

/-- `index & 3` (R112, R254). -/
def sectionOfIndex (index : BitVec 5) : Fin 4 := Fin.ofNat 4 (index &&& 3).toNat

/-- `sdcKey(va)` (R140). -/
def sdcKey (P : Params) (va : Word) : SegKey := ⟨P.sid va, P.ssl va⟩

/-- `pdcKey(va)` (R140). -/
def pdcKey (P : Params) (va : Word) : PageKey := ⟨P.sid va, P.ssl va, P.psl va⟩

/-- `sdAddr(va)` from the current SRAMA (R105, R174). -/
def sdAddr (P : Params) (s : State) (va : Word) : Word :=
  P.sectBase (s.srama.get (P.sid va)) + P.ssl va * 8

/-- `pdAddr(va, sd1)` (R105). -/
def pdAddr (P : Params) (va sd1 : Word) : Word := P.ptBase sd1 + P.psl va * 4

/-- `lastPage(sd0)` (R104). -/
def lastPage (P : Params) (sd0 : Word) : Word := P.maxOff sd0 >>> P.pageShift

/-- The operands of one translation (R170): address, access kind, execution level and the `sideEffects` flag. -/
structure Access where
  va  : Word
  acc : AccessKind
  lvl : Level
  se  : Bool
  deriving DecidableEq, Repr

end Sys2Proof.Machine
end

