-- ==== Sys2Proof/Machine/Ops.lean ====
section
/-! DEFINITION. The named operations under every request: bytes of memory, how a request runs and ends, and the block's exceptional
outcomes (fault record, bus abort, stop, refusal). The block has no return from any of them (R306, R313). -/

namespace Sys2Proof.Machine

/-! ### Bytes of memory

A memory lists the bytes that have been given a value, by the launch or by a write. An unlisted byte has none; it reads as the free
value that `fill` gives its address: the power-on content of RAM (R42, R341; log 5), ROM_IMAGE in ROM (R41; log 6). -/

/-- The byte at an address. -/
def Memory.read (m : Memory) (a : Nat) (fill : Nat → Byte := Config.powerOnByte) : Byte :=
  match m with
  | [] => fill a
  | (k, b) :: m => if k = a then b else Memory.read m a fill

/-- Store a byte, keeping the canonical form. -/
def Memory.write : Memory → Nat → Byte → Memory
  | [], a, b => [(a, b)]
  | (k, c) :: m, a, b =>
    if a < k then (a, b) :: (k, c) :: m
    else if a = k then (a, b) :: m
    else (k, c) :: Memory.write m a b

/-- Every entry lies at or above `lo`, and addresses rise strictly. -/
def Memory.wfFrom : Nat → Memory → Bool
  | _, [] => true
  | lo, (k, _) :: m => decide (lo ≤ k) && Memory.wfFrom (k + 1) m

/-- The canonical form: addresses strictly rising. What an unlisted address reads as is free, so that no entry is known to equal it. -/
def Memory.wf (m : Memory) : Bool := Memory.wfFrom 0 m

/-- The n-byte datum at an address, most significant byte first, zero-extended (R73, R220). -/
def Memory.readWide (m : Memory) (a : Nat) (w : Width) (fill : Nat → Byte := Config.powerOnByte) : Word :=
  match w with
  | .byte => (Memory.read m a fill).setWidth 32
  | .half => (Memory.read m a fill ++ Memory.read m (a + 1) fill).setWidth 32
  | .word => Memory.read m a fill ++ Memory.read m (a + 1) fill ++ Memory.read m (a + 2) fill ++ Memory.read m (a + 3) fill

/-- Store `v[8n-1:0]`, most significant byte first (R73, R225). -/
def Memory.writeWide (m : Memory) (a : Nat) (w : Width) (v : Word) : Memory :=
  match w with
  | .byte => Memory.write m a (v.extractLsb' 0 8)
  | .half => Memory.write (Memory.write m a (v.extractLsb' 8 8)) (a + 1) (v.extractLsb' 0 8)
  | .word =>
    Memory.write (Memory.write (Memory.write (Memory.write m a (v.extractLsb' 24 8)) (a + 1) (v.extractLsb' 16 8))
      (a + 2) (v.extractLsb' 8 8)) (a + 3) (v.extractLsb' 0 8)

/-! ### How a request runs -/

/-- A part of a request either goes on with a result or has ended the request with an outcome (R14, R170). Either way the state
written so far stays written (R200, R300). -/
inductive Res (α : Type) where
  | go (x : α) (s : State)
  | ended (r : Response) (s : State)
  deriving DecidableEq, Repr

/-- Go on with the result, unless the request has ended. -/
def Res.bind {α β : Type} (m : Res α) (k : α → State → Res β) : Res β :=
  match m with
  | .go x s => k x s
  | .ended r s => .ended r s

/-- The state written so far. -/
def Res.state {α : Type} (m : Res α) : State :=
  match m with
  | .go _ s => s
  | .ended _ s => s

/-- Record the outcome of a request that has run to its end. -/
def Res.close (m : Res Response) : State :=
  match m with
  | .go r s => s.respond r
  | .ended r s => s.respond r

/-- Perform a request: while `halted` it is refused (R44, R309, R310), else its body runs and its outcome is recorded. -/
def perform (s : State) (body : State → Res Response) : Host.Outcome State Fault Refusal :=
  .next (if s.halted then s.respond (.refused .halted) else (body s).close)

/-- The outcome `Ok(x)` of a part that gives a word. -/
def answerValue (m : Res Word) : Res Response := m.bind fun x s => .go (.value x) s

/-- The outcome `Ok()` of a part that gives nothing. -/
def answerDone (m : Res Unit) : Res Response := m.bind fun _ s => .go .done s

/-! ### Exceptional outcomes -/

/-- The fault record of a side-effect translation (R305): `FC <- zext_32(FCODE(code)); FA <- va`. -/
def recordFault (P : Params) (code : TransFault) (va : Word) (s : State) : State :=
  (s.setFc (P.fcode code)).setFa va

/-- `fail(code)` (R197, R304, R305): with side effects the fault is recorded and the outcome is `Fault(code)`; without, nothing is
written and the outcome is `Fail(code)`. -/
def failWith {α : Type} (P : Params) (x : Access) (code : TransFault) (s : State) : Res α :=
  if x.se then .ended (.fault code) (recordFault P code x.va s) else .ended (.fail code) s

/-- The bus abort (R221, R307): `alignErr <- 1`, then `Abort(EMF)`. -/
def abortEmf {α : Type} (s : State) : Res α := .ended (.abort .emf) (s.setAlignErr true)

/-- The exception class and cause that the fatal-abort entry of the CPU receives (R221, R307, D26); not interpreted. -/
def abortEntry (P : Params) : AbortReason → Word × Word
  | .emf => (P.abortClassEmf, P.abortCauseEmf)

/-- `STOP(INDIRECT_SD)` (R177, R309): `halted <- 1`, no fault record. -/
def stopIndirect {α : Type} (s : State) : Res α := .ended (.stop .indirectSd) (s.setHalted true)

/-- A refusal in the course of a request (R250, R310): it writes nothing itself. -/
def refuse {α : Type} (r : RefuseReason) (s : State) : Res α := .ended (.refused r) s

/-! ### Taking the next request -/

/-- The request the block performs next and the state without it (R360). -/
def nextRequest (s : State) : Option (Request × State) :=
  match s.requests with
  | [] => none
  | r :: rest => some (r, s.setRequests rest)

/-- A record that is no request (R116, R310): `Refused(BAD_OP)`, or `Refused(HALTED)` while halted, as every request but RESET (R44,
R309; DEDUCED, log 12). No state changes but the record of it. -/
def refuseMalformed (s : State) : State := s.respond (.refused (if s.halted then .halted else .badOp))

/-- Put a request where `step` takes its next one from. -/
def pushRequest (s : State) (r : Request) : State := s.setRequests (r :: s.requests)

end Sys2Proof.Machine
end

