-- ==== Sys2Proof/Machine/Caches.lean ====
section
/-! DEFINITION. The operations of the two descriptor caches (40_caches.md, R140 to R152). -/

namespace Sys2Proof.Machine

/-- `lookup_segment(k)` (R142). -/
def lookupSegment (k : SegKey) (l : List SegEntry) : Option SegEntry := l.find? fun e => e.key = k

/-- `lookup_page(k)` (R143). -/
def lookupPage (k : PageKey) (l : List PageEntry) : Option PageEntry := l.find? fun e => e.key = k

/-- The entries a drawn set leaves: entry `i` goes when bit `i` of `d` is 1, so every set is some draw (R144). -/
def dropDrawn {α : Type} : Nat → List α → List α
  | _, [] => []
  | d, e :: l => if d % 2 = 1 then dropDrawn (d / 2) l else e :: dropDrawn (d / 2) l

/-- The entries of other keys that survive an insertion (R144): a drawn set goes; where none goes and the cache holds `cap` others,
one drawn entry goes, as the law demands. Log 8. -/
def evict {α : Type} (cap : Nat) (d : Nat) (others : List α) : List α :=
  let kept := dropDrawn d others
  if cap ≤ kept.length then kept.eraseIdx (d / 2 ^ 32 % kept.length) else kept

/-- `insert_segment(k, sd0, sd1)` (R145). -/
def insertSegment (k : SegKey) (sd0 sd1 : Word) (s : State) : State :=
  s.draw.2.setSdc (⟨k, sd0, sd1⟩ :: evict Config.sdcCap s.draw.1 (s.sdc.filter fun e => e.key ≠ k))

/-- `insert_page(k, owning_sd0, pd)`, with the rights of the owning segment (R146). -/
def insertPage (k : PageKey) (pd rights : Word) (s : State) : State :=
  s.draw.2.setPdc (⟨k, pd, rights⟩ :: evict Config.pdcCap s.draw.1 (s.pdc.filter fun e => e.key ≠ k))

/-- `flush_all()` (R147). -/
def flushAll (s : State) : State := (s.setSdc []).setPdc []

/-- `flush_matching(v)` (R148). -/
def flushMatching (P : Params) (v : Word) (s : State) : State :=
  (s.setSdc (s.sdc.filter fun e => e.key ≠ sdcKey P v)).setPdc (s.pdc.filter fun e => e.key ≠ pdcKey P v)

/-- `flush_section(s)` (R149). -/
def flushSection (sec : Fin 4) (s : State) : State :=
  (s.setSdc (s.sdc.filter fun e => e.key.sid ≠ sec)).setPdc (s.pdc.filter fun e => e.key.sid ≠ sec)

/-- `havoc_one(SDC)` (R150): at most one drawn entry goes (the entry at a drawn place; none when the place is past the end), and at
most one drawn entry comes, unless it would break R141. Its key is the key of a drawn address. Log 9. -/
def havocSegment (P : Params) (s : State) : State :=
  let out := s.draw
  let comes := out.2.draw
  let va := comes.2.drawWord
  let sd0 := va.2.drawWord
  let sd1 := sd0.2.drawWord
  let left := s.sdc.eraseIdx out.1
  let e : SegEntry := ⟨sdcKey P va.1, sd0.1, sd1.1⟩
  sd1.2.setSdc (if comes.1 % 2 = 1 ∧ left.length < Config.sdcCap ∧ lookupSegment e.key left = none then e :: left else left)

/-- `havoc_one(PDC)` (R150), as `havocSegment`; the rights are those of a drawn SD0. Log 9. -/
def havocPage (P : Params) (s : State) : State :=
  let out := s.draw
  let comes := out.2.draw
  let va := comes.2.drawWord
  let pd := va.2.drawWord
  let sd0 := pd.2.drawWord
  let left := s.pdc.eraseIdx out.1
  let e : PageEntry := ⟨pdcKey P va.1, pd.1, P.rights sd0.1⟩
  sd0.2.setPdc (if comes.1 % 2 = 1 ∧ left.length < Config.pdcCap ∧ lookupPage e.key left = none then e :: left else left)

/-- `reflectS(w)` (R198): under `CACHE_REFLECTS_RM` the cached sd0 of the key, if any, becomes `w`. -/
def reflectSegment (P : Params) (va w : Word) (s : State) : State :=
  if P.cacheReflectsRM then
    s.setSdc (s.sdc.map fun e => if e.key = sdcKey P va then { e with sd0 := w } else e)
  else s

/-- `reflectP(w)` (R198). -/
def reflectPage (P : Params) (va w : Word) (s : State) : State :=
  if P.cacheReflectsRM then
    s.setPdc (s.pdc.map fun e => if e.key = pdcKey P va then { e with pd := w } else e)
  else s

end Sys2Proof.Machine
end

