-- ==== Sys2Proof/Machine/Router.lean ====
section
/-! DEFINITION. The register interface (43_registers.md, R250 to R261) and the physical memory router over it (42_router.md, R220 to
R228). Every register has one reader and one writer here; RegRead, RegWrite and the register rows all go through them. -/

namespace Sys2Proof.Machine

/-! ### Registers -/

/-- Read of a raw cache window, groups 0 to 5: a free value (R252). -/
def readRawWindow (s : State) : Word × State := s.drawWord

/-- Read of an undefined group: a free value (R115). -/
def readUndefined (s : State) : Word × State := s.drawWord

/-- Read of SRAMA (R254). -/
def readSrama (index : BitVec 5) (s : State) : Word × State := (s.srama.get (sectionOfIndex index), s)

/-- Read of SRAMB (R255). -/
def readSramb (index : BitVec 5) (s : State) : Word × State := (s.sramb.get (sectionOfIndex index), s)

/-- Read of FC (R259). -/
def readFc (s : State) : Word × State := (s.fc, s)

/-- Read of FA (R259). -/
def readFa (s : State) : Word × State := (s.fa, s)

/-- Read of CONF: `CONF & 0x7` (R261). -/
def readConf (s : State) : Word × State := (s.conf &&& 7#32, s)

/-- Read of VAR (R259). -/
def readVar (s : State) : Word × State := (s.var, s)

/-- Write of SRAMA, which flushes the section (R256). -/
def writeSrama (index : BitVec 5) (v : Word) (s : State) : State :=
  flushSection (sectionOfIndex index) (s.setSrama (s.srama.set (sectionOfIndex index) v))

/-- Write of SRAMB, which flushes only under `FLUSH_ON_SRAMB` (R257). -/
def writeSramb (P : Params) (index : BitVec 5) (v : Word) (s : State) : State :=
  let t := s.setSramb (s.sramb.set (sectionOfIndex index) v)
  if P.flushOnSramb then flushSection (sectionOfIndex index) t else t

/-- Write of FC (R260). -/
def writeFc (v : Word) (s : State) : State := s.setFc v

/-- Write of FA (R260). -/
def writeFa (v : Word) (s : State) : State := s.setFa v

/-- Write of CONF: `CONF <- v & 0x7` (R261). -/
def writeConf (v : Word) (s : State) : State := s.setConf (v &&& 7#32)

/-- Write of VAR, which flushes the matching entries (R258). -/
def writeVar (P : Params) (v : Word) (s : State) : State := flushMatching P v (s.setVar v)

/-- Write of an undefined group: no effect (R115). -/
def writeUndefined (s : State) : State := s

/-- RegRead of a word, by group (R250 to R261). -/
def readRegister (g : RegGroup) (index : BitVec 5) (s : State) : Word × State :=
  match g with
  | .sdcl | .sdch | .pdcrl | .pdcrh | .pdcll | .pdclh => readRawWindow s
  | .srama => readSrama index s
  | .sramb => readSramb index s
  | .fc => readFc s
  | .fa => readFa s
  | .conf => readConf s
  | .var => readVar s
  | .undef12 | .undef13 | .undef14 | .undef15 => readUndefined s

/-- RegWrite of a word, by group (R250 to R261). Groups 0 and 1 havoc the SDC, groups 2 to 5 the PDC (R253). -/
def writeRegister (P : Params) (g : RegGroup) (index : BitVec 5) (v : Word) (s : State) : State :=
  match g with
  | .sdcl | .sdch => havocSegment P s
  | .pdcrl | .pdcrh | .pdcll | .pdclh => havocPage P s
  | .srama => writeSrama index v s
  | .sramb => writeSramb P index v s
  | .fc => writeFc v s
  | .fa => writeFa v s
  | .conf => writeConf v s
  | .var => writeVar P v s
  | .undef12 | .undef13 | .undef14 | .undef15 => writeUndefined s

/-- `RegRead(off, n)`: only words are admitted (R250). -/
def regRead (P : Params) (off : Word) (w : Width) (s : State) : Res Word :=
  match w with
  | .word =>
    let r := readRegister (P.regGroup off) (P.regIndex off) s
    .go r.1 r.2
  | .byte | .half => refuse .mmuSubword s

/-- `RegWrite(off, n, v)`: only words are admitted (R250). -/
def regWrite (P : Params) (off : Word) (w : Width) (v : Word) (s : State) : Res Unit :=
  match w with
  | .word => .go () (writeRegister P (P.regGroup off) (P.regIndex off) v s)
  | .byte | .half => refuse .mmuSubword s

/-! ### Router -/

/-- The four kinds of physical address (R72). -/
inductive Region where
  | rom | ram | io | unmapped
  deriving DecidableEq, Repr

/-- The kind of a physical address, decided in R72's order. The upper bound of RAM is a number and does not wrap at 2^32: DESIGN CHOICE,
log 23. -/
def regionOf (P : Params) (pa : Word) : Region :=
  if pa.toNat < P.romSize then .rom
  else if P.ramBase ≤ pa.toNat ∧ pa.toNat < P.ramBase + P.ramSize then .ram
  else if P.ioBase ≤ pa.toNat ∧ pa.toNat < P.ioLimit then .io
  else .unmapped

/-- `IoRead(pa, n)`: an answer of the oracle, zero-extended (R228(b)); a free value. Log 11. -/
def ioRead (w : Width) (s : State) : Res Word := .go (w.truncate s.drawWord.1) s.drawWord.2

/-- `IoWrite(pa, n, v)`: recorded for the device (R228(b)). -/
def ioWrite (pa : Word) (w : Width) (v : Word) (s : State) : Res Unit := .go () (s.logIo ⟨pa, w, w.truncate v⟩)

/-- `PhysRead(pa, n)` (R220): alignment (R221), region (R72), the region's action (R223, R224, R227, R228). -/
def physRead (P : Params) (pa : Word) (w : Width) (s : State) : Res Word :=
  if w.aligned pa then
    match regionOf P pa with
    | .rom => .go (Memory.readWide s.rom pa.toNat w P.romImage) s
    | .ram => .go (Memory.readWide s.ram pa.toNat w) s
    | .io => if inMmuWindow P pa then regRead P (pa - P.mmuBase) w s else ioRead w s
    | .unmapped => .go 0 s
  else abortEmf s

/-- `PhysWrite(pa, n, v)` (R220): alignment (R221), region (R72), the region's action (R225 to R228). -/
def physWrite (P : Params) (pa : Word) (w : Width) (v : Word) (s : State) : Res Unit :=
  if w.aligned pa then
    match regionOf P pa with
    | .rom => .go () s
    | .ram => .go () (s.setRam (Memory.writeWide s.ram pa.toNat w v))
    | .io => if inMmuWindow P pa then regWrite P (pa - P.mmuBase) w v s else ioWrite pa w v s
    | .unmapped => .go () s
  else abortEmf s

end Sys2Proof.Machine
end

