-- ==== Sys2Proof/Machine/Translator.lean ====
section
/-! DEFINITION. The address translator (41_translator.md): R170's listing, cut at its steps. Each part takes the request's operands `x`
and the parameters `P`. -/

namespace Sys2Proof.Machine

/-- The segment descriptor in hand: its address as computed in R174, its words, and whether the SDC gave them. -/
structure SegInHand where
  sda : Word
  sd0 : Word
  sd1 : Word
  hit : Bool
  deriving DecidableEq, Repr

/-- The page descriptor in hand: its address, the word, the rights (R188, R191), and whether the PDC gave them. -/
structure PageInHand where
  pda    : Word
  pd     : Word
  rights : Word
  hit    : Bool
  deriving DecidableEq, Repr

/-- Step 3a (R174): the SDC, or SD0 and then SD1 from memory. -/
def resolveSegment (P : Params) (x : Access) (s : State) : Res SegInHand :=
  let sda := sdAddr P s x.va
  match lookupSegment (sdcKey P x.va) s.sdc with
  | some e => .go ⟨sda, e.sd0, e.sd1, true⟩ s
  | none =>
    (physRead P sda .word s).bind fun sd0 s =>
      (physRead P (sda + 4) .word s).bind fun sd1 s => .go ⟨sda, sd0, sd1, false⟩ s

/-- Steps 3b to 3d: validity (R176), indirect (R177), presence (R178). -/
def checkSegment (P : Params) (x : Access) (g : SegInHand) (s : State) : Res Unit :=
  if !P.valid g.sd0 then failWith P x .invSd s
  else if P.indirect g.sd0 then stopIndirect s
  else if !P.present g.sd0 then failWith P x (if P.contiguous g.sd0 then .segNotPres else .pdtNotPres) s
  else .go () s

/-- Step 3e (R179): the SDC fill, with the words as fetched. -/
def fillSegment (P : Params) (x : Access) (g : SegInHand) (s : State) : State :=
  if x.se && !g.hit && P.cacheAllowed g.sd0 then insertSegment (sdcKey P x.va) g.sd0 g.sd1 s else s

/-- Write the descriptor in hand back, with `w` as its new SD0 (R175, R198). -/
def writeBackSegment (P : Params) (x : Access) (g : SegInHand) (w : Word) (s : State) : Res SegInHand :=
  (physWrite P g.sda .word w s).bind fun _ s => .go { g with sd0 := w } (reflectSegment P x.va w s)

/-- Step 3f (R180): the referenced bit. -/
def referSegment (P : Params) (x : Access) (g : SegInHand) (s : State) : Res SegInHand :=
  if x.se && !P.referenced g.sd0 then writeBackSegment P x g (P.setR g.sd0) s else .go g s

/-- Step 4 (R181): the object trap. -/
def checkObjectTrap (P : Params) (x : Access) (g : SegInHand) (s : State) : Res Unit :=
  if x.se && P.objectTrap g.sd0 then failWith P x .otrap s else .go () s

/-- Step 5 (R182): the modified bit, in peek mode too under `PEEK_SEG_M`. -/
def modifySegment (P : Params) (x : Access) (g : SegInHand) (s : State) : Res SegInHand :=
  if P.mAccesses x.acc && !P.modified g.sd0 && (x.se || P.peekSegM) then writeBackSegment P x g (P.setM g.sd0) s
  else .go g s

/-- Step 6 for a contiguous segment: rights (R183), bound (R184), result (R185). -/
def translateContiguous (P : Params) (x : Access) (g : SegInHand) (s : State) : Res Word :=
  if x.se && !P.permits (P.rights g.sd0) x.acc x.lvl then failWith P x .acc s
  else if P.maxOff g.sd0 < P.sot x.va then failWith P x .segOffset s
  else .go (P.segBase g.sd1 + P.sot x.va) s

/-- The PDC fill (R189), with the word as fetched. -/
def fillPage (P : Params) (x : Access) (g : SegInHand) (q : PageInHand) (s : State) : State :=
  if x.se && P.pagePresent q.pd && P.cacheAllowed g.sd0 then insertPage (pdcKey P x.va) q.pd (P.rights g.sd0) s else s

/-- Write the page descriptor in hand back as `w` (R190, R195, R198). -/
def writeBackPage (P : Params) (x : Access) (q : PageInHand) (w : Word) (s : State) : Res PageInHand :=
  (physWrite P q.pda .word w s).bind fun _ s => .go { q with pd := w } (reflectPage P x.va w s)

/-- The page referenced bit, on a PDC miss (R190). -/
def referPage (P : Params) (x : Access) (q : PageInHand) (s : State) : Res PageInHand :=
  if x.se && P.pagePresent q.pd && !P.pageReferenced q.pd then writeBackPage P x q (P.setPR q.pd) s else .go q s

/-- Step 6 for a paged segment, resolving the page descriptor: the PDC (R186), or the bound (R187), the fetch (R188), the fill (R189)
and the referenced bit (R190). -/
def resolvePage (P : Params) (x : Access) (g : SegInHand) (s : State) : Res PageInHand :=
  let pda := pdAddr P x.va g.sd1
  match lookupPage (pdcKey P x.va) s.pdc with
  | some e => .go ⟨pda, e.pd, e.rights, true⟩ s
  | none =>
    if lastPage P g.sd0 < P.psl x.va then failWith P x .pdtlen s
    else
      (physRead P pda .word s).bind fun pd s =>
        let q : PageInHand := ⟨pda, pd, P.rights g.sd0, false⟩
        referPage P x q (fillPage P x g q s)

/-- Step 6 for a paged segment, the checks: rights (R191), last page (R192), presence (R193), write fault (R194). -/
def checkPage (P : Params) (x : Access) (g : SegInHand) (q : PageInHand) (s : State) : Res Unit :=
  if x.se && !P.permits q.rights x.acc x.lvl then failWith P x .acc s
  else if q.hit && P.lastInSegment q.pd && decide (P.maxOff g.sd0 < P.sot x.va) then failWith P x .segOffset s
  else if !P.pagePresent q.pd then failWith P x .pageNotPres s
  else if x.se && (x.acc == .write || x.acc == .iread) && P.writeFault q.pd then failWith P x .pw s
  else .go () s

/-- The page modified bit (R195). -/
def modifyPage (P : Params) (x : Access) (q : PageInHand) (s : State) : Res PageInHand :=
  if x.se && P.mAccesses x.acc && !P.pageModified q.pd then writeBackPage P x q (P.setPM q.pd) s else .go q s

/-- Step 6 for a paged segment (R186 to R196). -/
def translatePaged (P : Params) (x : Access) (g : SegInHand) (s : State) : Res Word :=
  (resolvePage P x g s).bind fun q s =>
    (checkPage P x g q s).bind fun _ s =>
      (modifyPage P x q s).bind fun q s => .go (P.pageBase q.pd + P.pot x.va) s

/-- Steps 3f to 6, with the segment descriptor in hand, checked and filled (R180 to R196). -/
def translateSegment (P : Params) (x : Access) (g : SegInHand) (s : State) : Res Word :=
  (referSegment P x g s).bind fun g s =>
    (checkObjectTrap P x g s).bind fun _ s =>
      (modifySegment P x g s).bind fun g s =>
        if P.contiguous g.sd0 then translateContiguous P x g s else translatePaged P x g s

/-- Steps 2 to 6, the MMU enabled and VAR written: the section bound (R173), then the segment (R174 to R196). -/
def translateEnabled (P : Params) (x : Access) (s : State) : Res Word :=
  if P.sectLen (s.sramb.get (P.sid x.va)) < P.ssl x.va then failWith P x .sdtlen s
  else
    (resolveSegment P x s).bind fun g s =>
      (checkSegment P x g s).bind fun _ s => translateSegment P x g (fillSegment P x g s)

/-- `translate(va, acc, lvl, se)` (R170): identity while disabled (R171); VAR first with side effects (R172). Whether it is disabled is
the enable flag's, unless a CONF_EFFECT drives it (C4, log 18). -/
def translate (P : Params) (x : Access) (s : State) : Res Word :=
  if P.enabled s.enable then translateEnabled P x (if x.se then s.setVar x.va else s) else .go x.va s

end Sys2Proof.Machine
end

