-- ==== Sys2Proof/Machine/Access.lean ====
section
/-! DEFINITION. The meanings of TRANSLATE (R170) and of the accesses built on it: READ8, READ16, READ32 (R280), WRITE8, WRITE16,
WRITE32 (R281), EXAMINE (R283) and DEPOSIT (R284). -/

namespace Sys2Proof.Machine

/-- Translate, then read the datum (R280, R283). -/
def readVirtual (P : Params) (x : Access) (w : Width) (s : State) : Res Response :=
  answerValue ((translate P x s).bind fun pa s => physRead P pa w s)

/-- Translate, then write the datum (R281, R284). -/
def writeVirtual (P : Params) (x : Access) (w : Width) (v : Word) (s : State) : Res Response :=
  answerDone ((translate P x s).bind fun pa s => physWrite P pa w v s)

/-- TRANSLATE (R170). -/
def execTranslate (acc : AccessKind) (lvl : Level) (se : Bool) (va : Word) (s : State) (C : Setup := setup) :
    Host.Outcome State Fault Refusal :=
  perform s fun s => answerValue (translate (C.under s.conf) ⟨va, acc, lvl, se⟩ s)

/-- READ8 (R280). -/
def execRead8 (acc : AccessKind) (lvl : Level) (va : Word) (s : State) (C : Setup := setup) :
    Host.Outcome State Fault Refusal :=
  perform s fun s => readVirtual (C.under s.conf) ⟨va, acc, lvl, true⟩ .byte s

/-- READ16 (R280). -/
def execRead16 (acc : AccessKind) (lvl : Level) (va : Word) (s : State) (C : Setup := setup) :
    Host.Outcome State Fault Refusal :=
  perform s fun s => readVirtual (C.under s.conf) ⟨va, acc, lvl, true⟩ .half s

/-- READ32 (R280). -/
def execRead32 (acc : AccessKind) (lvl : Level) (va : Word) (s : State) (C : Setup := setup) :
    Host.Outcome State Fault Refusal :=
  perform s fun s => readVirtual (C.under s.conf) ⟨va, acc, lvl, true⟩ .word s

/-- WRITE8 (R281). -/
def execWrite8 (lvl : Level) (va v : Word) (s : State) (C : Setup := setup) :
    Host.Outcome State Fault Refusal :=
  perform s fun s => writeVirtual (C.under s.conf) ⟨va, .write, lvl, true⟩ .byte v s

/-- WRITE16 (R281). -/
def execWrite16 (lvl : Level) (va v : Word) (s : State) (C : Setup := setup) :
    Host.Outcome State Fault Refusal :=
  perform s fun s => writeVirtual (C.under s.conf) ⟨va, .write, lvl, true⟩ .half v s

/-- WRITE32 (R281). -/
def execWrite32 (lvl : Level) (va v : Word) (s : State) (C : Setup := setup) :
    Host.Outcome State Fault Refusal :=
  perform s fun s => writeVirtual (C.under s.conf) ⟨va, .write, lvl, true⟩ .word v s

/-- EXAMINE (R283): a peek byte read with kind READ and level 0. -/
def execExamine (va : Word) (s : State) (C : Setup := setup) :
    Host.Outcome State Fault Refusal :=
  perform s fun s => readVirtual (C.under s.conf) ⟨va, .read, 0, false⟩ .byte s

/-- DEPOSIT (R284): a peek byte write with kind WRITE and level 0. -/
def execDeposit (va v : Word) (s : State) (C : Setup := setup) :
    Host.Outcome State Fault Refusal :=
  perform s fun s => writeVirtual (C.under s.conf) ⟨va, .write, 0, false⟩ .byte v s

end Sys2Proof.Machine
end

