-- ==== Sys2Proof/Machine/Control.lean ====
section
/-! DEFINITION. The meanings of the control requests: SETENABLE (R262), CLEARALIGN (R263), RESET (R340) and the reserved operations
(R116, R310). -/

namespace Sys2Proof.Machine

/-- The assignments of RESET (R340). RAM and ROM keep their content; what the run carries is no state of the block and stays
(log 19). -/
def resetBlock (s : State) : State :=
  let t := ((((s.setEnable false).setConf 0).setFc 0).setFa 0).setVar 0
  let t := (t.setSrama ⟨0, 0, 0, 0⟩).setSramb ⟨0, 0, 0, 0⟩
  ((flushAll t).setAlignErr false).setHalted false

/-- SETENABLE (R262): `enable <- v[0]`. -/
def execSetEnable (v : Word) (s : State) : Host.Outcome State Fault Refusal :=
  perform s fun s => .go .done (s.setEnable (bit v 0))

/-- CLEARALIGN (R263). -/
def execClearAlign (s : State) : Host.Outcome State Fault Refusal :=
  perform s fun s => .go .done (s.setAlignErr false)

/-- RESET (R340): the one request accepted while halted (R44). -/
def execReset (s : State) : Host.Outcome State Fault Refusal :=
  .next ((resetBlock s).respond .done)

/-- Operation 0xE: `Refused(BAD_OP)` (R116, R310). -/
def execReservedE (_rest : BitVec 12) (_a _v : Word) (s : State) : Host.Outcome State Fault Refusal :=
  perform s fun s => refuse .badOp s

/-- Operation 0xF: `Refused(BAD_OP)` (R116, R310). -/
def execReservedF (_rest : BitVec 12) (_a _v : Word) (s : State) : Host.Outcome State Fault Refusal :=
  perform s fun s => refuse .badOp s

end Sys2Proof.Machine
end

