-- ==== Sys2Proof/Machine/Physical.lean ====
section
/-! DEFINITION. The meanings of the router's port requests: PREAD8, PREAD16, PREAD32 (R229) and PWRITE8, PWRITE16, PWRITE32 (R230).
No translation is made, whatever `enable` is. -/

namespace Sys2Proof.Machine

/-- PREAD8 (R229). -/
def execPread8 (pa : Word) (s : State) (C : Setup := setup) :
    Host.Outcome State Fault Refusal :=
  perform s fun s => answerValue (physRead (C.under s.conf) pa .byte s)

/-- PREAD16 (R229). -/
def execPread16 (pa : Word) (s : State) (C : Setup := setup) :
    Host.Outcome State Fault Refusal :=
  perform s fun s => answerValue (physRead (C.under s.conf) pa .half s)

/-- PREAD32 (R229). -/
def execPread32 (pa : Word) (s : State) (C : Setup := setup) :
    Host.Outcome State Fault Refusal :=
  perform s fun s => answerValue (physRead (C.under s.conf) pa .word s)

/-- PWRITE8 (R230). -/
def execPwrite8 (pa v : Word) (s : State) (C : Setup := setup) :
    Host.Outcome State Fault Refusal :=
  perform s fun s => answerDone (physWrite (C.under s.conf) pa .byte v s)

/-- PWRITE16 (R230). -/
def execPwrite16 (pa v : Word) (s : State) (C : Setup := setup) :
    Host.Outcome State Fault Refusal :=
  perform s fun s => answerDone (physWrite (C.under s.conf) pa .half v s)

/-- PWRITE32 (R230). -/
def execPwrite32 (pa v : Word) (s : State) (C : Setup := setup) :
    Host.Outcome State Fault Refusal :=
  perform s fun s => answerDone (physWrite (C.under s.conf) pa .word v s)

end Sys2Proof.Machine
end

