-- ==== Sys2Proof/Machine/Registers.lean ====
section
/-! DEFINITION. The meanings of the register rows: MMUR_g is PREAD32 and MMUW_g is PWRITE32 of a word of the MMU window (R117), which
the router hands to the register interface (R228, R250). Bit 7 of the address selects nothing (R111). -/

namespace Sys2Proof.Machine

/-- A register read: `Ok(value)`. -/
def answerRead (r : Word × State) : Res Response := .go (.value r.1) r.2

/-- A register write: `Ok()`. -/
def answerWrite (s : State) : Res Response := .go .done s

/-- MMUR_SDCL, group 0 (R252). -/
def execMmurSdcl (_b7 : BitVec 1) (_index : BitVec 5) (s : State) : Host.Outcome State Fault Refusal :=
  perform s fun s => answerRead (readRawWindow s)

/-- MMUW_SDCL, group 0 (R253). -/
def execMmuwSdcl (_b7 : BitVec 1) (_index : BitVec 5) (_v : Word) (s : State) (C : Setup := setup) :
    Host.Outcome State Fault Refusal :=
  perform s fun s => answerWrite (havocSegment (C.under s.conf) s)

/-- MMUR_SDCH, group 1 (R252). -/
def execMmurSdch (_b7 : BitVec 1) (_index : BitVec 5) (s : State) : Host.Outcome State Fault Refusal :=
  perform s fun s => answerRead (readRawWindow s)

/-- MMUW_SDCH, group 1 (R253). -/
def execMmuwSdch (_b7 : BitVec 1) (_index : BitVec 5) (_v : Word) (s : State) (C : Setup := setup) :
    Host.Outcome State Fault Refusal :=
  perform s fun s => answerWrite (havocSegment (C.under s.conf) s)

/-- MMUR_PDCRL, group 2 (R252). -/
def execMmurPdcrl (_b7 : BitVec 1) (_index : BitVec 5) (s : State) : Host.Outcome State Fault Refusal :=
  perform s fun s => answerRead (readRawWindow s)

/-- MMUW_PDCRL, group 2 (R253). -/
def execMmuwPdcrl (_b7 : BitVec 1) (_index : BitVec 5) (_v : Word) (s : State) (C : Setup := setup) :
    Host.Outcome State Fault Refusal :=
  perform s fun s => answerWrite (havocPage (C.under s.conf) s)

/-- MMUR_PDCRH, group 3 (R252). -/
def execMmurPdcrh (_b7 : BitVec 1) (_index : BitVec 5) (s : State) : Host.Outcome State Fault Refusal :=
  perform s fun s => answerRead (readRawWindow s)

/-- MMUW_PDCRH, group 3 (R253). -/
def execMmuwPdcrh (_b7 : BitVec 1) (_index : BitVec 5) (_v : Word) (s : State) (C : Setup := setup) :
    Host.Outcome State Fault Refusal :=
  perform s fun s => answerWrite (havocPage (C.under s.conf) s)

/-- MMUR_PDCLL, group 4 (R252). -/
def execMmurPdcll (_b7 : BitVec 1) (_index : BitVec 5) (s : State) : Host.Outcome State Fault Refusal :=
  perform s fun s => answerRead (readRawWindow s)

/-- MMUW_PDCLL, group 4 (R253). -/
def execMmuwPdcll (_b7 : BitVec 1) (_index : BitVec 5) (_v : Word) (s : State) (C : Setup := setup) :
    Host.Outcome State Fault Refusal :=
  perform s fun s => answerWrite (havocPage (C.under s.conf) s)

/-- MMUR_PDCLH, group 5 (R252). -/
def execMmurPdclh (_b7 : BitVec 1) (_index : BitVec 5) (s : State) : Host.Outcome State Fault Refusal :=
  perform s fun s => answerRead (readRawWindow s)

/-- MMUW_PDCLH, group 5 (R253). -/
def execMmuwPdclh (_b7 : BitVec 1) (_index : BitVec 5) (_v : Word) (s : State) (C : Setup := setup) :
    Host.Outcome State Fault Refusal :=
  perform s fun s => answerWrite (havocPage (C.under s.conf) s)

/-- MMUR_SRAMA, group 6 (R254). -/
def execMmurSrama (_b7 : BitVec 1) (index : BitVec 5) (s : State) : Host.Outcome State Fault Refusal :=
  perform s fun s => answerRead (readSrama index s)

/-- MMUW_SRAMA, group 6 (R256). -/
def execMmuwSrama (_b7 : BitVec 1) (index : BitVec 5) (v : Word) (s : State) : Host.Outcome State Fault Refusal :=
  perform s fun s => answerWrite (writeSrama index v s)

/-- MMUR_SRAMB, group 7 (R255). -/
def execMmurSramb (_b7 : BitVec 1) (index : BitVec 5) (s : State) : Host.Outcome State Fault Refusal :=
  perform s fun s => answerRead (readSramb index s)

/-- MMUW_SRAMB, group 7 (R257). -/
def execMmuwSramb (_b7 : BitVec 1) (index : BitVec 5) (v : Word) (s : State) (C : Setup := setup) :
    Host.Outcome State Fault Refusal :=
  perform s fun s => answerWrite (writeSramb (C.under s.conf) index v s)

/-- MMUR_FC, group 8 (R259). -/
def execMmurFc (_b7 : BitVec 1) (_index : BitVec 5) (s : State) : Host.Outcome State Fault Refusal :=
  perform s fun s => answerRead (readFc s)

/-- MMUW_FC, group 8 (R260). -/
def execMmuwFc (_b7 : BitVec 1) (_index : BitVec 5) (v : Word) (s : State) : Host.Outcome State Fault Refusal :=
  perform s fun s => answerWrite (writeFc v s)

/-- MMUR_FA, group 9 (R259). -/
def execMmurFa (_b7 : BitVec 1) (_index : BitVec 5) (s : State) : Host.Outcome State Fault Refusal :=
  perform s fun s => answerRead (readFa s)

/-- MMUW_FA, group 9 (R260). -/
def execMmuwFa (_b7 : BitVec 1) (_index : BitVec 5) (v : Word) (s : State) : Host.Outcome State Fault Refusal :=
  perform s fun s => answerWrite (writeFa v s)

/-- MMUR_CONF, group 10 (R261). -/
def execMmurConf (_b7 : BitVec 1) (_index : BitVec 5) (s : State) : Host.Outcome State Fault Refusal :=
  perform s fun s => answerRead (readConf s)

/-- MMUW_CONF, group 10 (R261). -/
def execMmuwConf (_b7 : BitVec 1) (_index : BitVec 5) (v : Word) (s : State) : Host.Outcome State Fault Refusal :=
  perform s fun s => answerWrite (writeConf v s)

/-- MMUR_VAR, group 11 (R259). -/
def execMmurVar (_b7 : BitVec 1) (_index : BitVec 5) (s : State) : Host.Outcome State Fault Refusal :=
  perform s fun s => answerRead (readVar s)

/-- MMUW_VAR, group 11 (R258). -/
def execMmuwVar (_b7 : BitVec 1) (_index : BitVec 5) (v : Word) (s : State) (C : Setup := setup) :
    Host.Outcome State Fault Refusal :=
  perform s fun s => answerWrite (writeVar (C.under s.conf) v s)

/-- MMUR_UNDEF12, group 12 (R115). -/
def execMmurUndef12 (_b7 : BitVec 1) (_index : BitVec 5) (s : State) : Host.Outcome State Fault Refusal :=
  perform s fun s => answerRead (readUndefined s)

/-- MMUW_UNDEF12, group 12 (R115). -/
def execMmuwUndef12 (_b7 : BitVec 1) (_index : BitVec 5) (_v : Word) (s : State) : Host.Outcome State Fault Refusal :=
  perform s fun s => answerWrite (writeUndefined s)

/-- MMUR_UNDEF13, group 13 (R115). -/
def execMmurUndef13 (_b7 : BitVec 1) (_index : BitVec 5) (s : State) : Host.Outcome State Fault Refusal :=
  perform s fun s => answerRead (readUndefined s)

/-- MMUW_UNDEF13, group 13 (R115). -/
def execMmuwUndef13 (_b7 : BitVec 1) (_index : BitVec 5) (_v : Word) (s : State) : Host.Outcome State Fault Refusal :=
  perform s fun s => answerWrite (writeUndefined s)

/-- MMUR_UNDEF14, group 14 (R115). -/
def execMmurUndef14 (_b7 : BitVec 1) (_index : BitVec 5) (s : State) : Host.Outcome State Fault Refusal :=
  perform s fun s => answerRead (readUndefined s)

/-- MMUW_UNDEF14, group 14 (R115). -/
def execMmuwUndef14 (_b7 : BitVec 1) (_index : BitVec 5) (_v : Word) (s : State) : Host.Outcome State Fault Refusal :=
  perform s fun s => answerWrite (writeUndefined s)

/-- MMUR_UNDEF15, group 15 (R115). -/
def execMmurUndef15 (_b7 : BitVec 1) (_index : BitVec 5) (s : State) : Host.Outcome State Fault Refusal :=
  perform s fun s => answerRead (readUndefined s)

/-- MMUW_UNDEF15, group 15 (R115). -/
def execMmuwUndef15 (_b7 : BitVec 1) (_index : BitVec 5) (_v : Word) (s : State) : Host.Outcome State Fault Refusal :=
  perform s fun s => answerWrite (writeUndefined s)

end Sys2Proof.Machine
end

