-- ==== Sys2Proof/Machine/Dispatch.lean ====
section
/-! DEFINITION. One arm per row of spec/opcode_table.json. -/

namespace Sys2Proof.Machine

/-- The meaning of each request. -/
def exec (i : Instr) (s : State) : Host.Outcome State Fault Refusal :=
  match i with
  | .translate acc lvl se va => Sys2Proof.Machine.execTranslate acc lvl se va s
  | .read8 acc lvl va => Sys2Proof.Machine.execRead8 acc lvl va s
  | .read16 acc lvl va => Sys2Proof.Machine.execRead16 acc lvl va s
  | .read32 acc lvl va => Sys2Proof.Machine.execRead32 acc lvl va s
  | .write8 lvl va v => Sys2Proof.Machine.execWrite8 lvl va v s
  | .write16 lvl va v => Sys2Proof.Machine.execWrite16 lvl va v s
  | .write32 lvl va v => Sys2Proof.Machine.execWrite32 lvl va v s
  | .examine va => Sys2Proof.Machine.execExamine va s
  | .deposit va v => Sys2Proof.Machine.execDeposit va v s
  | .pread8 pa => Sys2Proof.Machine.execPread8 pa s
  | .pread16 pa => Sys2Proof.Machine.execPread16 pa s
  | .pread32 pa => Sys2Proof.Machine.execPread32 pa s
  | .pwrite8 pa v => Sys2Proof.Machine.execPwrite8 pa v s
  | .pwrite16 pa v => Sys2Proof.Machine.execPwrite16 pa v s
  | .pwrite32 pa v => Sys2Proof.Machine.execPwrite32 pa v s
  | .setEnable v => Sys2Proof.Machine.execSetEnable v s
  | .clearAlign => Sys2Proof.Machine.execClearAlign s
  | .reset => Sys2Proof.Machine.execReset s
  | .reservedE rest a v => Sys2Proof.Machine.execReservedE rest a v s
  | .reservedF rest a v => Sys2Proof.Machine.execReservedF rest a v s
  | .mmurSdcl b7 index => Sys2Proof.Machine.execMmurSdcl b7 index s
  | .mmuwSdcl b7 index v => Sys2Proof.Machine.execMmuwSdcl b7 index v s
  | .mmurSdch b7 index => Sys2Proof.Machine.execMmurSdch b7 index s
  | .mmuwSdch b7 index v => Sys2Proof.Machine.execMmuwSdch b7 index v s
  | .mmurPdcrl b7 index => Sys2Proof.Machine.execMmurPdcrl b7 index s
  | .mmuwPdcrl b7 index v => Sys2Proof.Machine.execMmuwPdcrl b7 index v s
  | .mmurPdcrh b7 index => Sys2Proof.Machine.execMmurPdcrh b7 index s
  | .mmuwPdcrh b7 index v => Sys2Proof.Machine.execMmuwPdcrh b7 index v s
  | .mmurPdcll b7 index => Sys2Proof.Machine.execMmurPdcll b7 index s
  | .mmuwPdcll b7 index v => Sys2Proof.Machine.execMmuwPdcll b7 index v s
  | .mmurPdclh b7 index => Sys2Proof.Machine.execMmurPdclh b7 index s
  | .mmuwPdclh b7 index v => Sys2Proof.Machine.execMmuwPdclh b7 index v s
  | .mmurSrama b7 index => Sys2Proof.Machine.execMmurSrama b7 index s
  | .mmuwSrama b7 index v => Sys2Proof.Machine.execMmuwSrama b7 index v s
  | .mmurSramb b7 index => Sys2Proof.Machine.execMmurSramb b7 index s
  | .mmuwSramb b7 index v => Sys2Proof.Machine.execMmuwSramb b7 index v s
  | .mmurFc b7 index => Sys2Proof.Machine.execMmurFc b7 index s
  | .mmuwFc b7 index v => Sys2Proof.Machine.execMmuwFc b7 index v s
  | .mmurFa b7 index => Sys2Proof.Machine.execMmurFa b7 index s
  | .mmuwFa b7 index v => Sys2Proof.Machine.execMmuwFa b7 index v s
  | .mmurConf b7 index => Sys2Proof.Machine.execMmurConf b7 index s
  | .mmuwConf b7 index v => Sys2Proof.Machine.execMmuwConf b7 index v s
  | .mmurVar b7 index => Sys2Proof.Machine.execMmurVar b7 index s
  | .mmuwVar b7 index v => Sys2Proof.Machine.execMmuwVar b7 index v s
  | .mmurUndef12 b7 index => Sys2Proof.Machine.execMmurUndef12 b7 index s
  | .mmuwUndef12 b7 index v => Sys2Proof.Machine.execMmuwUndef12 b7 index v s
  | .mmurUndef13 b7 index => Sys2Proof.Machine.execMmurUndef13 b7 index s
  | .mmuwUndef13 b7 index v => Sys2Proof.Machine.execMmuwUndef13 b7 index v s
  | .mmurUndef14 b7 index => Sys2Proof.Machine.execMmurUndef14 b7 index s
  | .mmuwUndef14 b7 index v => Sys2Proof.Machine.execMmuwUndef14 b7 index v s
  | .mmurUndef15 b7 index => Sys2Proof.Machine.execMmurUndef15 b7 index s
  | .mmuwUndef15 b7 index v => Sys2Proof.Machine.execMmuwUndef15 b7 index v s

end Sys2Proof.Machine
end

