-- ==== Sys2Proof/Machine/Step.lean ====
section
/-! DEFINITION. One step: the block takes the next request the host has issued and performs it (R14, R360). -/

namespace Sys2Proof.Machine

/-- Perform the next pending request, under the default instantiation (`stepWith` takes any). A malformed one is refused (R116, R310).
With none pending there is no step (log 1). -/
def step (s : State) : Host.Outcome State Fault Refusal :=
  match nextRequest s with
  | none => .fault .noRequest
  | some (r, s) =>
    match decode params r with
    | .ok i => exec i s
    | .rejected _ => .next (refuseMalformed s)

/-- `s` with the request of a table word as its next one: the host issues it (R360; log 1). -/
def State.withFetchWord (s : State) (nbits w : Nat) : State := pushRequest s (tableRequest nbits w)

end Sys2Proof.Machine
end

