-- ==== Sys2Proof/Machine/Assembler.lean ====
section
/-! DEFINITION. The request notation of R117: a line as a term, the requests it expands to, and issuing lines. A line is what the host
writes; the block sees the records alone. -/

namespace Sys2Proof.Machine

/-! ### Requests by width -/

/-- READ8, READ16, READ32 by width. -/
def requestRead : Width → AccessKind → Level → Word → Instr
  | .byte => .read8
  | .half => .read16
  | .word => .read32

/-- WRITE8, WRITE16, WRITE32 by width. -/
def requestWrite : Width → Level → Word → Word → Instr
  | .byte => .write8
  | .half => .write16
  | .word => .write32

/-- PREAD8, PREAD16, PREAD32 by width. -/
def requestPread : Width → Word → Instr
  | .byte => .pread8
  | .half => .pread16
  | .word => .pread32

/-- PWRITE8, PWRITE16, PWRITE32 by width. -/
def requestPwrite : Width → Word → Word → Instr
  | .byte => .pwrite8
  | .half => .pwrite16
  | .word => .pwrite32

/-! ### Lines -/

/-- One line of R117's notation. A left-out level is 0, a left-out `se` is 1, and a left-out width of READ and WRITE is 4 bytes. -/
inductive Line where
  /-- `TRANSLATE va, acc, lvl=L, se=B`. -/
  | translate (va : Word) (acc : AccessKind) (lvl : Level := 0) (se : Bool := true)
  /-- `READ8`, `READ16`, `READ32 va, acc, lvl=L`, and `READ` without a width. -/
  | read (width : Option Width) (va : Word) (acc : AccessKind) (lvl : Level := 0)
  /-- `WRITE8`, `WRITE16`, `WRITE32 va, value, lvl=L`, and `WRITE` without a width. -/
  | write (width : Option Width) (va value : Word) (lvl : Level := 0)
  /-- `EXAMINE va`. -/
  | examine (va : Word)
  /-- `DEPOSIT va, byte`. -/
  | deposit (va : Word) (byte : Byte)
  /-- `PREAD8`, `PREAD16`, `PREAD32 pa`. -/
  | pread (width : Width) (pa : Word)
  /-- `PWRITE8`, `PWRITE16`, `PWRITE32 pa, value`. -/
  | pwrite (width : Width) (pa value : Word)
  /-- `SETENABLE b`. -/
  | setEnable (b : Bool)
  /-- `CLEARALIGN`. -/
  | clearAlign
  /-- `RESET`. -/
  | reset
  /-- `MMUW grp[i], v`. -/
  | mmuw (g : RegGroup) (i : BitVec 5) (v : Word)
  /-- `MMUR grp[i]`. -/
  | mmur (g : RegGroup) (i : BitVec 5)
  /-- `FLUSHVA va`. -/
  | flushVa (va : Word)
  /-- `SETSECT s, base, len`. -/
  | setSect (s : Fin 4) (base len : Word)
  deriving DecidableEq, Repr

/-- `MMUW grp[i], v`: PWRITE32 of the register's address (R117). -/
def expandMmuw (P : Params) (g : RegGroup) (i : BitVec 5) (v : Word) : Instr := .pwrite32 (registerAddress P g 0 i) v

/-- `MMUR grp[i]`: PREAD32 of the register's address (R117). -/
def expandMmur (P : Params) (g : RegGroup) (i : BitVec 5) : Instr := .pread32 (registerAddress P g 0 i)

/-- `SETSECT s, base, len`: MMUW of SRAMB[s], then MMUW of SRAMA[s], with the words that encode them (R117, R106). -/
def expandSetSect (P : Params) (s : Fin 4) (base len : Word) : List Instr :=
  [expandMmuw P .sramb (BitVec.ofNat 5 s.val) (P.srambOf len), expandMmuw P .srama (BitVec.ofNat 5 s.val) (P.sramaOf base)]

/-- The requests a line stands for, in the order they are issued (R117). -/
def Line.expand (P : Params) : Line → List Instr
  | .translate va acc lvl se => [.translate acc lvl se va]
  | .read width va acc lvl => [requestRead (width.getD .word) acc lvl va]
  | .write width va value lvl => [requestWrite (width.getD .word) lvl va value]
  | .examine va => [.examine va]
  | .deposit va byte => [.deposit va (byte.setWidth 32)]
  | .pread width pa => [requestPread width pa]
  | .pwrite width pa value => [requestPwrite width pa value]
  | .setEnable b => [.setEnable ((BitVec.ofBool b).setWidth 32)]
  | .clearAlign => [.clearAlign]
  | .reset => [.reset]
  | .mmuw g i v => [expandMmuw P g i v]
  | .mmur g i => [expandMmur P g i]
  | .flushVa va => [expandMmuw P .var 0 va]
  | .setSect s base len => expandSetSect P s base len

/-- The records of a line (R116, R117). -/
def Line.requests (P : Params) (l : Line) : List Request := (l.expand P).map (encode P)

/-- SETSECT can say only the bases and lengths that a section register holds (R106); every other line stands as written. -/
def Line.wellFormed (P : Params) : Line → Bool
  | .setSect _ base len => P.sectBase (P.sramaOf base) == base && P.sectLen (P.srambOf len) == len
  | .translate .. | .read .. | .write .. | .examine _ | .deposit .. | .pread .. | .pwrite .. | .setEnable _ | .clearAlign | .reset
  | .mmuw .. | .mmur .. | .flushVa _ => true

/-- The host issues the lines after the requests that are still to be performed, one request after another (R117, R360). -/
def issue (P : Params) (lines : List Line) (s : State) : State :=
  s.setRequests (s.requests ++ lines.flatMap (Line.requests P))

end Sys2Proof.Machine
end

