-- ==== Sys2Proof/Machine/Parametric.lean ====
section
/-! DEFINITION. The machine over R10's open parameters as an argument: `execWith` and `stepWith`. `exec` and `step`, whose types are the
host's, are these at the default instantiation (Laws/Exec.lean `exec_eq_execWith`, `step_eq_stepWith`). -/

namespace Sys2Proof.Machine

/-- The meaning of each request under the parameters `C`. A request without `C` reads none. -/
def execWith (C : Setup) (i : Instr) (s : State) : Host.Outcome State Fault Refusal :=
  match i with
  | .translate acc lvl se va => execTranslate acc lvl se va s C
  | .read8 acc lvl va => execRead8 acc lvl va s C
  | .read16 acc lvl va => execRead16 acc lvl va s C
  | .read32 acc lvl va => execRead32 acc lvl va s C
  | .write8 lvl va v => execWrite8 lvl va v s C
  | .write16 lvl va v => execWrite16 lvl va v s C
  | .write32 lvl va v => execWrite32 lvl va v s C
  | .examine va => execExamine va s C
  | .deposit va v => execDeposit va v s C
  | .pread8 pa => execPread8 pa s C
  | .pread16 pa => execPread16 pa s C
  | .pread32 pa => execPread32 pa s C
  | .pwrite8 pa v => execPwrite8 pa v s C
  | .pwrite16 pa v => execPwrite16 pa v s C
  | .pwrite32 pa v => execPwrite32 pa v s C
  | .setEnable v => execSetEnable v s
  | .clearAlign => execClearAlign s
  | .reset => execReset s
  | .reservedE rest a v => execReservedE rest a v s
  | .reservedF rest a v => execReservedF rest a v s
  | .mmurSdcl b7 index => execMmurSdcl b7 index s
  | .mmuwSdcl b7 index v => execMmuwSdcl b7 index v s C
  | .mmurSdch b7 index => execMmurSdch b7 index s
  | .mmuwSdch b7 index v => execMmuwSdch b7 index v s C
  | .mmurPdcrl b7 index => execMmurPdcrl b7 index s
  | .mmuwPdcrl b7 index v => execMmuwPdcrl b7 index v s C
  | .mmurPdcrh b7 index => execMmurPdcrh b7 index s
  | .mmuwPdcrh b7 index v => execMmuwPdcrh b7 index v s C
  | .mmurPdcll b7 index => execMmurPdcll b7 index s
  | .mmuwPdcll b7 index v => execMmuwPdcll b7 index v s C
  | .mmurPdclh b7 index => execMmurPdclh b7 index s
  | .mmuwPdclh b7 index v => execMmuwPdclh b7 index v s C
  | .mmurSrama b7 index => execMmurSrama b7 index s
  | .mmuwSrama b7 index v => execMmuwSrama b7 index v s
  | .mmurSramb b7 index => execMmurSramb b7 index s
  | .mmuwSramb b7 index v => execMmuwSramb b7 index v s C
  | .mmurFc b7 index => execMmurFc b7 index s
  | .mmuwFc b7 index v => execMmuwFc b7 index v s
  | .mmurFa b7 index => execMmurFa b7 index s
  | .mmuwFa b7 index v => execMmuwFa b7 index v s
  | .mmurConf b7 index => execMmurConf b7 index s
  | .mmuwConf b7 index v => execMmuwConf b7 index v s
  | .mmurVar b7 index => execMmurVar b7 index s
  | .mmuwVar b7 index v => execMmuwVar b7 index v s C
  | .mmurUndef12 b7 index => execMmurUndef12 b7 index s
  | .mmuwUndef12 b7 index v => execMmuwUndef12 b7 index v s
  | .mmurUndef13 b7 index => execMmurUndef13 b7 index s
  | .mmuwUndef13 b7 index v => execMmuwUndef13 b7 index v s
  | .mmurUndef14 b7 index => execMmurUndef14 b7 index s
  | .mmuwUndef14 b7 index v => execMmuwUndef14 b7 index v s
  | .mmurUndef15 b7 index => execMmurUndef15 b7 index s
  | .mmuwUndef15 b7 index v => execMmuwUndef15 b7 index v s

/-- The step of Machine/Step.lean under the parameters `C`: the decoder takes those in force. -/
def stepWith (C : Setup) (s : State) : Host.Outcome State Fault Refusal :=
  match nextRequest s with
  | none => .fault .noRequest
  | some (r, s) =>
    match decode (C.under s.conf) r with
    | .ok i => execWith C i s
    | .rejected _ => .next (refuseMalformed s)

end Sys2Proof.Machine
end

