-- ==== Sys2Proof/Safety.lean ====
section
/-! DEFINITION. What claims are stated in: which fields make up the block, the invariant, launch states, the end of a run, the laws of
the open parameters, which records are malformed, and the verdict on a translation as one expression. -/

namespace Sys2Proof.Machine

/-! ### The block and its run -/

/-- The two states agree on the block: R30's tuple and the ROM. -/
def SameBlock (s t : State) : Prop :=
  t.enable = s.enable ∧ t.conf = s.conf ∧ t.fc = s.fc ∧ t.fa = s.fa ∧ t.var = s.var ∧ t.srama = s.srama ∧ t.sramb = s.sramb ∧
    t.sdc = s.sdc ∧ t.pdc = s.pdc ∧ t.rom = s.rom ∧ t.ram = s.ram ∧ t.alignErr = s.alignErr ∧ t.halted = s.halted

/-- `t` ends a request begun in `s` with the outcome `r` (R14, R361). -/
def Answers (s t : State) (r : Response) : Prop := t.outcomes = r :: s.outcomes

/-- Every RAM byte but those of the four addresses from `pa` reads as before. -/
def RamSameOutside (s t : State) (pa : Word) : Prop :=
  ∀ a, a < pa.toNat ∨ pa.toNat + 4 ≤ a → Memory.read t.ram a = Memory.read s.ram a

/-! ### Invariant, launch, end of a run -/

/-- Every listed address lies in `[lo, hi)`. -/
def Memory.within (lo hi : Nat) (m : Memory) : Bool := m.all fun c => decide (lo ≤ c.1) && decide (c.1 < hi)

/-- The invariant: memories in canonical form and within their regions (R41, R42), CONF's bits 31:3 zero (R32), both caches with one
entry per key and at most 32 entries (R141). The regions are those of PHYS_MAP (R10), an argument. -/
abbrev State.Inv (s : State) (P : Params := params) : Prop :=
  Memory.wf s.ram = true ∧ Memory.within P.ramBase (P.ramBase + P.ramSize) s.ram = true ∧
  Memory.wf s.rom = true ∧ Memory.within 0 P.romSize s.rom = true ∧
  s.conf.toNat < 8 ∧
  s.sdc.length ≤ Config.sdcCap ∧ (s.sdc.map SegEntry.key).Nodup ∧
  s.pdc.length ≤ Config.pdcCap ∧ (s.pdc.map PageEntry.key).Nodup

/-- A launch state (R341): the reset state with any RAM, any ROM image, any requests and any free inputs, under the PHYS_MAP
of `P`. -/
def State.Launch (s : State) (P : Params := params) : Prop :=
  s.Inv P ∧ s = { State.reset with rom := s.rom, ram := s.ram, requests := s.requests, draws := s.draws, drawCount := s.drawCount }

/-- The outcome is a Stop (R309). -/
def Response.isStop : Response → Bool
  | .stop _ => true
  | .value _ | .done | .fault _ | .fail _ | .abort _ | .refused _ => false

/-- No request of the run has ended in a Stop, whether or not a RESET came after it: the premise of R309. -/
abbrev State.NoStopReached (s : State) : Prop := ∀ r ∈ s.outcomes, r.isStop = false

/-- The run has ended normally (R361): every request has returned, none was refused, none reached a Stop, and the block is not
halted. -/
abbrev State.EndsNormally (s : State) : Prop :=
  s.requests = [] ∧ s.refusedMark = false ∧ s.NoStopReached ∧ s.halted = false

/-! ### Laws of the open parameters -/

/-- The laws of VA_LAYOUT (R100). -/
def VaLayoutLaws (P : Params) : Prop :=
  (∀ va, P.sot va = P.psl va * BitVec.ofNat 32 (2 ^ P.pageShift) + P.pot va ∧ (P.pot va).toNat < 2 ^ P.pageShift) ∧
  ∀ va vb, P.sid va = P.sid vb → P.ssl va = P.ssl vb → P.sot va = P.sot vb → va = vb

/-- The laws of PHYS_MAP (D23, R222): boundaries multiples of 4, regions disjoint, the MMU window inside the I/O region. -/
def PhysMapLaws (P : Params) : Prop :=
  P.romSize % 4 = 0 ∧ P.ramBase % 4 = 0 ∧ (P.ramBase + P.ramSize) % 4 = 0 ∧ P.ioBase % 4 = 0 ∧ P.ioLimit % 4 = 0 ∧
  (P.romSize ≤ P.ramBase ∧ P.romSize ≤ P.ioBase) ∧ (P.ramBase + P.ramSize ≤ P.ioBase ∨ P.ioLimit ≤ P.ramBase) ∧
  (P.ioBase ≤ P.mmuBase.toNat ∧ P.mmuBase.toNat + 0x1000 ≤ P.ioLimit)

/-- The laws of the register decode (R111, R117): the offset of a register lies in the window at a word, the decode finds the register
there, every word of the window is the register it decodes to, and the window lies at a word in the address space. -/
def RegisterLayoutLaws (P : Params) : Prop :=
  (∀ g b7 index, (P.regOffset g b7 index).toNat < 0x1000 ∧ (P.regOffset g b7 index).toNat % 4 = 0 ∧
    P.regGroup (P.regOffset g b7 index) = g ∧ P.regFree (P.regOffset g b7 index) = b7 ∧
    P.regIndex (P.regOffset g b7 index) = index) ∧
  (∀ off : Word, off.toNat < 0x1000 → off.toNat % 4 = 0 → P.regOffset (P.regGroup off) (P.regFree off) (P.regIndex off) = off) ∧
  P.mmuBase.toNat % 4 = 0 ∧ P.mmuBase.toNat + 0x1000 ≤ 2 ^ 32

/-! ### Malformed records -/

/-- The operations 0x0 to 0xD that use `cmd[5:4]`, as access kind or width code (R116). -/
def usesAcc (op : Nat) : Bool := op ≤ 3 || op = 9 || op = 10

/-- The operations that use `cmd[7:6]` (R116). -/
def usesLvl (op : Nat) : Bool := op ≤ 6

/-- The operation that uses `cmd[8]` (R116). -/
def usesSe (op : Nat) : Bool := op = 0

/-- The operations that use `a` (R116). -/
def usesA (op : Nat) : Bool := op ≤ 10

/-- The operations that use `v` (R116). -/
def usesV (op : Nat) : Bool := (4 ≤ op && op ≤ 6) || op = 8 || op = 10 || op = 11

/-- A record of an operation 0x0 to 0xD that R116 refuses: `cmd[15:9] != 0`, a nonzero field its row does not use, or width code 3. -/
def Malformed (r : Request) : Prop :=
  r.op.toNat ≤ 13 ∧
    (r.high ≠ 0 ∨ (usesAcc r.op.toNat = false ∧ r.accBits ≠ 0) ∨ (usesLvl r.op.toNat = false ∧ r.lvl ≠ 0) ∨
      (usesSe r.op.toNat = false ∧ r.se = true) ∨ (usesA r.op.toNat = false ∧ r.a ≠ 0) ∨ (usesV r.op.toNat = false ∧ r.v ≠ 0) ∨
      ((r.op.toNat = 9 ∨ r.op.toNat = 10) ∧ r.accBits = 3))

/-! ### The verdict on a translation

What R170 decides, read off the state before the request when the descriptors lie in plain memory or in the caches: no state is
threaded, so that it can be held beside R301 and R302. -/

/-- The word at an aligned address of ROM, RAM or unmapped space (R223, R224, R227); none for the I/O region. -/
def plainWord (P : Params) (s : State) (pa : Word) : Option Word :=
  match regionOf P pa with
  | .rom => some (Memory.readWide s.rom pa.toNat .word P.romImage)
  | .ram => some (Memory.readWide s.ram pa.toNat .word)
  | .unmapped => some 0
  | .io => none

/-- The segment descriptor a translation of `va` takes in hand (R174), if it comes from the SDC or from plain memory. -/
def segmentOf (P : Params) (s : State) (va : Word) : Option SegInHand :=
  match lookupSegment (sdcKey P va) s.sdc with
  | some e => some ⟨sdAddr P s va, e.sd0, e.sd1, true⟩
  | none =>
    match plainWord P s (sdAddr P s va), plainWord P s (sdAddr P s va + 4) with
    | some sd0, some sd1 => some ⟨sdAddr P s va, sd0, sd1, false⟩
    | _, _ => none

/-- The page descriptor it takes in hand (R186, R188), if it comes from the PDC or from plain memory. -/
def pageOf (P : Params) (s : State) (va : Word) (g : SegInHand) : Option PageInHand :=
  match lookupPage (pdcKey P va) s.pdc with
  | some e => some ⟨pdAddr P va g.sd1, e.pd, e.rights, true⟩
  | none => (plainWord P s (pdAddr P va g.sd1)).map fun pd => ⟨pdAddr P va g.sd1, pd, P.rights g.sd0, false⟩

/-- `Fault(code)` with side effects, `Fail(code)` without (R197). -/
def failure (x : Access) (code : TransFault) : Response := if x.se then .fault code else .fail code

/-- The verdict past the segment checks, contiguous: R183, R184, R185. -/
def verdictContiguous (P : Params) (x : Access) (g : SegInHand) : Response :=
  if x.se ∧ P.permits (P.rights g.sd0) x.acc x.lvl = false then failure x .acc
  else if (P.maxOff g.sd0).toNat < (P.sot x.va).toNat then failure x .segOffset
  else .value (P.segBase g.sd1 + P.sot x.va)

/-- The verdict past the segment checks, paged, with the page descriptor in hand: R191 to R194, R196. -/
def verdictPage (P : Params) (x : Access) (g : SegInHand) (q : PageInHand) : Response :=
  if x.se ∧ P.permits q.rights x.acc x.lvl = false then failure x .acc
  else if q.hit ∧ P.lastInSegment q.pd ∧ (P.maxOff g.sd0).toNat < (P.sot x.va).toNat then failure x .segOffset
  else if P.pagePresent q.pd = false then failure x .pageNotPres
  else if x.se ∧ (x.acc = .write ∨ x.acc = .iread) ∧ P.writeFault q.pd then failure x .pw
  else .value (P.pageBase q.pd + P.pot x.va)

/-- The verdict past the segment checks, paged: the bound on a PDC miss (R187), then the page; none when the page descriptor lies in
the I/O region. -/
def verdictPaged (P : Params) (s : State) (x : Access) (g : SegInHand) : Option Response :=
  if lookupPage (pdcKey P x.va) s.pdc = none ∧ (lastPage P g.sd0).toNat < (P.psl x.va).toNat then some (failure x .pdtlen)
  else (pageOf P s x.va g).map (verdictPage P x g)

/-- The verdict with the segment descriptor in hand, in the order of R302. -/
def verdictSegment (P : Params) (s : State) (x : Access) (g : SegInHand) : Option Response :=
  if P.valid g.sd0 = false then some (failure x .invSd)
  else if P.indirect g.sd0 then some (.stop .indirectSd)
  else if P.present g.sd0 = false then some (failure x (if P.contiguous g.sd0 then .segNotPres else .pdtNotPres))
  else if x.se ∧ P.objectTrap g.sd0 then some (failure x .otrap)
  else if P.contiguous g.sd0 then some (verdictContiguous P x g)
  else verdictPaged P s x g

/-- The verdict on a translation (R170, R302); none when a descriptor it needs lies in the I/O region. -/
def verdict (P : Params) (s : State) (x : Access) : Option Response :=
  if P.enabled s.enable = false then some (.value x.va)
  else if (P.sectLen (s.sramb.get (P.sid x.va))).toNat < (P.ssl x.va).toNat then some (failure x .sdtlen)
  else (segmentOf P s x.va).bind (verdictSegment P s x)

/-- The descriptors a translation of `va` may write back lie clear of each other and of the MMU window: the layouts that R201 and R357
ask for. -/
def tablesApart (P : Params) (s : State) (va : Word) : Bool :=
  !inMmuWindow P (sdAddr P s va) &&
    match segmentOf P s va with
    | some g =>
      P.contiguous g.sd0 ||
        (!inMmuWindow P (pdAddr P va g.sd1) && pdAddr P va g.sd1 != sdAddr P s va && pdAddr P va g.sd1 != sdAddr P s va + 4)
    | none => true

/-- The segment checks that come before the cache fill pass (R176, R177, R178). -/
def segmentUsable (P : Params) (g : SegInHand) : Bool := P.valid g.sd0 && !P.indirect g.sd0 && P.present g.sd0

/-- The SD0 in hand after the referenced and modified bits (R180 to R182). -/
def segmentWord (P : Params) (x : Access) (g : SegInHand) : Word :=
  let w := if x.se && !P.referenced g.sd0 then P.setR g.sd0 else g.sd0
  if x.se && P.objectTrap w then w
  else if P.mAccesses x.acc && !P.modified w && (x.se || P.peekSegM) then P.setM w
  else w

/-- The page descriptor in hand after the referenced bit (R190). -/
def referredPageWord (P : Params) (x : Access) (q : PageInHand) : Word :=
  if !q.hit && x.se && P.pagePresent q.pd && !P.pageReferenced q.pd then P.setPR q.pd else q.pd

/-- The page descriptor in hand after the referenced and modified bits of a translation that succeeds (R190, R195). -/
def pageWord (P : Params) (x : Access) (q : PageInHand) : Word :=
  let w := referredPageWord P x q
  if x.se && P.mAccesses x.acc && !P.pageModified w then P.setPM w else w

/-- The translation comes to its page descriptor: within the section bound (R173), past the segment checks and the object trap (R176 to
R181), the segment paged, and within the page bound on a PDC miss (R187). -/
def pageReached (P : Params) (s : State) (x : Access) (g : SegInHand) (q : PageInHand) : Prop :=
  (P.ssl x.va).toNat ≤ (P.sectLen (s.sramb.get (P.sid x.va))).toNat ∧ segmentUsable P g = true ∧
    ¬ (x.se = true ∧ P.objectTrap g.sd0 = true) ∧ P.contiguous g.sd0 = false ∧
    (q.hit = true ∨ (P.psl x.va).toNat ≤ (lastPage P g.sd0).toNat)

/-! ### Requests by group -/

/-- The MMUR row of a group. -/
def rowRead : RegGroup → BitVec 1 → BitVec 5 → Instr
  | .sdcl => .mmurSdcl
  | .sdch => .mmurSdch
  | .pdcrl => .mmurPdcrl
  | .pdcrh => .mmurPdcrh
  | .pdcll => .mmurPdcll
  | .pdclh => .mmurPdclh
  | .srama => .mmurSrama
  | .sramb => .mmurSramb
  | .fc => .mmurFc
  | .fa => .mmurFa
  | .conf => .mmurConf
  | .var => .mmurVar
  | .undef12 => .mmurUndef12
  | .undef13 => .mmurUndef13
  | .undef14 => .mmurUndef14
  | .undef15 => .mmurUndef15

/-- The MMUW row of a group. -/
def rowWrite : RegGroup → BitVec 1 → BitVec 5 → Word → Instr
  | .sdcl => .mmuwSdcl
  | .sdch => .mmuwSdch
  | .pdcrl => .mmuwPdcrl
  | .pdcrh => .mmuwPdcrh
  | .pdcll => .mmuwPdcll
  | .pdclh => .mmuwPdclh
  | .srama => .mmuwSrama
  | .sramb => .mmuwSramb
  | .fc => .mmuwFc
  | .fa => .mmuwFa
  | .conf => .mmuwConf
  | .var => .mmuwVar
  | .undef12 => .mmuwUndef12
  | .undef13 => .mmuwUndef13
  | .undef14 => .mmuwUndef14
  | .undef15 => .mmuwUndef15

/-- Groups 0 to 5, the raw cache windows (R112). -/
def isRawGroup : RegGroup → Bool
  | .sdcl | .sdch | .pdcrl | .pdcrh | .pdcll | .pdclh => true
  | .srama | .sramb | .fc | .fa | .conf | .var | .undef12 | .undef13 | .undef14 | .undef15 => false

/-- Groups 12 to 15 (R112, R115). -/
def isUndefinedGroup : RegGroup → Bool
  | .undef12 | .undef13 | .undef14 | .undef15 => true
  | .sdcl | .sdch | .pdcrl | .pdcrh | .pdcll | .pdclh | .srama | .sramb | .fc | .fa | .conf | .var => false

/-- The translation a request makes (R170, R280, R281, R283, R284). -/
def translationOf : Instr → Option Access
  | .translate acc lvl se va => some ⟨va, acc, lvl, se⟩
  | .read8 acc lvl va | .read16 acc lvl va | .read32 acc lvl va => some ⟨va, acc, lvl, true⟩
  | .write8 lvl va _ | .write16 lvl va _ | .write32 lvl va _ => some ⟨va, .write, lvl, true⟩
  | .examine va => some ⟨va, .read, 0, false⟩
  | .deposit va _ => some ⟨va, .write, 0, false⟩
  | .pread8 _ | .pread16 _ | .pread32 _ | .pwrite8 .. | .pwrite16 .. | .pwrite32 .. | .setEnable _ | .clearAlign | .reset
  | .reservedE .. | .reservedF ..
  | .mmurSdcl .. | .mmuwSdcl .. | .mmurSdch .. | .mmuwSdch .. | .mmurPdcrl .. | .mmuwPdcrl .. | .mmurPdcrh .. | .mmuwPdcrh ..
  | .mmurPdcll .. | .mmuwPdcll .. | .mmurPdclh .. | .mmuwPdclh .. | .mmurSrama .. | .mmuwSrama .. | .mmurSramb .. | .mmuwSramb ..
  | .mmurFc .. | .mmuwFc .. | .mmurFa .. | .mmuwFa .. | .mmurConf .. | .mmuwConf .. | .mmurVar .. | .mmuwVar ..
  | .mmurUndef12 .. | .mmuwUndef12 .. | .mmurUndef13 .. | .mmuwUndef13 .. | .mmurUndef14 .. | .mmuwUndef14 .. | .mmurUndef15 .. | .mmuwUndef15 .. => none

/-- The n bytes at an address as one number, the byte at the lowest address most significant (R73). -/
def bigEndian (m : Memory) (a : Nat) (w : Width) (fill : Nat → Byte := Config.powerOnByte) : Nat :=
  match w with
  | .byte => (Memory.read m a fill).toNat
  | .half => (Memory.read m a fill).toNat * 2 ^ 8 + (Memory.read m (a + 1) fill).toNat
  | .word =>
    (Memory.read m a fill).toNat * 2 ^ 24 + (Memory.read m (a + 1) fill).toNat * 2 ^ 16 +
      (Memory.read m (a + 2) fill).toNat * 2 ^ 8 + (Memory.read m (a + 3) fill).toNat

/-- `l'` is `l` after `havoc_one` (R150): at most one entry gone, then at most one come, with a key of its own and room for it. -/
def HavocOne {α κ : Type} (key : α → κ) (cap : Nat) (l l' : List α) : Prop :=
  ∃ left, (left = l ∨ ∃ n, n < l.length ∧ left = l.eraseIdx n) ∧
    (l' = left ∨ ∃ e, (∀ d ∈ left, key d ≠ key e) ∧ left.length < cap ∧ l' = e :: left)

end Sys2Proof.Machine
end

