-- ==== Sys2Proof/Certificates/Slice0/Obligations.lean ====
section
/-! DEFINITION. The statements for the provers. Each docstring says what it states and which rules it formalises; OBLIGATIONS.json lists
them. `params` is the default instantiation L0/TC of the open parameters (log 4). -/

open Sys2Proof Sys2Proof.Machine

/-! ### Encoding -/

/-- Decoding the record of a well-formed request gives the request back, with every operand (R116, R111; log 14 for the register
rows, log 13 for `v`). -/
def Obligations.DecodeOfEncodeIsTheInstruction : Prop :=
  ∀ i : Instr, i.wellFormed params = true → decode params (encode params i) = .ok i

/-- Every record the decoder takes is the record of the well-formed request it answers: no bit of it is dropped. -/
def Obligations.EncodeOfDecodeIsTheRecord : Prop :=
  ∀ (r : Request) (i : Instr), decode params r = .ok i → encode params i = r ∧ i.wellFormed params = true

/-- The decoder rejects exactly the records of operations 0x0 to 0xD with a nonzero unused field, width code 3 or `cmd[15:9] != 0`
(R116; that the high bits of a used `v` are no unused field is log 13). -/
def Obligations.RecordRejectedExactlyWhenMalformed : Prop :=
  ∀ r : Request, (∃ e, decode params r = .rejected e) ↔ Malformed r

/-- Command words and register addresses of 95_test_vectors.md decode to the requests it names. How a table word stands for a record (a
16-bit word has `a = v = 0`, a 32-bit word is PREAD32 of it and so its MMUR row) is the model's choice (log 14); the register addresses
are numbers of L0 (PRESUMED, log 4). -/
def Obligations.VectorWordsDecode : Prop :=
  decodeTableWord 16 0x0110 = some (.translate .write 0 true 0) ∧
  decodeTableWord 16 0x0130 = some (.translate .fetch 0 true 0) ∧
  decodeTableWord 16 0x0023 = some (.read32 .iread 0 0) ∧
  decodeTableWord 16 0x00C3 = some (.read32 .read 3 0) ∧
  decodeTableWord 16 0x0006 = some (.write32 0 0 0) ∧
  decodeTableWord 16 0x0019 = some (.pread16 0) ∧
  decodeTableWord 16 0x000D = some .reset ∧
  decodeTableWord 16 0x0039 = none ∧
  decodeTableWord 16 0x0016 = none ∧
  decodeTableWord 32 0x00040614 = some (.mmurSrama 0 5) ∧
  decode params ⟨0x002A#16, 0x00040B00#32, 0x00060020#32⟩ = .ok (.mmuwVar 0 0 0x00060020#32) ∧
  decode params ⟨0x002A#16, 0x00040680#32, 0x02000000#32⟩ = .ok (.mmuwSrama 1 0 0x02000000#32)

/-! ### The default layout -/

/-- The virtual-address fields of the default layout L0 (PRESUMED, log 4) by arithmetic, and R100's laws for them. -/
def Obligations.VirtualAddressFieldsAreLawful : Prop :=
  (∀ va : Word,
    (params.sid va).val = va.toNat / 2 ^ 30 ∧
    (params.ssl va).toNat = va.toNat / 2 ^ 17 % 2 ^ 13 ∧
    (params.sot va).toNat = va.toNat % 2 ^ 17 ∧
    (params.psl va).toNat = va.toNat / 2 ^ 11 % 2 ^ 6 ∧
    (params.pot va).toNat = va.toNat % 2 ^ 11) ∧
  params.pageShift = 11 ∧
  VaLayoutLaws params

/-- The descriptor and section register fields of L0 (PRESUMED, log 4) by arithmetic and by bits (R101, R102, R103, R104, R106); each
setter sets its own bit and preserves every other bit. -/
def Obligations.DescriptorFieldsAreTheLayouts : Prop :=
  ∀ w : Word,
    ((params.rights w).toNat = w.toNat / 2 ^ 24 ∧ (params.maxOff w).toNat = w.toNat / 2 ^ 10 % 2 ^ 14 * 8 + 7 ∧
      params.indirect w = w.toNat.testBit 7 ∧ params.valid w = w.toNat.testBit 6 ∧ params.referenced w = w.toNat.testBit 5 ∧
      params.objectTrap w = w.toNat.testBit 4 ∧ params.cacheable w = w.toNat.testBit 3 ∧
      params.contiguous w = w.toNat.testBit 2 ∧ params.modified w = w.toNat.testBit 1 ∧ params.present w = w.toNat.testBit 0) ∧
    ((params.segBase w).toNat = w.toNat / 2 ^ 5 * 2 ^ 5 ∧ (params.ptBase w).toNat = w.toNat / 2 ^ 5 * 2 ^ 5) ∧
    ((params.pageBase w).toNat = w.toNat / 2 ^ 11 * 2 ^ 11 ∧ params.pageReferenced w = w.toNat.testBit 5 ∧
      params.writeFault w = w.toNat.testBit 4 ∧ params.lastInSegment w = w.toNat.testBit 2 ∧
      params.pageModified w = w.toNat.testBit 1 ∧ params.pagePresent w = w.toNat.testBit 0) ∧
    ((params.sectBase w).toNat = w.toNat / 2 ^ 5 * 2 ^ 5 ∧ (params.sectLen w).toNat = w.toNat / 2 ^ 10 % 2 ^ 13) ∧
    (∀ i, (params.setR w).toNat.testBit i = (decide (i = 5) || w.toNat.testBit i)) ∧
    (∀ i, (params.setM w).toNat.testBit i = (decide (i = 1) || w.toNat.testBit i)) ∧
    (∀ i, (params.setPR w).toNat.testBit i = (decide (i = 5) || w.toNat.testBit i)) ∧
    (∀ i, (params.setPM w).toNat.testBit i = (decide (i = 1) || w.toNat.testBit i))

/-- The permission predicate of L0 (R107; PRESUMED, log 4). -/
def Obligations.PermissionsFollowTheLevelCode : Prop :=
  ∀ (rights : Word) (acc : AccessKind) (lvl : Level),
    params.permits rights acc lvl = true ↔
      (rights.toNat / 2 ^ (2 * (3 - lvl.toNat)) % 4 = 1 ∧ acc = .fetch) ∨
      (rights.toNat / 2 ^ (2 * (3 - lvl.toNat)) % 4 = 2 ∧ (acc = .read ∨ acc = .fetch)) ∨
      rights.toNat / 2 ^ (2 * (3 - lvl.toNat)) % 4 = 3

/-- The numeric fault codes of L0 (PRESUMED, log 4), and that FCODE is injective over the ten names (R109). -/
def Obligations.FaultCodesAreDistinct : Prop :=
  (params.fcode .sdtlen = 3 ∧ params.fcode .pw = 4 ∧ params.fcode .pdtlen = 5 ∧ params.fcode .invSd = 6 ∧
    params.fcode .segNotPres = 7 ∧ params.fcode .otrap = 8 ∧ params.fcode .pdtNotPres = 9 ∧ params.fcode .pageNotPres = 0xA ∧
    params.fcode .acc = 0xD ∧ params.fcode .segOffset = 0xE) ∧
  ∀ c d : TransFault, params.fcode c = params.fcode d → c = d

/-- The boundaries of TC's map (PRESUMED, log 4) are multiples of 4 and its regions disjoint; so an aligned access lies in one region,
that of its first byte (R222). -/
def Obligations.AlignedAccessStaysInOneRegion : Prop :=
  PhysMapLaws params ∧
  ∀ (w : Width) (pa : Word) (k : Nat), pa.toNat % w.bytes = 0 → k < w.bytes →
    pa.toNat + k < 2 ^ 32 ∧ regionOf params (pa + BitVec.ofNat 32 k) = regionOf params pa

/-! ### The step -/

/-- A step takes the next request record; when it decodes, the step is the request's meaning in the state without that record (the queue
of requests is the model's, log 1). -/
def Obligations.StepPerformsTheDecodedRequest : Prop :=
  ∀ (s : State) (r : Request) (rest : List Request) (i : Instr),
    s.requests = r :: rest → decode params r = .ok i → step s = exec i { s with requests := rest }

/-- A step on a record that is no request records the refusal and changes nothing else: BAD_OP (R116, R310), HALTED while halted (R44;
the order of the two is the model's, log 12). -/
def Obligations.StepRefusesMalformedRecords : Prop :=
  ∀ (s : State) (r : Request) (rest : List Request) (e : DecodeReject),
    s.requests = r :: rest → decode params r = .rejected e →
      (s.halted = false → step s = .next { s with requests := rest, outcomes := .refused .badOp :: s.outcomes, refusedMark := true }) ∧
      (s.halted = true → step s = .next { s with requests := rest, outcomes := .refused .halted :: s.outcomes, refusedMark := true })

/-- With no request pending there is no step (the model's own stop, log 1). -/
def Obligations.StepWithoutRequestStops : Prop :=
  ∀ s : State, s.requests = [] → step s = .fault .noRequest

/-- Every request, in every state, is performed in one step with exactly one outcome (R14). That a Stop and a refusal are next states
with the outcome recorded is the model's reading (log 2), and that the other requests are left alone is about the model's own list of
them (log 1). -/
def Obligations.EveryRequestHasOneOutcome : Prop :=
  ∀ (i : Instr) (s : State), ∃ t r, exec i s = .next t ∧ Answers s t r ∧ t.requests = s.requests

/-- `halted` (R44): 0 at reset, set exactly by a Stop outcome; while it is 1 every request but RESET is refused and changes nothing but
the record of that, and RESET clears it. That operations 0xE and 0xF too are then refused as HALTED, and not as BAD_OP, is the model's
reading (log 12). -/
def Obligations.HaltedBlockAcceptsOnlyReset : Prop :=
  State.reset.halted = false ∧
  (∀ (i : Instr) (s t : State), s.halted = false → exec i s = .next t →
    (t.halted = true ↔ Answers s t (.stop .indirectSd))) ∧
  (∀ (i : Instr) (s : State), s.halted = true → i ≠ .reset →
    exec i s = .next { s with outcomes := .refused .halted :: s.outcomes, refusedMark := true }) ∧
  ∀ s : State, ∃ t, exec .reset s = .next t ∧ t.halted = false ∧ Answers s t .done

/-- `alignErr` (R43, R263): 0 at reset, sticky under every request but RESET and CLEARALIGN, set exactly by the bus abort, set by every
misaligned physical access, cleared by those two. -/
def Obligations.AlignmentFlagIsSticky : Prop :=
  State.reset.alignErr = false ∧
  (∀ (i : Instr) (s t : State), i ≠ .clearAlign → i ≠ .reset → s.alignErr = true → exec i s = .next t → t.alignErr = true) ∧
  (∀ (i : Instr) (s t : State), s.alignErr = false → exec i s = .next t →
    (t.alignErr = true ↔ Answers s t (.abort .emf))) ∧
  (∀ (w : Width) (pa v : Word) (s : State), s.halted = false → pa.toNat % w.bytes ≠ 0 →
    (∃ t, exec (requestPread w pa) s = .next t ∧ t.alignErr = true) ∧
    ∃ t, exec (requestPwrite w pa v) s = .next t ∧ t.alignErr = true) ∧
  (∀ s : State, s.halted = false →
    exec .clearAlign s = .next { s with alignErr := false, outcomes := .done :: s.outcomes }) ∧
  ∀ s : State, ∃ t, exec .reset s = .next t ∧ t.alignErr = false

/-- `enable` (R31, R171, R262): 0 at reset; written only by SETENABLE, with `v[0]`, and RESET; no register read depends on it; while it is 0
TRANSLATE answers its address for every operand and writes nothing. -/
def Obligations.EnableIsWrittenOnlyByItsPorts : Prop :=
  State.reset.enable = false ∧
  (∀ (i : Instr) (s t : State), (∀ v, i ≠ .setEnable v) → i ≠ .reset → exec i s = .next t → t.enable = s.enable) ∧
  (∀ (v : Word) (s : State), s.halted = false →
    exec (.setEnable v) s = .next { s with enable := v.getLsbD 0, outcomes := .done :: s.outcomes }) ∧
  (∀ s : State, ∃ t, exec .reset s = .next t ∧ t.enable = false) ∧
  (∀ (g : RegGroup) (b7 : BitVec 1) (index : BitVec 5) (b : Bool) (s t : State),
    exec (rowRead g b7 index) s = .next t → exec (rowRead g b7 index) { s with enable := b } = .next { t with enable := b }) ∧
  ∀ (acc : AccessKind) (lvl : Level) (se : Bool) (va : Word) (s : State), s.halted = false → s.enable = false →
    exec (.translate acc lvl se va) s = .next { s with outcomes := .value va :: s.outcomes }

/-- No step changes the ROM. -/
def Obligations.StepNeverChangesRom : Prop :=
  ∀ s t : State, step s = .next t → t.rom = s.rom

/-- The refusal mark is kept for the whole run and is set exactly by a refused outcome. -/
def Obligations.RefusalMarkIsKept : Prop :=
  ∀ s t : State, step s = .next t → (t.refusedMark = true ↔ s.refusedMark = true ∨ ∃ r, Answers s t (.refused r))

/-- Every step keeps the invariant: memories canonical and within their regions, CONF's high bits zero, at most 32 entries and one per
key in each cache. So does a step under any other open parameters, the regions being those of a lawful map in force (R222). -/
def Obligations.StepKeepsTheInvariant : Prop :=
  (∀ s t : State, s.Inv → step s = .next t → t.Inv) ∧
  ∀ (C : Setup) (s t : State), PhysMapLaws (C.under s.conf) → s.Inv (C.under s.conf) → stepWith C s = .next t →
    t.Inv (C.under s.conf)

/-- The invariant holds after reset. -/
def Obligations.ResetMeetsTheInvariant : Prop := State.reset.Inv

/-- The launch states (R48, R341): every register and flag zero, caches empty, nothing refused, answered or in flight, RAM any content in
canonical form within its region. That ROM too may list any content there is the model's form of ROM_IMAGE (log 6), and the bounds of
both regions are numbers of TC (PRESUMED, log 4). -/
def Obligations.LaunchStatesHaveTheResetValues : Prop :=
  (∀ s : State, s.Launch →
    s.enable = false ∧ s.conf = 0 ∧ s.fc = 0 ∧ s.fa = 0 ∧ s.var = 0 ∧
    (∀ q, s.srama.get q = 0 ∧ s.sramb.get q = 0) ∧ s.sdc = [] ∧ s.pdc = [] ∧ s.alignErr = false ∧ s.halted = false ∧
    s.refusedMark = false ∧ s.outcomes = [] ∧ s.ioLog = []) ∧
  State.reset.Launch ∧
  ∀ ram rom : Memory, Memory.wf ram = true → Memory.within 0x02000000 0x02100000 ram = true →
    Memory.wf rom = true → Memory.within 0 0x8000 rom = true → ∃ s : State, s.Launch ∧ s.ram = ram ∧ s.rom = rom

/-! ### Control requests -/

/-- RESET (R340), in every state: every register, flag and cache cleared; RAM and ROM stay. That what the run carries stays too (the
outcomes, the I/O writes, the requests, the free inputs and the refusal mark) is the model's reading (log 19). -/
def Obligations.ResetClearsTheBlock : Prop :=
  ∀ s : State, exec .reset s = .next { s with
    enable := false, conf := 0, fc := 0, fa := 0, var := 0, srama := ⟨0, 0, 0, 0⟩, sramb := ⟨0, 0, 0, 0⟩, sdc := [], pdc := [],
    alignErr := false, halted := false, outcomes := .done :: s.outcomes }

/-- Operations 0xE and 0xF have the refusal BAD_OP as their whole effect. -/
def Obligations.ReservedOperationsAreRefused : Prop :=
  ∀ (rest : BitVec 12) (a v : Word) (s : State), s.halted = false →
    exec (.reservedE rest a v) s = .next { s with outcomes := .refused .badOp :: s.outcomes, refusedMark := true } ∧
    exec (.reservedF rest a v) s = .next { s with outcomes := .refused .badOp :: s.outcomes, refusedMark := true }

/-! ### Registers -/

/-- A register row is the 4-byte physical access of its word, through the router; and the request notation of R117 at the addresses of L0
(PRESUMED, log 4): `MMUR grp[i]` and `MMUW grp[i], v` are PREAD32 and PWRITE32 of `MMU_BASE + (G << 8) + (i << 2)`, G the number of the
group, and decode to the row of that group and index; `FLUSHVA va` is `MMUW VAR[0], va`; `SETSECT s, base, len` is two requests, and the
two steps that perform them leave `base` and `len` in section s and the other sections as they were. That the words of SETSECT have
their other bits zero, and that it stands for encodable bases and lengths, is the model's choice (log 24). -/
def Obligations.RegisterRowsArePhysicalAccesses : Prop :=
  (∀ (pa v : Word) (s : State), isRegisterWord params pa = true →
    exec (registerReadRow params pa) s = exec (.pread32 pa) s ∧ exec (registerWriteRow params pa v) s = exec (.pwrite32 pa v) s) ∧
  (∀ (n : Nat) (g : RegGroup) (i : BitVec 5) (v : Word),
    [RegGroup.sdcl, .sdch, .pdcrl, .pdcrh, .pdcll, .pdclh, .srama, .sramb, .fc, .fa, .conf, .var,
      .undef12, .undef13, .undef14, .undef15][n]? = some g →
    ∃ pa : Word, pa.toNat = 0x00040000 + n * 2 ^ 8 + i.toNat * 2 ^ 2 ∧
      (Line.mmur g i).requests params = (Line.pread .word pa).requests params ∧
      (Line.mmuw g i v).requests params = (Line.pwrite .word pa v).requests params ∧
      (Line.mmur g i).requests params = [⟨0x0029#16, pa, 0⟩] ∧ (Line.mmuw g i v).requests params = [⟨0x002A#16, pa, v⟩] ∧
      decode params ⟨0x0029#16, pa, 0⟩ = .ok (rowRead g 0 i) ∧ decode params ⟨0x002A#16, pa, v⟩ = .ok (rowWrite g 0 i v)) ∧
  (∀ va : Word, (Line.flushVa va).requests params = (Line.mmuw .var 0 va).requests params) ∧
  ∀ (q : Fin 4) (base len : Word) (s : State), (Line.setSect q base len).wellFormed params = true →
    s.halted = false → s.requests = [] →
    ∃ t u, step (issue params [.setSect q base len] s) = .next t ∧ step t = .next u ∧ u.requests = [] ∧
      params.sectBase (u.srama.get q) = base ∧ params.sectLen (u.sramb.get q) = len ∧
      ∀ r, r ≠ q → u.srama.get r = s.srama.get r ∧ u.sramb.get r = s.sramb.get r

/-- MMUR_SRAMA and MMUR_SRAMB answer the section register of `index & 3` and write nothing (R254, R255). -/
def Obligations.SectionRegisterReads : Prop :=
  ∀ (b7 : BitVec 1) (index : BitVec 5) (q : Fin 4) (s : State), s.halted = false → index.toNat % 4 = q.val →
    exec (.mmurSrama b7 index) s = .next { s with outcomes := .value (s.srama.get q) :: s.outcomes } ∧
    exec (.mmurSramb b7 index) s = .next { s with outcomes := .value (s.sramb.get q) :: s.outcomes }

/-- MMUR_FC, MMUR_FA and MMUR_VAR answer the register and write nothing (R259); MMUW_FC and MMUW_FA store the whole word and flush
nothing (R260). Index ignored. -/
def Obligations.FaultRegisterAccesses : Prop :=
  ∀ (b7 : BitVec 1) (index : BitVec 5) (v : Word) (s : State), s.halted = false →
    exec (.mmurFc b7 index) s = .next { s with outcomes := .value s.fc :: s.outcomes } ∧
    exec (.mmurFa b7 index) s = .next { s with outcomes := .value s.fa :: s.outcomes } ∧
    exec (.mmurVar b7 index) s = .next { s with outcomes := .value s.var :: s.outcomes } ∧
    exec (.mmuwFc b7 index v) s = .next { s with fc := v, outcomes := .done :: s.outcomes } ∧
    exec (.mmuwFa b7 index v) s = .next { s with fa := v, outcomes := .done :: s.outcomes }

/-- MMUR_CONF answers CONF's three bits; MMUW_CONF keeps three bits of the value. -/
def Obligations.ConfKeepsThreeBits : Prop :=
  ∀ (b7 : BitVec 1) (index : BitVec 5) (v : Word) (s : State), s.halted = false →
    (∃ x : Word, exec (.mmurConf b7 index) s = .next { s with outcomes := .value x :: s.outcomes } ∧ x.toNat = s.conf.toNat % 8) ∧
    ∃ x : Word, exec (.mmuwConf b7 index v) s = .next { s with conf := x, outcomes := .done :: s.outcomes } ∧ x.toNat = v.toNat % 8

/-- A read of a raw window, groups 0 to 5, any index (R252): it answers some word and changes nothing but the free inputs left, and for
every word some free input makes it answer that word (free inputs are the model's form of a draw, log 3). -/
def Obligations.RawWindowReadIsAnyWord : Prop :=
  ∀ (g : RegGroup) (b7 : BitVec 1) (index : BitVec 5) (s : State), isRawGroup g = true → s.halted = false →
    (∃ (x : Word) (ds : List Nat) (n : Nat),
      exec (rowRead g b7 index) s = .next { s with draws := ds, drawCount := n, outcomes := .value x :: s.outcomes }) ∧
    ∀ (x : Word) (ds : List Nat), s.draws = x.toNat :: ds →
      exec (rowRead g b7 index) s = .next { s with draws := ds, outcomes := .value x :: s.outcomes }

/-- A write of a raw window (R253, R150): groups 0 and 1 change the SDC, groups 2 to 5 the PDC, by at most one entry gone and at most
one come, and nothing else but the free inputs left (logs 3 and 9). -/
def Obligations.RawWindowWriteChangesAtMostOneEntry : Prop :=
  ∀ (b7 : BitVec 1) (index : BitVec 5) (v : Word) (s : State), s.halted = false →
    (∀ g : RegGroup, g = .sdcl ∨ g = .sdch → ∃ l ds n,
      exec (rowWrite g b7 index v) s = .next { s with sdc := l, draws := ds, drawCount := n, outcomes := .done :: s.outcomes } ∧
        HavocOne SegEntry.key 32 s.sdc l) ∧
    ∀ g : RegGroup, g = .pdcrl ∨ g = .pdcrh ∨ g = .pdcll ∨ g = .pdclh → ∃ l ds n,
      exec (rowWrite g b7 index v) s = .next { s with pdc := l, draws := ds, drawCount := n, outcomes := .done :: s.outcomes } ∧
        HavocOne PageEntry.key 32 s.pdc l

/-- What a raw window write does to a cache is free (R150; draws: log 3, their form: log 9), for each of the six windows: for every entry
or none some free inputs remove just that; and for every address whose key is then not cached, and all payload words, some add the entry
in the same write, if there is then room. The rights of a new PDC entry are a byte, as the rights of every SD0 of L0 are (log 9). -/
def Obligations.RawWindowWriteReachesEveryEntry : Prop :=
  ∀ (b7 : BitVec 1) (index : BitVec 5) (v : Word) (s : State), s.halted = false →
    (∀ g : RegGroup, g = .sdcl ∨ g = .sdch → ∀ left, left = s.sdc ∨ (∃ n, n < s.sdc.length ∧ left = s.sdc.eraseIdx n) →
      (∃ f : List Nat, ∀ ds, exec (rowWrite g b7 index v) { s with draws := f ++ ds } =
        .next { s with sdc := left, draws := ds, outcomes := .done :: s.outcomes }) ∧
      ∀ va sd0 sd1 : Word, left.length < 32 → (∀ e ∈ left, e.key ≠ sdcKey params va) →
        ∃ f : List Nat, ∀ ds, exec (rowWrite g b7 index v) { s with draws := f ++ ds } =
          .next { s with sdc := ⟨sdcKey params va, sd0, sd1⟩ :: left, draws := ds, outcomes := .done :: s.outcomes }) ∧
    ∀ g : RegGroup, g = .pdcrl ∨ g = .pdcrh ∨ g = .pdcll ∨ g = .pdclh →
      ∀ left, left = s.pdc ∨ (∃ n, n < s.pdc.length ∧ left = s.pdc.eraseIdx n) →
      (∃ f : List Nat, ∀ ds, exec (rowWrite g b7 index v) { s with draws := f ++ ds } =
        .next { s with pdc := left, draws := ds, outcomes := .done :: s.outcomes }) ∧
      ∀ va pd rights : Word, rights.toNat < 256 → left.length < 32 → (∀ e ∈ left, e.key ≠ pdcKey params va) →
        ∃ f : List Nat, ∀ ds, exec (rowWrite g b7 index v) { s with draws := f ++ ds } =
          .next { s with pdc := ⟨pdcKey params va, pd, rights⟩ :: left, draws := ds, outcomes := .done :: s.outcomes }

/-- MMUW_SRAMA (R256): the register of `index & 3` takes the value, every entry of that section leaves both caches in the same step,
and nothing else changes. -/
def Obligations.SectionBaseWriteFlushesItsSection : Prop :=
  ∀ (b7 : BitVec 1) (index : BitVec 5) (v : Word) (q : Fin 4) (s : State), s.halted = false → index.toNat % 4 = q.val →
    ∃ t, exec (.mmuwSrama b7 index v) s = .next t ∧
      t = { s with srama := t.srama, sdc := t.sdc, pdc := t.pdc, outcomes := .done :: s.outcomes } ∧
      t.srama.get q = v ∧ (∀ p, p ≠ q → t.srama.get p = s.srama.get p) ∧
      (∀ e, e ∈ t.sdc ↔ e ∈ s.sdc ∧ e.key.sid ≠ q) ∧ ∀ e, e ∈ t.pdc ↔ e ∈ s.pdc ∧ e.key.sid ≠ q

/-- MMUW_SRAMB (R257): the register of `index & 3` takes the value, no cache entry goes, and nothing else changes. Where FLUSH_ON_SRAMB
is set among the parameters in force, exactly the entries of that section leave both caches in the same step, and nothing else
changes. -/
def Obligations.SectionLengthWriteFlushesNothing : Prop :=
  (∀ (b7 : BitVec 1) (index : BitVec 5) (v : Word) (q : Fin 4) (s : State), s.halted = false → index.toNat % 4 = q.val →
    ∃ t, exec (.mmuwSramb b7 index v) s = .next t ∧ t = { s with sramb := t.sramb, outcomes := .done :: s.outcomes } ∧
      t.sramb.get q = v ∧ ∀ p, p ≠ q → t.sramb.get p = s.sramb.get p) ∧
  ∀ (C : Setup) (b7 : BitVec 1) (index : BitVec 5) (v : Word) (q : Fin 4) (s : State),
    (C.under s.conf).flushOnSramb = true → s.halted = false → index.toNat % 4 = q.val →
    ∃ t, execWith C (.mmuwSramb b7 index v) s = .next t ∧
      t = { s with sramb := t.sramb, sdc := t.sdc, pdc := t.pdc, outcomes := .done :: s.outcomes } ∧
      t.sramb.get q = v ∧ (∀ p, p ≠ q → t.sramb.get p = s.sramb.get p) ∧
      (∀ e, e ∈ t.sdc ↔ e ∈ s.sdc ∧ e.key.sid ≠ q) ∧ ∀ e, e ∈ t.pdc ↔ e ∈ s.pdc ∧ e.key.sid ≠ q

/-- MMUW_VAR (R258): VAR takes the value, exactly the entries of its segment key and of its page key leave the caches, and nothing else
changes. -/
def Obligations.VarWriteFlushesMatchingEntries : Prop :=
  ∀ (b7 : BitVec 1) (index : BitVec 5) (v : Word) (s : State), s.halted = false →
    ∃ t, exec (.mmuwVar b7 index v) s = .next t ∧
      t = { s with var := v, sdc := t.sdc, pdc := t.pdc, outcomes := .done :: s.outcomes } ∧
      (∀ e, e ∈ t.sdc ↔ e ∈ s.sdc ∧ e.key ≠ ⟨params.sid v, params.ssl v⟩) ∧
      ∀ e, e ∈ t.pdc ↔ e ∈ s.pdc ∧ e.key ≠ ⟨params.sid v, params.ssl v, params.psl v⟩

/-- Encodings outside the register table (R115): a word read of groups 12 to 15 answers any word (log 3) and a word write has no effect;
byte and halfword accesses anywhere in the window are refused; a misaligned access in the window aborts. -/
def Obligations.UndefinedGroupsAndSubwordAccesses : Prop :=
  (∀ (g : RegGroup) (b7 : BitVec 1) (index : BitVec 5) (v : Word) (s : State), isUndefinedGroup g = true → s.halted = false →
    (∃ (x : Word) (ds : List Nat) (n : Nat),
      exec (rowRead g b7 index) s = .next { s with draws := ds, drawCount := n, outcomes := .value x :: s.outcomes }) ∧
    (∀ (x : Word) (ds : List Nat), s.draws = x.toNat :: ds →
      exec (rowRead g b7 index) s = .next { s with draws := ds, outcomes := .value x :: s.outcomes }) ∧
    exec (rowWrite g b7 index v) s = .next { s with outcomes := .done :: s.outcomes }) ∧
  (∀ (w : Width) (pa v : Word) (s : State), s.halted = false → inMmuWindow params pa = true → w ≠ .word → pa.toNat % w.bytes = 0 →
    exec (requestPread w pa) s = .next { s with outcomes := .refused .mmuSubword :: s.outcomes, refusedMark := true } ∧
    exec (requestPwrite w pa v) s = .next { s with outcomes := .refused .mmuSubword :: s.outcomes, refusedMark := true }) ∧
  ∀ (w : Width) (pa v : Word) (s : State), s.halted = false → inMmuWindow params pa = true → pa.toNat % w.bytes ≠ 0 →
    exec (requestPread w pa) s = .next { s with alignErr := true, outcomes := .abort .emf :: s.outcomes } ∧
    exec (requestPwrite w pa v) s = .next { s with alignErr := true, outcomes := .abort .emf :: s.outcomes }

/-! ### Router -/

/-- PREAD8, PREAD16 and PREAD32 of ROM (R223) and of RAM (R224) answer the n bytes in big-endian order and change nothing. -/
def Obligations.PhysicalReadOfMemory : Prop :=
  ∀ (w : Width) (pa : Word) (s : State), s.halted = false → pa.toNat % w.bytes = 0 →
    (regionOf params pa = .rom → ∃ x : Word,
      exec (requestPread w pa) s = .next { s with outcomes := .value x :: s.outcomes } ∧ x.toNat = bigEndian s.rom pa.toNat w params.romImage) ∧
    (regionOf params pa = .ram → ∃ x : Word,
      exec (requestPread w pa) s = .next { s with outcomes := .value x :: s.outcomes } ∧ x.toNat = bigEndian s.ram pa.toNat w)

/-- PWRITE8, PWRITE16 and PWRITE32 of RAM (R225) store the low n bytes of the value, most significant first, and change nothing else. -/
def Obligations.PhysicalWriteToRam : Prop :=
  ∀ (w : Width) (pa v : Word) (s : State), s.halted = false → pa.toNat % w.bytes = 0 → regionOf params pa = .ram →
    Memory.wf s.ram = true → ∃ m : Memory,
      exec (requestPwrite w pa v) s = .next { s with ram := m, outcomes := .done :: s.outcomes } ∧
      bigEndian m pa.toNat w = v.toNat % 2 ^ (8 * w.bytes) ∧
      ∀ a, a < pa.toNat ∨ pa.toNat + w.bytes ≤ a → Memory.read m a = Memory.read s.ram a

/-- Writes of ROM are discarded (R226); reads of unmapped space answer 0 and writes there are discarded (R227). -/
def Obligations.RomWritesAndUnmappedAccesses : Prop :=
  ∀ (w : Width) (pa v : Word) (s : State), s.halted = false → pa.toNat % w.bytes = 0 →
    (regionOf params pa = .rom → exec (requestPwrite w pa v) s = .next { s with outcomes := .done :: s.outcomes }) ∧
    (regionOf params pa = .unmapped →
      exec (requestPread w pa) s = .next { s with outcomes := .value 0 :: s.outcomes } ∧
      exec (requestPwrite w pa v) s = .next { s with outcomes := .done :: s.outcomes })

/-- A misaligned word or halfword access (R221), for every caller and every layout: `alignErr <- 1`, the outcome Abort(EMF) with
ABORT_CLASS_EMF and ABORT_CAUSE_EMF, no data and no region looked at. -/
def Obligations.MisalignedAccessAborts : Prop :=
  (∀ (P : Params) (w : Width) (pa v : Word) (s : State), pa.toNat % w.bytes ≠ 0 →
    physRead P pa w s = .ended (.abort .emf) { s with alignErr := true } ∧
    physWrite P pa w v s = .ended (.abort .emf) { s with alignErr := true } ∧
    abortEntry P .emf = (P.abortClassEmf, P.abortCauseEmf)) ∧
  ∀ (w : Width) (pa v : Word) (s : State), s.halted = false → pa.toNat % w.bytes ≠ 0 →
    exec (requestPread w pa) s = .next { s with alignErr := true, outcomes := .abort .emf :: s.outcomes } ∧
    exec (requestPwrite w pa v) s = .next { s with alignErr := true, outcomes := .abort .emf :: s.outcomes }

/-- The I/O region (R228): accesses in the MMU window go to the register interface; outside it a read answers any value of its width
(logs 3 and 11) and a write is recorded with its width. -/
def Obligations.IoRegionAccesses : Prop :=
  (∀ (P : Params) (w : Width) (pa v : Word) (s : State), pa.toNat % w.bytes = 0 → regionOf P pa = .io → inMmuWindow P pa = true →
    physRead P pa w s = regRead P (pa - P.mmuBase) w s ∧ physWrite P pa w v s = regWrite P (pa - P.mmuBase) w v s) ∧
  ∀ (w : Width) (pa v : Word) (s : State), s.halted = false → pa.toNat % w.bytes = 0 → regionOf params pa = .io →
    inMmuWindow params pa = false →
    (∃ (x : Word) (ds : List Nat) (n : Nat),
      exec (requestPread w pa) s = .next { s with draws := ds, drawCount := n, outcomes := .value x :: s.outcomes } ∧
        x.toNat < 2 ^ (8 * w.bytes)) ∧
    (∀ (x : Word) (ds : List Nat), x.toNat < 2 ^ (8 * w.bytes) → s.draws = x.toNat :: ds →
      exec (requestPread w pa) s = .next { s with draws := ds, outcomes := .value x :: s.outcomes }) ∧
    ∃ x : Word, x.toNat = v.toNat % 2 ^ (8 * w.bytes) ∧
      exec (requestPwrite w pa v) s = .next { s with ioLog := ⟨pa, w, x⟩ :: s.ioLog, outcomes := .done :: s.outcomes }

/-! ### Caches -/

/-- Eviction at insertion is a draw (R144), for both caches: of the entries of other keys a part survives, fewer than 32; and for every
such part some free input leaves just that (logs 3 and 8). -/
def Obligations.EvictionIsADraw : Prop :=
  (∀ (k : SegKey) (a b : Word) (s : State),
    ((s.sdc.filter fun e => e.key ≠ k).length ≤ 32 →
      ∃ kept, kept.Sublist (s.sdc.filter fun e => e.key ≠ k) ∧ kept.length < 32 ∧
        (insertSegment k a b s).sdc = ⟨k, a, b⟩ :: kept) ∧
    ∀ kept, kept.Sublist (s.sdc.filter fun e => e.key ≠ k) → kept.length < 32 →
      ∃ d : Nat, ∀ ds, insertSegment k a b { s with draws := d :: ds } = { s with sdc := ⟨k, a, b⟩ :: kept, draws := ds }) ∧
  ∀ (k : PageKey) (pd r : Word) (s : State),
    ((s.pdc.filter fun e => e.key ≠ k).length ≤ 32 →
      ∃ kept, kept.Sublist (s.pdc.filter fun e => e.key ≠ k) ∧ kept.length < 32 ∧
        (insertPage k pd r s).pdc = ⟨k, pd, r⟩ :: kept) ∧
    ∀ kept, kept.Sublist (s.pdc.filter fun e => e.key ≠ k) → kept.length < 32 →
      ∃ d : Nat, ∀ ds, insertPage k pd r { s with draws := d :: ds } = { s with pdc := ⟨k, pd, r⟩ :: kept, draws := ds }

/-- An inserted descriptor is the one visible for its key, and another key shows what it showed or misses: no older descriptor comes
back. An insertion changes that cache and the free inputs left, nothing else. -/
def Obligations.InsertedDescriptorIsVisible : Prop :=
  (∀ (k : SegKey) (a b : Word) (s : State), (s.sdc.map SegEntry.key).Nodup →
    lookupSegment k (insertSegment k a b s).sdc = some ⟨k, a, b⟩ ∧
    (∀ k', k' ≠ k → lookupSegment k' (insertSegment k a b s).sdc = lookupSegment k' s.sdc ∨
      lookupSegment k' (insertSegment k a b s).sdc = none) ∧
    ∃ l ds n, insertSegment k a b s = { s with sdc := l, draws := ds, drawCount := n }) ∧
  ∀ (k : PageKey) (pd r : Word) (s : State), (s.pdc.map PageEntry.key).Nodup →
    lookupPage k (insertPage k pd r s).pdc = some ⟨k, pd, r⟩ ∧
    (∀ k', k' ≠ k → lookupPage k' (insertPage k pd r s).pdc = lookupPage k' s.pdc ∨
      lookupPage k' (insertPage k pd r s).pdc = none) ∧
    ∃ l ds n, insertPage k pd r s = { s with pdc := l, draws := ds, drawCount := n }

/-! ### Translation -/

/-- The section bound (R173), for every translated request while enabled: beyond it SDTLEN, with the fault record and VAR under side
effects and with nothing written in a peek; the code is given for nothing else. -/
def Obligations.SectionBoundFault : Prop :=
  ∀ (i : Instr) (x : Access) (s : State), translationOf i = some x → s.halted = false → s.enable = true →
    ((params.sectLen (s.sramb.get (params.sid x.va))).toNat < (params.ssl x.va).toNat →
      (x.se = true → exec i s = .next { s with var := x.va, fc := params.fcode .sdtlen, fa := x.va, outcomes := .fault .sdtlen :: s.outcomes }) ∧
      (x.se = false → exec i s = .next { s with outcomes := .fail .sdtlen :: s.outcomes })) ∧
    ((params.ssl x.va).toNat ≤ (params.sectLen (s.sramb.get (params.sid x.va))).toNat →
      ∀ t, exec i s = .next t → ¬ Answers s t (.fault .sdtlen) ∧ ¬ Answers s t (.fail .sdtlen))

/-- TRANSLATE completes with the verdict: the ten faults in their order, the stop, and both addresses are those of one expression over
the state before, wherever the descriptors come from a cache or from plain memory and lie apart. -/
def Obligations.TranslateAnswersTheVerdict : Prop :=
  ∀ (acc : AccessKind) (lvl : Level) (se : Bool) (va : Word) (s : State) (r : Response),
    s.halted = false → tablesApart params s va = true → verdict params s ⟨va, acc, lvl, se⟩ = some r →
      ∃ t, exec (.translate acc lvl se va) s = .next t ∧ Answers s t r

/-- A side-effect translation that fails with `code`, in any request: FC receives FCODE(code) and FA the requested virtual address
(R110). Only a side-effect translation ends in a Fault. -/
def Obligations.TranslationFaultIsRecorded : Prop :=
  ∀ (i : Instr) (s t : State) (c : TransFault), exec i s = .next t → Answers s t (.fault c) →
    ∃ x, translationOf i = some x ∧ x.se = true ∧ t.fc = params.fcode c ∧ t.fa = x.va

/-- Only a peek translation ends in a Fail, and that changes no register, flag or cache (the segment descriptor lying clear of the MMU
window, where its one write-back would be a register write). -/
def Obligations.PeekFailureRecordsNothing : Prop :=
  ∀ (i : Instr) (s t : State) (c : TransFault), exec i s = .next t → Answers s t (.fail c) →
    ∃ x, translationOf i = some x ∧ x.se = false ∧
      (inMmuWindow params (sdAddr params s x.va) = false → SameBlock s { t with ram := s.ram })

/-- EXAMINE, and a peek TRANSLATE of another kind than WRITE, change nothing of the block but `halted` on a Stop, and log no I/O
write. -/
def Obligations.PeekReadChangesNothing : Prop :=
  ∀ (i : Instr) (s t : State),
    ((∃ va, i = .examine va) ∨ ∃ acc lvl va, acc ≠ .write ∧ i = .translate acc lvl false va) → exec i s = .next t →
      SameBlock s { t with halted := s.halted } ∧ t.ioLog = s.ioLog

/-- A peek WRITE translation and DEPOSIT, the segment descriptor lying clear of the MMU window: no register and no cache changes; RAM
changes only in that descriptor's word, which takes the M bit, and for DEPOSIT in the byte at the address the translation answers. -/
def Obligations.PeekWriteTouchesOnlyTheModifiedBit : Prop :=
  ∀ (va v : Word) (lvl : Level) (s t : State), inMmuWindow params (sdAddr params s va) = false →
    (exec (.translate .write lvl false va) s = .next t →
      SameBlock s { t with halted := s.halted, ram := s.ram } ∧ RamSameOutside s t (sdAddr params s va) ∧
      ∀ g, segmentOf params s va = some g → t.ram = s.ram ∨
        (params.modified g.sd0 = false ∧ t.ram = Memory.writeWide s.ram g.sda.toNat .word (params.setM g.sd0))) ∧
    (exec (.deposit va v) s = .next t →
      SameBlock s { t with halted := s.halted, ram := s.ram } ∧
      ∀ u, exec (.translate .write 0 false va) s = .next u →
        ((∀ pa, ¬ Answers s u (.value pa)) → t.ram = u.ram) ∧
        ∀ pa, Answers s u (.value pa) → ∀ a, a ≠ pa.toNat → Memory.read t.ram a = Memory.read u.ram a)

/-- The frame of a side-effect TRANSLATE, the descriptors lying clear of the MMU window: VAR takes the address while enabled, FC and FA
change only with a Fault, `halted` only with a Stop, RAM only in the two descriptor words, and the I/O log only where one of these lies
in the I/O region; nothing else changes but the free inputs left. A cache changes only where its lookup misses, by one entry of the
address's own key that comes with the eviction of others; the SDC not at all when the translation ends before the fill of R179, the PDC
neither then nor for a contiguous segment, a trap, or a page beyond the bound or not present (R189). `pda` is computed from the segment
descriptor in hand. -/
def Obligations.TranslateFrame : Prop :=
  ∀ (acc : AccessKind) (lvl : Level) (va : Word) (s t : State), s.halted = false → s.enable = true →
    inMmuWindow params (sdAddr params s va) = false →
    (∀ g u, resolveSegment params ⟨va, acc, lvl, true⟩ { s with var := va } = .go g u → params.contiguous g.sd0 = false →
      inMmuWindow params (pdAddr params va g.sd1) = false) →
    exec (.translate acc lvl true va) s = .next t →
      t = { s with var := va, fc := t.fc, fa := t.fa, sdc := t.sdc, pdc := t.pdc, ram := t.ram, halted := t.halted,
                   outcomes := t.outcomes, ioLog := t.ioLog, draws := t.draws, drawCount := t.drawCount } ∧
      ((∀ c, ¬ Answers s t (.fault c)) → t.fc = s.fc ∧ t.fa = s.fa) ∧
      (t.halted = true → Answers s t (.stop .indirectSd)) ∧
      (t.sdc = s.sdc ∨ lookupSegment (sdcKey params va) s.sdc = none ∧
        ∃ e kept, e.key = sdcKey params va ∧ kept.Sublist s.sdc ∧ t.sdc = e :: kept) ∧
      (t.pdc = s.pdc ∨ lookupPage (pdcKey params va) s.pdc = none ∧
        ∃ e kept, e.key = pdcKey params va ∧ kept.Sublist s.pdc ∧ t.pdc = e :: kept) ∧
      (∀ r, Answers s t r →
        r = .fault .sdtlen ∨ r = .fault .invSd ∨ r = .stop .indirectSd ∨ r = .fault .segNotPres ∨ r = .fault .pdtNotPres →
        t.sdc = s.sdc ∧ t.pdc = s.pdc) ∧
      (∀ r, Answers s t r → r = .fault .otrap ∨ r = .fault .pdtlen ∨ r = .fault .pageNotPres → t.pdc = s.pdc) ∧
      (∀ g u, resolveSegment params ⟨va, acc, lvl, true⟩ { s with var := va } = .go g u → params.contiguous g.sd0 = true →
        t.pdc = s.pdc) ∧
      (regionOf params (sdAddr params s va) ≠ .io →
        (∀ g u, resolveSegment params ⟨va, acc, lvl, true⟩ { s with var := va } = .go g u → params.contiguous g.sd0 = false →
          regionOf params (pdAddr params va g.sd1) ≠ .io) →
        t.ioLog = s.ioLog) ∧
      ∀ a, (a < (sdAddr params s va).toNat ∨ (sdAddr params s va).toNat + 4 ≤ a) →
        (∀ g u, resolveSegment params ⟨va, acc, lvl, true⟩ { s with var := va } = .go g u → params.contiguous g.sd0 = false →
          a < (pdAddr params va g.sd1).toNat ∨ (pdAddr params va g.sd1).toNat + 4 ≤ a) →
        Memory.read t.ram a = Memory.read s.ram a

/-- The segment descriptor write-backs: past the presence check, the descriptor's word in RAM becomes the word in hand with its
referenced and modified bits, whatever the memory held (a stale copy from the SDC included); with no bit to set the word stays. -/
def Obligations.SegmentDescriptorWriteBack : Prop :=
  ∀ (acc : AccessKind) (lvl : Level) (se : Bool) (va : Word) (s t : State) (g : SegInHand),
    s.halted = false → s.enable = true → Memory.wf s.ram = true →
    (params.ssl va).toNat ≤ (params.sectLen (s.sramb.get (params.sid va))).toNat →
    tablesApart params s va = true → segmentOf params s va = some g → segmentUsable params g = true →
    regionOf params g.sda = .ram → exec (.translate acc lvl se va) s = .next t →
      bigEndian t.ram g.sda.toNat .word =
        if segmentWord params ⟨va, acc, lvl, se⟩ g = g.sd0 then bigEndian s.ram g.sda.toNat .word
        else (segmentWord params ⟨va, acc, lvl, se⟩ g).toNat

/-- The page descriptor write-backs of a paged translation, whatever its outcome. Where the translation comes to its page descriptor, the
descriptor's word in RAM becomes the word in hand with its referenced and modified bits if the translation succeeds, and with its
referenced bit alone if it then fails (R190: that write-back persists when a later check faults); with no bit to set, and where the
translation ends before, the word stays. -/
def Obligations.PageDescriptorWriteBack : Prop :=
  ∀ (acc : AccessKind) (lvl : Level) (se : Bool) (va : Word) (s t : State) (g : SegInHand) (q : PageInHand),
    s.halted = false → s.enable = true → Memory.wf s.ram = true →
    tablesApart params s va = true → segmentOf params s va = some g → params.contiguous g.sd0 = false →
    pageOf params s va g = some q → regionOf params q.pda = .ram →
    exec (.translate acc lvl se va) s = .next t →
      (pageReached params s ⟨va, acc, lvl, se⟩ g q → (∃ pa, Answers s t (.value pa)) →
        bigEndian t.ram q.pda.toNat .word =
          if pageWord params ⟨va, acc, lvl, se⟩ q = q.pd then bigEndian s.ram q.pda.toNat .word
          else (pageWord params ⟨va, acc, lvl, se⟩ q).toNat) ∧
      (pageReached params s ⟨va, acc, lvl, se⟩ g q → (∀ pa, ¬ Answers s t (.value pa)) →
        bigEndian t.ram q.pda.toNat .word =
          if referredPageWord params ⟨va, acc, lvl, se⟩ q = q.pd then bigEndian s.ram q.pda.toNat .word
          else (referredPageWord params ⟨va, acc, lvl, se⟩ q).toNat) ∧
      (¬ pageReached params s ⟨va, acc, lvl, se⟩ g q →
        (∀ pa, ¬ Answers s t (.value pa)) ∧ bigEndian t.ram q.pda.toNat .word = bigEndian s.ram q.pda.toNat .word)

/-- Cache fills of a side-effect TRANSLATE: after a segment miss that passes the presence check the SDC holds the words as fetched;
after a page miss that finds the page present, within the bound and untrapped, the PDC holds the word as fetched with the segment's
rights. -/
def Obligations.MissFillsTheCaches : Prop :=
  ∀ (acc : AccessKind) (lvl : Level) (va : Word) (s t : State) (g : SegInHand),
    s.halted = false → s.enable = true → (params.ssl va).toNat ≤ (params.sectLen (s.sramb.get (params.sid va))).toNat →
    tablesApart params s va = true → segmentOf params s va = some g → segmentUsable params g = true →
    exec (.translate acc lvl true va) s = .next t →
      (g.hit = false → lookupSegment (sdcKey params va) t.sdc = some ⟨sdcKey params va, g.sd0, g.sd1⟩) ∧
      ∀ q, params.objectTrap g.sd0 = false → params.contiguous g.sd0 = false → pageOf params s va g = some q → q.hit = false →
        (params.psl va).toNat ≤ (lastPage params g.sd0).toNat → params.pagePresent q.pd = true →
        lookupPage (pdcKey params va) t.pdc = some ⟨pdcKey params va, q.pd, params.rights g.sd0⟩

/-- Descriptor addresses are aligned under L0 (PRESUMED, log 4) and no translation aborts (the spec's inference R303). -/
def Obligations.DescriptorAccessesNeverAbort : Prop :=
  (∀ (va sd1 : Word) (s : State), (sdAddr params s va).toNat % 8 = 0 ∧ (pdAddr params va sd1).toNat % 4 = 0) ∧
  ∀ (acc : AccessKind) (lvl : Level) (se : Bool) (va : Word) (s t : State),
    exec (.translate acc lvl se va) s = .next t → ¬ Answers s t (.abort .emf)

/-- Alignment of the data access (the spec's inference R282, under L0, log 4): a translated address keeps the low two bits of the
virtual one; so a misaligned access aborts exactly when its translation succeeds, and never before. -/
def Obligations.MisalignedDataAbortsAfterTranslation : Prop :=
  ∀ (acc : AccessKind) (lvl : Level) (va pa : Word) (s t : State), exec (.translate acc lvl true va) s = .next t →
    (Answers s t (.value pa) → pa.toNat % 4 = va.toNat % 4) ∧
    ∀ (w : Width) (u : State), va.toNat % w.bytes ≠ 0 →
      (exec (requestRead w acc lvl va) s = .next u → (Answers s u (.abort .emf) ↔ ∃ pa, Answers s t (.value pa))) ∧
      ∀ v, acc = .write → exec (requestWrite w lvl va v) s = .next u →
        (Answers s u (.abort .emf) ↔ ∃ pa, Answers s t (.value pa))

/-- Two identical successful translations with nothing between them answer the same address, the descriptors lying apart and in plain
memory or the caches (the law the spec derives in R201). -/
def Obligations.TranslationIsIdempotent : Prop :=
  ∀ (acc : AccessKind) (lvl : Level) (se : Bool) (va pa pb : Word) (s t u : State),
    Memory.wf s.ram = true → tablesApart params s va = true → verdict params s ⟨va, acc, lvl, se⟩ ≠ none →
    exec (.translate acc lvl se va) s = .next t → Answers s t (.value pa) →
    exec (.translate acc lvl se va) t = .next u → Answers t u (.value pb) → pa = pb

/-! ### Translated accesses -/

/-- While the MMU is disabled the translated accesses complete on RAM at their own address, EXAMINE and DEPOSIT on its byte. -/
def Obligations.DisabledAccessesReachRam : Prop :=
  ∀ (w : Width) (acc : AccessKind) (lvl : Level) (va v : Word) (s : State),
    s.halted = false → s.enable = false → va.toNat % w.bytes = 0 → regionOf params va = .ram → Memory.wf s.ram = true →
    (∃ x : Word, exec (requestRead w acc lvl va) s = .next { s with outcomes := .value x :: s.outcomes } ∧
      x.toNat = bigEndian s.ram va.toNat w) ∧
    (∃ m : Memory, exec (requestWrite w lvl va v) s = .next { s with ram := m, outcomes := .done :: s.outcomes } ∧
      bigEndian m va.toNat w = v.toNat % 2 ^ (8 * w.bytes) ∧
      ∀ a, a < va.toNat ∨ va.toNat + w.bytes ≤ a → Memory.read m a = Memory.read s.ram a) ∧
    (∃ x : Word, exec (.examine va) s = .next { s with outcomes := .value x :: s.outcomes } ∧
      x.toNat = (Memory.read s.ram va.toNat).toNat) ∧
    ∃ m : Memory, exec (.deposit va v) s = .next { s with ram := m, outcomes := .done :: s.outcomes } ∧
      (Memory.read m va.toNat).toNat = v.toNat % 256 ∧ ∀ a, a ≠ va.toNat → Memory.read m a = Memory.read s.ram a

/-- READ8, READ16 and READ32 are TRANSLATE with side effects and the given kind, then the physical read (R280); WRITE8, WRITE16 and
WRITE32 are TRANSLATE of kind WRITE, then the physical write (R281). When the translation gives no address its outcome is the
request's and no data is accessed. -/
def Obligations.AccessIsTranslateThenPhysical : Prop :=
  ∀ (w : Width) (lvl : Level) (va v : Word) (s : State),
    (∀ (acc : AccessKind) (t : State) (r : Response), exec (.translate acc lvl true va) s = .next t → Answers s t r →
      (∀ pa, r = .value pa →
        exec (requestRead w acc lvl va) s = exec (requestPread w pa) { t with outcomes := s.outcomes }) ∧
      ((∀ pa, r ≠ .value pa) → exec (requestRead w acc lvl va) s = .next t)) ∧
    ∀ (t : State) (r : Response), exec (.translate .write lvl true va) s = .next t → Answers s t r →
      (∀ pa, r = .value pa →
        exec (requestWrite w lvl va v) s = exec (requestPwrite w pa v) { t with outcomes := s.outcomes }) ∧
      ((∀ pa, r ≠ .value pa) → exec (requestWrite w lvl va v) s = .next t)

/-- EXAMINE is a peek TRANSLATE of kind READ at level 0, then the physical byte read; DEPOSIT one of kind WRITE, then the physical byte
write. -/
def Obligations.DiagnosticAccessIsPeekThenPhysical : Prop :=
  ∀ (va v : Word) (s t : State) (r : Response),
    (exec (.translate .read 0 false va) s = .next t → Answers s t r →
      (∀ pa, r = .value pa → exec (.examine va) s = exec (.pread8 pa) { t with outcomes := s.outcomes }) ∧
      ((∀ pa, r ≠ .value pa) → exec (.examine va) s = .next t)) ∧
    (exec (.translate .write 0 false va) s = .next t → Answers s t r →
      (∀ pa, r = .value pa → exec (.deposit va v) s = exec (.pwrite8 pa v) { t with outcomes := s.outcomes }) ∧
      ((∀ pa, r ≠ .value pa) → exec (.deposit va v) s = .next t))

/-- A permitted access within the bound of a contiguous segment, the MMU enabled, completes: READ answers the RAM bytes at
`segBase + SOT`, WRITE stores there, wherever that datum is not the segment descriptor itself. -/
def Obligations.PermittedContiguousAccessCompletes : Prop :=
  ∀ (w : Width) (acc : AccessKind) (lvl : Level) (va v pa : Word) (s : State) (g : SegInHand),
    s.halted = false → s.enable = true → Memory.wf s.ram = true →
    (params.ssl va).toNat ≤ (params.sectLen (s.sramb.get (params.sid va))).toNat →
    tablesApart params s va = true → segmentOf params s va = some g → segmentUsable params g = true →
    params.objectTrap g.sd0 = false → params.contiguous g.sd0 = true → params.permits (params.rights g.sd0) acc lvl = true →
    (params.sot va).toNat ≤ (params.maxOff g.sd0).toNat → pa = params.segBase g.sd1 + params.sot va →
    pa.toNat % w.bytes = 0 → regionOf params pa = .ram →
    (pa.toNat + w.bytes ≤ g.sda.toNat ∨ g.sda.toNat + 4 ≤ pa.toNat) →
    (∃ (t : State) (x : Word), exec (requestRead w acc lvl va) s = .next t ∧ Answers s t (.value x) ∧ t.var = va ∧
      x.toNat = bigEndian s.ram pa.toNat w) ∧
    (acc = .write → ∃ t : State, exec (requestWrite w lvl va v) s = .next t ∧ Answers s t .done ∧ t.var = va ∧
      bigEndian t.ram pa.toNat w = v.toNat % 2 ^ (8 * w.bytes) ∧
      ∀ a, (a < pa.toNat ∨ pa.toNat + w.bytes ≤ a) → (a < g.sda.toNat ∨ g.sda.toNat + 4 ≤ a) →
        Memory.read t.ram a = Memory.read s.ram a)

/-! ### The end of a run -/

/-- How a run ends (R309, R361): after any number of steps from a launch state, the run has ended normally exactly when every request has
returned and none of the outcomes is a Stop or a refusal; a RESET after a Stop does not undo it. That the outcomes stay across RESET is
the model's reading (log 19). -/
def Obligations.StopIsNeverFinal : Prop :=
  (∀ (s : State) (k : Nat) (t : State), s.Launch → core.run k s = .next t →
    (t.EndsNormally ↔ t.requests = [] ∧ ∀ r ∈ t.outcomes, r ≠ .stop .indirectSd ∧ ∀ why, r ≠ .refused why)) ∧
  ∀ (s t : State) (r : Response), step s = .next t → Answers s t r → (r = .stop .indirectSd ∨ ∃ why, r = .refused why) →
    ∀ (k : Nat) (u : State), core.run k t = .next u → ¬ u.EndsNormally

/-! ### The open parameters -/

/-- The open parameters of R10 are an argument of the machine: `exec` and `step` are `execWith` and `stepWith` at the default
instantiation, whose CONF_EFFECT is none; two instantiations with the same parameters in force step alike; where those in force say
that the MMU does not translate, TRANSLATE answers its address whatever the enable flag; the value of CONF changes no TRANSLATE but
through CONF_EFFECT, no descriptor lying in the MMU window, where CONF itself can be read; and under any lawful register decode the
encoder and the decoder agree, and under any lawful map a register row is the physical access of its word. The form of CONF_EFFECT and
of the register decode is the model's (logs 18 and 22). -/
def Obligations.OpenParametersAreArguments : Prop :=
  (∀ (i : Instr) (s : State), exec i s = execWith setup i s) ∧ (∀ s : State, step s = stepWith setup s) ∧
  (∀ conf : Word, setup.under conf = params) ∧
  (∀ (C D : Setup) (s : State), C.under s.conf = D.under s.conf → stepWith C s = stepWith D s) ∧
  (∀ (C : Setup) (acc : AccessKind) (lvl : Level) (se : Bool) (va : Word) (s : State), s.halted = false →
    (C.under s.conf).enabled s.enable = false →
    execWith C (.translate acc lvl se va) s = .next { s with outcomes := .value va :: s.outcomes }) ∧
  (∀ (C : Setup) (acc : AccessKind) (lvl : Level) (se : Bool) (va conf : Word) (s t : State), C.under conf = C.under s.conf →
    inMmuWindow (C.under s.conf) (sdAddr (C.under s.conf) s va) = false →
    inMmuWindow (C.under s.conf) (sdAddr (C.under s.conf) s va + 4) = false →
    (∀ g u, resolveSegment (C.under s.conf) ⟨va, acc, lvl, se⟩ { s with var := if se then va else s.var } = .go g u →
      inMmuWindow (C.under s.conf) (pdAddr (C.under s.conf) va g.sd1) = false) →
    execWith C (.translate acc lvl se va) s = .next t →
    execWith C (.translate acc lvl se va) { s with conf := conf } = .next { t with conf := conf }) ∧
  (∀ P : Params, RegisterLayoutLaws P →
    (∀ i : Instr, i.wellFormed P = true → decode P (encode P i) = .ok i) ∧
    ∀ (r : Request) (i : Instr), decode P r = .ok i → encode P i = r ∧ i.wellFormed P = true) ∧
  ∀ (C : Setup) (pa v : Word) (s : State), PhysMapLaws (C.under s.conf) → isRegisterWord (C.under s.conf) pa = true →
    execWith C (registerReadRow (C.under s.conf) pa) s = execWith C (.pread32 pa) s ∧
    execWith C (registerWriteRow (C.under s.conf) pa v) s = execWith C (.pwrite32 pa v) s
end

