-- ==== Sys2Proof/Laws/Memory.lean ====
section
/-! SUPPORT. What the byte memory does: read after write, other addresses, the canonical form, and the wide accesses by bytes. -/

namespace Sys2Proof.Machine

theorem Memory.read_of_wfFrom {lo : Nat} {m : Memory} (h : Memory.wfFrom lo m = true) {x : Nat} (hx : x < lo)
    (fill : Nat → Byte) : Memory.read m x fill = fill x := by
  induction m generalizing lo with
  | nil => rfl
  | cons c m ih =>
    obtain ⟨k, b⟩ := c
    simp only [Memory.wfFrom, Bool.and_eq_true, decide_eq_true_eq] at h
    have hk : k ≠ x := by omega
    simp only [Memory.read, if_neg hk]
    exact ih h.2 (by omega)

theorem Memory.wfFrom_mono {lo lo' : Nat} {m : Memory} (h : Memory.wfFrom lo m = true) (hl : lo' ≤ lo) :
    Memory.wfFrom lo' m = true := by
  cases m with
  | nil => rfl
  | cons c m =>
    obtain ⟨k, b⟩ := c
    simp only [Memory.wfFrom, Bool.and_eq_true, decide_eq_true_eq] at h ⊢
    exact ⟨by omega, h.2⟩

theorem Memory.wfFrom_write {lo a : Nat} {m : Memory} (b : Byte) (h : Memory.wfFrom lo m = true) (ha : lo ≤ a) :
    Memory.wfFrom lo (Memory.write m a b) = true := by
  induction m generalizing lo with
  | nil => simp [Memory.write, Memory.wfFrom, ha]
  | cons c m ih =>
    obtain ⟨k, c⟩ := c
    simp only [Memory.wfFrom, Bool.and_eq_true, decide_eq_true_eq] at h
    simp only [Memory.write]
    split
    · simp [Memory.wfFrom, h.2, ha]; omega
    · split
      · subst_vars; simp [Memory.wfFrom, h.2, ha]
      · simp only [Memory.wfFrom, Bool.and_eq_true, decide_eq_true_eq]
        exact ⟨h.1, ih h.2 (by omega)⟩

/-- A write keeps the canonical form. -/
theorem Memory.wf_write {m : Memory} (a : Nat) (b : Byte) (h : Memory.wf m = true) : Memory.wf (Memory.write m a b) = true :=
  Memory.wfFrom_write b h (Nat.zero_le a)

/-- Reading after a write gives the byte written there and every other byte as before, whatever the form of the memory. -/
theorem Memory.read_write (m : Memory) (a : Nat) (b : Byte) (x : Nat) (fill : Nat → Byte) :
    Memory.read (Memory.write m a b) x fill = if x = a then b else Memory.read m x fill := by
  induction m with
  | nil => simp [Memory.write, Memory.read, eq_comm]
  | cons c m ih =>
    obtain ⟨k, c⟩ := c
    simp only [Memory.write]
    split
    · simp [Memory.read, eq_comm]
    · split
      · subst_vars
        by_cases hx : k = x
        · simp [Memory.read, hx]
        · simp [Memory.read, hx, Ne.symm hx]
      · simp only [Memory.read, ih]
        by_cases hx : x = a
        · subst hx; rw [if_neg (by omega), if_pos rfl]; simp
        · simp [hx]

/-- Another address reads as before after a write. -/
theorem Memory.read_write_other (m : Memory) {a x : Nat} (b : Byte) (fill : Nat → Byte) (hx : x ≠ a) :
    Memory.read (Memory.write m a b) x fill = Memory.read m x fill := by
  rw [Memory.read_write, if_neg hx]

/-- Two memories in canonical form that list the same bytes are the same list: equal memories are equal data. -/
theorem Memory.eq_of_wf {m n : Memory} (hm : Memory.wf m = true) (hn : Memory.wf n = true)
    (h : ∀ c, c ∈ m ↔ c ∈ n) : m = n := by
  suffices H : ∀ lo (m n : Memory), Memory.wfFrom lo m = true → Memory.wfFrom lo n = true → (∀ c, c ∈ m ↔ c ∈ n) → m = n from
    H 0 m n hm hn h
  have low : ∀ {lo : Nat} {l : Memory}, Memory.wfFrom lo l = true → ∀ c ∈ l, lo ≤ c.1 := by
    intro lo l hl
    induction l generalizing lo with
    | nil => simp
    | cons c l ih =>
      obtain ⟨k, b⟩ := c
      simp only [Memory.wfFrom, Bool.and_eq_true, decide_eq_true_eq] at hl
      intro d hd
      rcases List.mem_cons.1 hd with rfl | hd
      · exact hl.1
      · have := ih hl.2 d hd; omega
  intro lo m
  induction m generalizing lo with
  | nil => intro n _ _ h; cases n with
    | nil => rfl
    | cons d n => exact absurd ((h d).2 (.head _)) (by simp)
  | cons c m ih =>
    intro n hm hn h
    cases n with
    | nil => exact absurd ((h c).1 (.head _)) (by simp)
    | cons d n =>
      obtain ⟨k, b⟩ := c
      obtain ⟨j, e⟩ := d
      simp only [Memory.wfFrom, Bool.and_eq_true, decide_eq_true_eq] at hm hn
      have hkj : (k, b) = (j, e) := by
        rcases List.mem_cons.1 ((h (k, b)).1 (.head _)) with h1 | h1
        · exact h1
        rcases List.mem_cons.1 ((h (j, e)).2 (.head _)) with h2 | h2
        · exact h2.symm
        have l1 : j + 1 ≤ k := low hn.2 _ h1
        have l2 : k + 1 ≤ j := low hm.2 _ h2
        omega
      obtain ⟨rfl, rfl⟩ := Prod.mk.inj hkj
      congr 1
      refine ih (k + 1) n hm.2 hn.2 fun c => ?_
      constructor
      · intro hc
        rcases List.mem_cons.1 ((h c).1 (.tail _ hc)) with h1 | h1
        · have := low hm.2 _ hc; rw [h1] at this; simp at this
        · exact h1
      · intro hc
        rcases List.mem_cons.1 ((h c).2 (.tail _ hc)) with h1 | h1
        · have := low hn.2 _ hc; rw [h1] at this; simp at this
        · exact h1

/-- A wide write keeps the canonical form. -/
theorem Memory.wf_writeWide {m : Memory} (a : Nat) (w : Width) (v : Word) (h : Memory.wf m = true) :
    Memory.wf (Memory.writeWide m a w v) = true := by
  cases w <;> simp only [Memory.writeWide] <;> repeat apply Memory.wf_write
  all_goals exact h

/-- A wide write changes no byte outside its own. -/
theorem Memory.read_writeWide_other (m : Memory) {a x : Nat} (w : Width) (v : Word) (fill : Nat → Byte)
    (hx : x < a ∨ a + w.bytes ≤ x) : Memory.read (Memory.writeWide m a w v) x fill = Memory.read m x fill := by
  cases w <;> simp only [Memory.writeWide, Width.bytes] at hx ⊢ <;>
    repeat rw [Memory.read_write_other _ _ _ (by omega)]

/-- A word write stores the value most significant byte first (R73, R225). -/
theorem Memory.read_writeWide_word (m : Memory) (a : Nat) (v : Word) (fill : Nat → Byte) :
    Memory.read (Memory.writeWide m a .word v) a fill = v.extractLsb' 24 8 ∧
    Memory.read (Memory.writeWide m a .word v) (a + 1) fill = v.extractLsb' 16 8 ∧
    Memory.read (Memory.writeWide m a .word v) (a + 2) fill = v.extractLsb' 8 8 ∧
    Memory.read (Memory.writeWide m a .word v) (a + 3) fill = v.extractLsb' 0 8 := by
  simp [Memory.writeWide, Memory.read_write]

/-- A halfword write stores the low half, most significant byte first (R73, R225). -/
theorem Memory.read_writeWide_half (m : Memory) (a : Nat) (v : Word) (fill : Nat → Byte) :
    Memory.read (Memory.writeWide m a .half v) a fill = v.extractLsb' 8 8 ∧
    Memory.read (Memory.writeWide m a .half v) (a + 1) fill = v.extractLsb' 0 8 := by
  simp [Memory.writeWide, Memory.read_write]

/-- A byte write stores the low byte (R225). -/
theorem Memory.read_writeWide_byte (m : Memory) (a : Nat) (v : Word) (fill : Nat → Byte) :
    Memory.read (Memory.writeWide m a .byte v) a fill = v.extractLsb' 0 8 := by
  simp [Memory.writeWide, Memory.read_write]

/-- The four bytes of a word, put together again. -/
theorem word_of_bytes (v : Word) :
    v.extractLsb' 24 8 ++ v.extractLsb' 16 8 ++ v.extractLsb' 8 8 ++ v.extractLsb' 0 8 = v := by
  ext i hi
  simp only [BitVec.getElem_append, BitVec.getElem_extractLsb']
  split
  · simp [BitVec.getLsbD_eq_getElem, hi]
  · split
    · rw [show 8 + (i - 8) = i by omega]; exact BitVec.getLsbD_eq_getElem hi
    · split
      · rw [show 16 + (i - 8 - 8) = i by omega]; exact BitVec.getLsbD_eq_getElem hi
      · rw [show 24 + (i - 8 - 8 - 8) = i by omega]; exact BitVec.getLsbD_eq_getElem hi

end Sys2Proof.Machine
end

