-- ==== Sys2Proof/Laws/State.lean ====
section
/-! SUPPORT. The fields of State after each named update (Machine/Flags.lean), one lemma per field and update. -/

namespace Sys2Proof.Machine.State

@[simp] theorem setEnable_enable (s : State) (b : Bool) : (s.setEnable b).enable = b := rfl
@[simp] theorem setEnable_conf (s : State) (b : Bool) : (s.setEnable b).conf = s.conf := rfl
@[simp] theorem setEnable_fc (s : State) (b : Bool) : (s.setEnable b).fc = s.fc := rfl
@[simp] theorem setEnable_fa (s : State) (b : Bool) : (s.setEnable b).fa = s.fa := rfl
@[simp] theorem setEnable_var (s : State) (b : Bool) : (s.setEnable b).var = s.var := rfl
@[simp] theorem setEnable_srama (s : State) (b : Bool) : (s.setEnable b).srama = s.srama := rfl
@[simp] theorem setEnable_sramb (s : State) (b : Bool) : (s.setEnable b).sramb = s.sramb := rfl
@[simp] theorem setEnable_sdc (s : State) (b : Bool) : (s.setEnable b).sdc = s.sdc := rfl
@[simp] theorem setEnable_pdc (s : State) (b : Bool) : (s.setEnable b).pdc = s.pdc := rfl
@[simp] theorem setEnable_rom (s : State) (b : Bool) : (s.setEnable b).rom = s.rom := rfl
@[simp] theorem setEnable_ram (s : State) (b : Bool) : (s.setEnable b).ram = s.ram := rfl
@[simp] theorem setEnable_alignErr (s : State) (b : Bool) : (s.setEnable b).alignErr = s.alignErr := rfl
@[simp] theorem setEnable_halted (s : State) (b : Bool) : (s.setEnable b).halted = s.halted := rfl
@[simp] theorem setEnable_refusedMark (s : State) (b : Bool) : (s.setEnable b).refusedMark = s.refusedMark := rfl
@[simp] theorem setEnable_outcomes (s : State) (b : Bool) : (s.setEnable b).outcomes = s.outcomes := rfl
@[simp] theorem setEnable_ioLog (s : State) (b : Bool) : (s.setEnable b).ioLog = s.ioLog := rfl
@[simp] theorem setEnable_requests (s : State) (b : Bool) : (s.setEnable b).requests = s.requests := rfl
@[simp] theorem setEnable_draws (s : State) (b : Bool) : (s.setEnable b).draws = s.draws := rfl
@[simp] theorem setEnable_drawCount (s : State) (b : Bool) : (s.setEnable b).drawCount = s.drawCount := rfl

@[simp] theorem setConf_enable (s : State) (w : Word) : (s.setConf w).enable = s.enable := rfl
@[simp] theorem setConf_conf (s : State) (w : Word) : (s.setConf w).conf = w := rfl
@[simp] theorem setConf_fc (s : State) (w : Word) : (s.setConf w).fc = s.fc := rfl
@[simp] theorem setConf_fa (s : State) (w : Word) : (s.setConf w).fa = s.fa := rfl
@[simp] theorem setConf_var (s : State) (w : Word) : (s.setConf w).var = s.var := rfl
@[simp] theorem setConf_srama (s : State) (w : Word) : (s.setConf w).srama = s.srama := rfl
@[simp] theorem setConf_sramb (s : State) (w : Word) : (s.setConf w).sramb = s.sramb := rfl
@[simp] theorem setConf_sdc (s : State) (w : Word) : (s.setConf w).sdc = s.sdc := rfl
@[simp] theorem setConf_pdc (s : State) (w : Word) : (s.setConf w).pdc = s.pdc := rfl
@[simp] theorem setConf_rom (s : State) (w : Word) : (s.setConf w).rom = s.rom := rfl
@[simp] theorem setConf_ram (s : State) (w : Word) : (s.setConf w).ram = s.ram := rfl
@[simp] theorem setConf_alignErr (s : State) (w : Word) : (s.setConf w).alignErr = s.alignErr := rfl
@[simp] theorem setConf_halted (s : State) (w : Word) : (s.setConf w).halted = s.halted := rfl
@[simp] theorem setConf_refusedMark (s : State) (w : Word) : (s.setConf w).refusedMark = s.refusedMark := rfl
@[simp] theorem setConf_outcomes (s : State) (w : Word) : (s.setConf w).outcomes = s.outcomes := rfl
@[simp] theorem setConf_ioLog (s : State) (w : Word) : (s.setConf w).ioLog = s.ioLog := rfl
@[simp] theorem setConf_requests (s : State) (w : Word) : (s.setConf w).requests = s.requests := rfl
@[simp] theorem setConf_draws (s : State) (w : Word) : (s.setConf w).draws = s.draws := rfl
@[simp] theorem setConf_drawCount (s : State) (w : Word) : (s.setConf w).drawCount = s.drawCount := rfl

@[simp] theorem setFc_enable (s : State) (w : Word) : (s.setFc w).enable = s.enable := rfl
@[simp] theorem setFc_conf (s : State) (w : Word) : (s.setFc w).conf = s.conf := rfl
@[simp] theorem setFc_fc (s : State) (w : Word) : (s.setFc w).fc = w := rfl
@[simp] theorem setFc_fa (s : State) (w : Word) : (s.setFc w).fa = s.fa := rfl
@[simp] theorem setFc_var (s : State) (w : Word) : (s.setFc w).var = s.var := rfl
@[simp] theorem setFc_srama (s : State) (w : Word) : (s.setFc w).srama = s.srama := rfl
@[simp] theorem setFc_sramb (s : State) (w : Word) : (s.setFc w).sramb = s.sramb := rfl
@[simp] theorem setFc_sdc (s : State) (w : Word) : (s.setFc w).sdc = s.sdc := rfl
@[simp] theorem setFc_pdc (s : State) (w : Word) : (s.setFc w).pdc = s.pdc := rfl
@[simp] theorem setFc_rom (s : State) (w : Word) : (s.setFc w).rom = s.rom := rfl
@[simp] theorem setFc_ram (s : State) (w : Word) : (s.setFc w).ram = s.ram := rfl
@[simp] theorem setFc_alignErr (s : State) (w : Word) : (s.setFc w).alignErr = s.alignErr := rfl
@[simp] theorem setFc_halted (s : State) (w : Word) : (s.setFc w).halted = s.halted := rfl
@[simp] theorem setFc_refusedMark (s : State) (w : Word) : (s.setFc w).refusedMark = s.refusedMark := rfl
@[simp] theorem setFc_outcomes (s : State) (w : Word) : (s.setFc w).outcomes = s.outcomes := rfl
@[simp] theorem setFc_ioLog (s : State) (w : Word) : (s.setFc w).ioLog = s.ioLog := rfl
@[simp] theorem setFc_requests (s : State) (w : Word) : (s.setFc w).requests = s.requests := rfl
@[simp] theorem setFc_draws (s : State) (w : Word) : (s.setFc w).draws = s.draws := rfl
@[simp] theorem setFc_drawCount (s : State) (w : Word) : (s.setFc w).drawCount = s.drawCount := rfl

@[simp] theorem setFa_enable (s : State) (w : Word) : (s.setFa w).enable = s.enable := rfl
@[simp] theorem setFa_conf (s : State) (w : Word) : (s.setFa w).conf = s.conf := rfl
@[simp] theorem setFa_fc (s : State) (w : Word) : (s.setFa w).fc = s.fc := rfl
@[simp] theorem setFa_fa (s : State) (w : Word) : (s.setFa w).fa = w := rfl
@[simp] theorem setFa_var (s : State) (w : Word) : (s.setFa w).var = s.var := rfl
@[simp] theorem setFa_srama (s : State) (w : Word) : (s.setFa w).srama = s.srama := rfl
@[simp] theorem setFa_sramb (s : State) (w : Word) : (s.setFa w).sramb = s.sramb := rfl
@[simp] theorem setFa_sdc (s : State) (w : Word) : (s.setFa w).sdc = s.sdc := rfl
@[simp] theorem setFa_pdc (s : State) (w : Word) : (s.setFa w).pdc = s.pdc := rfl
@[simp] theorem setFa_rom (s : State) (w : Word) : (s.setFa w).rom = s.rom := rfl
@[simp] theorem setFa_ram (s : State) (w : Word) : (s.setFa w).ram = s.ram := rfl
@[simp] theorem setFa_alignErr (s : State) (w : Word) : (s.setFa w).alignErr = s.alignErr := rfl
@[simp] theorem setFa_halted (s : State) (w : Word) : (s.setFa w).halted = s.halted := rfl
@[simp] theorem setFa_refusedMark (s : State) (w : Word) : (s.setFa w).refusedMark = s.refusedMark := rfl
@[simp] theorem setFa_outcomes (s : State) (w : Word) : (s.setFa w).outcomes = s.outcomes := rfl
@[simp] theorem setFa_ioLog (s : State) (w : Word) : (s.setFa w).ioLog = s.ioLog := rfl
@[simp] theorem setFa_requests (s : State) (w : Word) : (s.setFa w).requests = s.requests := rfl
@[simp] theorem setFa_draws (s : State) (w : Word) : (s.setFa w).draws = s.draws := rfl
@[simp] theorem setFa_drawCount (s : State) (w : Word) : (s.setFa w).drawCount = s.drawCount := rfl

@[simp] theorem setVar_enable (s : State) (w : Word) : (s.setVar w).enable = s.enable := rfl
@[simp] theorem setVar_conf (s : State) (w : Word) : (s.setVar w).conf = s.conf := rfl
@[simp] theorem setVar_fc (s : State) (w : Word) : (s.setVar w).fc = s.fc := rfl
@[simp] theorem setVar_fa (s : State) (w : Word) : (s.setVar w).fa = s.fa := rfl
@[simp] theorem setVar_var (s : State) (w : Word) : (s.setVar w).var = w := rfl
@[simp] theorem setVar_srama (s : State) (w : Word) : (s.setVar w).srama = s.srama := rfl
@[simp] theorem setVar_sramb (s : State) (w : Word) : (s.setVar w).sramb = s.sramb := rfl
@[simp] theorem setVar_sdc (s : State) (w : Word) : (s.setVar w).sdc = s.sdc := rfl
@[simp] theorem setVar_pdc (s : State) (w : Word) : (s.setVar w).pdc = s.pdc := rfl
@[simp] theorem setVar_rom (s : State) (w : Word) : (s.setVar w).rom = s.rom := rfl
@[simp] theorem setVar_ram (s : State) (w : Word) : (s.setVar w).ram = s.ram := rfl
@[simp] theorem setVar_alignErr (s : State) (w : Word) : (s.setVar w).alignErr = s.alignErr := rfl
@[simp] theorem setVar_halted (s : State) (w : Word) : (s.setVar w).halted = s.halted := rfl
@[simp] theorem setVar_refusedMark (s : State) (w : Word) : (s.setVar w).refusedMark = s.refusedMark := rfl
@[simp] theorem setVar_outcomes (s : State) (w : Word) : (s.setVar w).outcomes = s.outcomes := rfl
@[simp] theorem setVar_ioLog (s : State) (w : Word) : (s.setVar w).ioLog = s.ioLog := rfl
@[simp] theorem setVar_requests (s : State) (w : Word) : (s.setVar w).requests = s.requests := rfl
@[simp] theorem setVar_draws (s : State) (w : Word) : (s.setVar w).draws = s.draws := rfl
@[simp] theorem setVar_drawCount (s : State) (w : Word) : (s.setVar w).drawCount = s.drawCount := rfl

@[simp] theorem setSrama_enable (s : State) (r : SectRegs) : (s.setSrama r).enable = s.enable := rfl
@[simp] theorem setSrama_conf (s : State) (r : SectRegs) : (s.setSrama r).conf = s.conf := rfl
@[simp] theorem setSrama_fc (s : State) (r : SectRegs) : (s.setSrama r).fc = s.fc := rfl
@[simp] theorem setSrama_fa (s : State) (r : SectRegs) : (s.setSrama r).fa = s.fa := rfl
@[simp] theorem setSrama_var (s : State) (r : SectRegs) : (s.setSrama r).var = s.var := rfl
@[simp] theorem setSrama_srama (s : State) (r : SectRegs) : (s.setSrama r).srama = r := rfl
@[simp] theorem setSrama_sramb (s : State) (r : SectRegs) : (s.setSrama r).sramb = s.sramb := rfl
@[simp] theorem setSrama_sdc (s : State) (r : SectRegs) : (s.setSrama r).sdc = s.sdc := rfl
@[simp] theorem setSrama_pdc (s : State) (r : SectRegs) : (s.setSrama r).pdc = s.pdc := rfl
@[simp] theorem setSrama_rom (s : State) (r : SectRegs) : (s.setSrama r).rom = s.rom := rfl
@[simp] theorem setSrama_ram (s : State) (r : SectRegs) : (s.setSrama r).ram = s.ram := rfl
@[simp] theorem setSrama_alignErr (s : State) (r : SectRegs) : (s.setSrama r).alignErr = s.alignErr := rfl
@[simp] theorem setSrama_halted (s : State) (r : SectRegs) : (s.setSrama r).halted = s.halted := rfl
@[simp] theorem setSrama_refusedMark (s : State) (r : SectRegs) : (s.setSrama r).refusedMark = s.refusedMark := rfl
@[simp] theorem setSrama_outcomes (s : State) (r : SectRegs) : (s.setSrama r).outcomes = s.outcomes := rfl
@[simp] theorem setSrama_ioLog (s : State) (r : SectRegs) : (s.setSrama r).ioLog = s.ioLog := rfl
@[simp] theorem setSrama_requests (s : State) (r : SectRegs) : (s.setSrama r).requests = s.requests := rfl
@[simp] theorem setSrama_draws (s : State) (r : SectRegs) : (s.setSrama r).draws = s.draws := rfl
@[simp] theorem setSrama_drawCount (s : State) (r : SectRegs) : (s.setSrama r).drawCount = s.drawCount := rfl

@[simp] theorem setSramb_enable (s : State) (r : SectRegs) : (s.setSramb r).enable = s.enable := rfl
@[simp] theorem setSramb_conf (s : State) (r : SectRegs) : (s.setSramb r).conf = s.conf := rfl
@[simp] theorem setSramb_fc (s : State) (r : SectRegs) : (s.setSramb r).fc = s.fc := rfl
@[simp] theorem setSramb_fa (s : State) (r : SectRegs) : (s.setSramb r).fa = s.fa := rfl
@[simp] theorem setSramb_var (s : State) (r : SectRegs) : (s.setSramb r).var = s.var := rfl
@[simp] theorem setSramb_srama (s : State) (r : SectRegs) : (s.setSramb r).srama = s.srama := rfl
@[simp] theorem setSramb_sramb (s : State) (r : SectRegs) : (s.setSramb r).sramb = r := rfl
@[simp] theorem setSramb_sdc (s : State) (r : SectRegs) : (s.setSramb r).sdc = s.sdc := rfl
@[simp] theorem setSramb_pdc (s : State) (r : SectRegs) : (s.setSramb r).pdc = s.pdc := rfl
@[simp] theorem setSramb_rom (s : State) (r : SectRegs) : (s.setSramb r).rom = s.rom := rfl
@[simp] theorem setSramb_ram (s : State) (r : SectRegs) : (s.setSramb r).ram = s.ram := rfl
@[simp] theorem setSramb_alignErr (s : State) (r : SectRegs) : (s.setSramb r).alignErr = s.alignErr := rfl
@[simp] theorem setSramb_halted (s : State) (r : SectRegs) : (s.setSramb r).halted = s.halted := rfl
@[simp] theorem setSramb_refusedMark (s : State) (r : SectRegs) : (s.setSramb r).refusedMark = s.refusedMark := rfl
@[simp] theorem setSramb_outcomes (s : State) (r : SectRegs) : (s.setSramb r).outcomes = s.outcomes := rfl
@[simp] theorem setSramb_ioLog (s : State) (r : SectRegs) : (s.setSramb r).ioLog = s.ioLog := rfl
@[simp] theorem setSramb_requests (s : State) (r : SectRegs) : (s.setSramb r).requests = s.requests := rfl
@[simp] theorem setSramb_draws (s : State) (r : SectRegs) : (s.setSramb r).draws = s.draws := rfl
@[simp] theorem setSramb_drawCount (s : State) (r : SectRegs) : (s.setSramb r).drawCount = s.drawCount := rfl

@[simp] theorem setSdc_enable (s : State) (l : List SegEntry) : (s.setSdc l).enable = s.enable := rfl
@[simp] theorem setSdc_conf (s : State) (l : List SegEntry) : (s.setSdc l).conf = s.conf := rfl
@[simp] theorem setSdc_fc (s : State) (l : List SegEntry) : (s.setSdc l).fc = s.fc := rfl
@[simp] theorem setSdc_fa (s : State) (l : List SegEntry) : (s.setSdc l).fa = s.fa := rfl
@[simp] theorem setSdc_var (s : State) (l : List SegEntry) : (s.setSdc l).var = s.var := rfl
@[simp] theorem setSdc_srama (s : State) (l : List SegEntry) : (s.setSdc l).srama = s.srama := rfl
@[simp] theorem setSdc_sramb (s : State) (l : List SegEntry) : (s.setSdc l).sramb = s.sramb := rfl
@[simp] theorem setSdc_sdc (s : State) (l : List SegEntry) : (s.setSdc l).sdc = l := rfl
@[simp] theorem setSdc_pdc (s : State) (l : List SegEntry) : (s.setSdc l).pdc = s.pdc := rfl
@[simp] theorem setSdc_rom (s : State) (l : List SegEntry) : (s.setSdc l).rom = s.rom := rfl
@[simp] theorem setSdc_ram (s : State) (l : List SegEntry) : (s.setSdc l).ram = s.ram := rfl
@[simp] theorem setSdc_alignErr (s : State) (l : List SegEntry) : (s.setSdc l).alignErr = s.alignErr := rfl
@[simp] theorem setSdc_halted (s : State) (l : List SegEntry) : (s.setSdc l).halted = s.halted := rfl
@[simp] theorem setSdc_refusedMark (s : State) (l : List SegEntry) : (s.setSdc l).refusedMark = s.refusedMark := rfl
@[simp] theorem setSdc_outcomes (s : State) (l : List SegEntry) : (s.setSdc l).outcomes = s.outcomes := rfl
@[simp] theorem setSdc_ioLog (s : State) (l : List SegEntry) : (s.setSdc l).ioLog = s.ioLog := rfl
@[simp] theorem setSdc_requests (s : State) (l : List SegEntry) : (s.setSdc l).requests = s.requests := rfl
@[simp] theorem setSdc_draws (s : State) (l : List SegEntry) : (s.setSdc l).draws = s.draws := rfl
@[simp] theorem setSdc_drawCount (s : State) (l : List SegEntry) : (s.setSdc l).drawCount = s.drawCount := rfl

@[simp] theorem setPdc_enable (s : State) (l : List PageEntry) : (s.setPdc l).enable = s.enable := rfl
@[simp] theorem setPdc_conf (s : State) (l : List PageEntry) : (s.setPdc l).conf = s.conf := rfl
@[simp] theorem setPdc_fc (s : State) (l : List PageEntry) : (s.setPdc l).fc = s.fc := rfl
@[simp] theorem setPdc_fa (s : State) (l : List PageEntry) : (s.setPdc l).fa = s.fa := rfl
@[simp] theorem setPdc_var (s : State) (l : List PageEntry) : (s.setPdc l).var = s.var := rfl
@[simp] theorem setPdc_srama (s : State) (l : List PageEntry) : (s.setPdc l).srama = s.srama := rfl
@[simp] theorem setPdc_sramb (s : State) (l : List PageEntry) : (s.setPdc l).sramb = s.sramb := rfl
@[simp] theorem setPdc_sdc (s : State) (l : List PageEntry) : (s.setPdc l).sdc = s.sdc := rfl
@[simp] theorem setPdc_pdc (s : State) (l : List PageEntry) : (s.setPdc l).pdc = l := rfl
@[simp] theorem setPdc_rom (s : State) (l : List PageEntry) : (s.setPdc l).rom = s.rom := rfl
@[simp] theorem setPdc_ram (s : State) (l : List PageEntry) : (s.setPdc l).ram = s.ram := rfl
@[simp] theorem setPdc_alignErr (s : State) (l : List PageEntry) : (s.setPdc l).alignErr = s.alignErr := rfl
@[simp] theorem setPdc_halted (s : State) (l : List PageEntry) : (s.setPdc l).halted = s.halted := rfl
@[simp] theorem setPdc_refusedMark (s : State) (l : List PageEntry) : (s.setPdc l).refusedMark = s.refusedMark := rfl
@[simp] theorem setPdc_outcomes (s : State) (l : List PageEntry) : (s.setPdc l).outcomes = s.outcomes := rfl
@[simp] theorem setPdc_ioLog (s : State) (l : List PageEntry) : (s.setPdc l).ioLog = s.ioLog := rfl
@[simp] theorem setPdc_requests (s : State) (l : List PageEntry) : (s.setPdc l).requests = s.requests := rfl
@[simp] theorem setPdc_draws (s : State) (l : List PageEntry) : (s.setPdc l).draws = s.draws := rfl
@[simp] theorem setPdc_drawCount (s : State) (l : List PageEntry) : (s.setPdc l).drawCount = s.drawCount := rfl

@[simp] theorem setRam_enable (s : State) (m : Memory) : (s.setRam m).enable = s.enable := rfl
@[simp] theorem setRam_conf (s : State) (m : Memory) : (s.setRam m).conf = s.conf := rfl
@[simp] theorem setRam_fc (s : State) (m : Memory) : (s.setRam m).fc = s.fc := rfl
@[simp] theorem setRam_fa (s : State) (m : Memory) : (s.setRam m).fa = s.fa := rfl
@[simp] theorem setRam_var (s : State) (m : Memory) : (s.setRam m).var = s.var := rfl
@[simp] theorem setRam_srama (s : State) (m : Memory) : (s.setRam m).srama = s.srama := rfl
@[simp] theorem setRam_sramb (s : State) (m : Memory) : (s.setRam m).sramb = s.sramb := rfl
@[simp] theorem setRam_sdc (s : State) (m : Memory) : (s.setRam m).sdc = s.sdc := rfl
@[simp] theorem setRam_pdc (s : State) (m : Memory) : (s.setRam m).pdc = s.pdc := rfl
@[simp] theorem setRam_rom (s : State) (m : Memory) : (s.setRam m).rom = s.rom := rfl
@[simp] theorem setRam_ram (s : State) (m : Memory) : (s.setRam m).ram = m := rfl
@[simp] theorem setRam_alignErr (s : State) (m : Memory) : (s.setRam m).alignErr = s.alignErr := rfl
@[simp] theorem setRam_halted (s : State) (m : Memory) : (s.setRam m).halted = s.halted := rfl
@[simp] theorem setRam_refusedMark (s : State) (m : Memory) : (s.setRam m).refusedMark = s.refusedMark := rfl
@[simp] theorem setRam_outcomes (s : State) (m : Memory) : (s.setRam m).outcomes = s.outcomes := rfl
@[simp] theorem setRam_ioLog (s : State) (m : Memory) : (s.setRam m).ioLog = s.ioLog := rfl
@[simp] theorem setRam_requests (s : State) (m : Memory) : (s.setRam m).requests = s.requests := rfl
@[simp] theorem setRam_draws (s : State) (m : Memory) : (s.setRam m).draws = s.draws := rfl
@[simp] theorem setRam_drawCount (s : State) (m : Memory) : (s.setRam m).drawCount = s.drawCount := rfl

@[simp] theorem setAlignErr_enable (s : State) (b : Bool) : (s.setAlignErr b).enable = s.enable := rfl
@[simp] theorem setAlignErr_conf (s : State) (b : Bool) : (s.setAlignErr b).conf = s.conf := rfl
@[simp] theorem setAlignErr_fc (s : State) (b : Bool) : (s.setAlignErr b).fc = s.fc := rfl
@[simp] theorem setAlignErr_fa (s : State) (b : Bool) : (s.setAlignErr b).fa = s.fa := rfl
@[simp] theorem setAlignErr_var (s : State) (b : Bool) : (s.setAlignErr b).var = s.var := rfl
@[simp] theorem setAlignErr_srama (s : State) (b : Bool) : (s.setAlignErr b).srama = s.srama := rfl
@[simp] theorem setAlignErr_sramb (s : State) (b : Bool) : (s.setAlignErr b).sramb = s.sramb := rfl
@[simp] theorem setAlignErr_sdc (s : State) (b : Bool) : (s.setAlignErr b).sdc = s.sdc := rfl
@[simp] theorem setAlignErr_pdc (s : State) (b : Bool) : (s.setAlignErr b).pdc = s.pdc := rfl
@[simp] theorem setAlignErr_rom (s : State) (b : Bool) : (s.setAlignErr b).rom = s.rom := rfl
@[simp] theorem setAlignErr_ram (s : State) (b : Bool) : (s.setAlignErr b).ram = s.ram := rfl
@[simp] theorem setAlignErr_alignErr (s : State) (b : Bool) : (s.setAlignErr b).alignErr = b := rfl
@[simp] theorem setAlignErr_halted (s : State) (b : Bool) : (s.setAlignErr b).halted = s.halted := rfl
@[simp] theorem setAlignErr_refusedMark (s : State) (b : Bool) : (s.setAlignErr b).refusedMark = s.refusedMark := rfl
@[simp] theorem setAlignErr_outcomes (s : State) (b : Bool) : (s.setAlignErr b).outcomes = s.outcomes := rfl
@[simp] theorem setAlignErr_ioLog (s : State) (b : Bool) : (s.setAlignErr b).ioLog = s.ioLog := rfl
@[simp] theorem setAlignErr_requests (s : State) (b : Bool) : (s.setAlignErr b).requests = s.requests := rfl
@[simp] theorem setAlignErr_draws (s : State) (b : Bool) : (s.setAlignErr b).draws = s.draws := rfl
@[simp] theorem setAlignErr_drawCount (s : State) (b : Bool) : (s.setAlignErr b).drawCount = s.drawCount := rfl

@[simp] theorem setHalted_enable (s : State) (b : Bool) : (s.setHalted b).enable = s.enable := rfl
@[simp] theorem setHalted_conf (s : State) (b : Bool) : (s.setHalted b).conf = s.conf := rfl
@[simp] theorem setHalted_fc (s : State) (b : Bool) : (s.setHalted b).fc = s.fc := rfl
@[simp] theorem setHalted_fa (s : State) (b : Bool) : (s.setHalted b).fa = s.fa := rfl
@[simp] theorem setHalted_var (s : State) (b : Bool) : (s.setHalted b).var = s.var := rfl
@[simp] theorem setHalted_srama (s : State) (b : Bool) : (s.setHalted b).srama = s.srama := rfl
@[simp] theorem setHalted_sramb (s : State) (b : Bool) : (s.setHalted b).sramb = s.sramb := rfl
@[simp] theorem setHalted_sdc (s : State) (b : Bool) : (s.setHalted b).sdc = s.sdc := rfl
@[simp] theorem setHalted_pdc (s : State) (b : Bool) : (s.setHalted b).pdc = s.pdc := rfl
@[simp] theorem setHalted_rom (s : State) (b : Bool) : (s.setHalted b).rom = s.rom := rfl
@[simp] theorem setHalted_ram (s : State) (b : Bool) : (s.setHalted b).ram = s.ram := rfl
@[simp] theorem setHalted_alignErr (s : State) (b : Bool) : (s.setHalted b).alignErr = s.alignErr := rfl
@[simp] theorem setHalted_halted (s : State) (b : Bool) : (s.setHalted b).halted = b := rfl
@[simp] theorem setHalted_refusedMark (s : State) (b : Bool) : (s.setHalted b).refusedMark = s.refusedMark := rfl
@[simp] theorem setHalted_outcomes (s : State) (b : Bool) : (s.setHalted b).outcomes = s.outcomes := rfl
@[simp] theorem setHalted_ioLog (s : State) (b : Bool) : (s.setHalted b).ioLog = s.ioLog := rfl
@[simp] theorem setHalted_requests (s : State) (b : Bool) : (s.setHalted b).requests = s.requests := rfl
@[simp] theorem setHalted_draws (s : State) (b : Bool) : (s.setHalted b).draws = s.draws := rfl
@[simp] theorem setHalted_drawCount (s : State) (b : Bool) : (s.setHalted b).drawCount = s.drawCount := rfl

@[simp] theorem setRequests_enable (s : State) (l : List Request) : (s.setRequests l).enable = s.enable := rfl
@[simp] theorem setRequests_conf (s : State) (l : List Request) : (s.setRequests l).conf = s.conf := rfl
@[simp] theorem setRequests_fc (s : State) (l : List Request) : (s.setRequests l).fc = s.fc := rfl
@[simp] theorem setRequests_fa (s : State) (l : List Request) : (s.setRequests l).fa = s.fa := rfl
@[simp] theorem setRequests_var (s : State) (l : List Request) : (s.setRequests l).var = s.var := rfl
@[simp] theorem setRequests_srama (s : State) (l : List Request) : (s.setRequests l).srama = s.srama := rfl
@[simp] theorem setRequests_sramb (s : State) (l : List Request) : (s.setRequests l).sramb = s.sramb := rfl
@[simp] theorem setRequests_sdc (s : State) (l : List Request) : (s.setRequests l).sdc = s.sdc := rfl
@[simp] theorem setRequests_pdc (s : State) (l : List Request) : (s.setRequests l).pdc = s.pdc := rfl
@[simp] theorem setRequests_rom (s : State) (l : List Request) : (s.setRequests l).rom = s.rom := rfl
@[simp] theorem setRequests_ram (s : State) (l : List Request) : (s.setRequests l).ram = s.ram := rfl
@[simp] theorem setRequests_alignErr (s : State) (l : List Request) : (s.setRequests l).alignErr = s.alignErr := rfl
@[simp] theorem setRequests_halted (s : State) (l : List Request) : (s.setRequests l).halted = s.halted := rfl
@[simp] theorem setRequests_refusedMark (s : State) (l : List Request) : (s.setRequests l).refusedMark = s.refusedMark := rfl
@[simp] theorem setRequests_outcomes (s : State) (l : List Request) : (s.setRequests l).outcomes = s.outcomes := rfl
@[simp] theorem setRequests_ioLog (s : State) (l : List Request) : (s.setRequests l).ioLog = s.ioLog := rfl
@[simp] theorem setRequests_requests (s : State) (l : List Request) : (s.setRequests l).requests = l := rfl
@[simp] theorem setRequests_draws (s : State) (l : List Request) : (s.setRequests l).draws = s.draws := rfl
@[simp] theorem setRequests_drawCount (s : State) (l : List Request) : (s.setRequests l).drawCount = s.drawCount := rfl

@[simp] theorem logIo_enable (s : State) (e : IoEvent) : (s.logIo e).enable = s.enable := rfl
@[simp] theorem logIo_conf (s : State) (e : IoEvent) : (s.logIo e).conf = s.conf := rfl
@[simp] theorem logIo_fc (s : State) (e : IoEvent) : (s.logIo e).fc = s.fc := rfl
@[simp] theorem logIo_fa (s : State) (e : IoEvent) : (s.logIo e).fa = s.fa := rfl
@[simp] theorem logIo_var (s : State) (e : IoEvent) : (s.logIo e).var = s.var := rfl
@[simp] theorem logIo_srama (s : State) (e : IoEvent) : (s.logIo e).srama = s.srama := rfl
@[simp] theorem logIo_sramb (s : State) (e : IoEvent) : (s.logIo e).sramb = s.sramb := rfl
@[simp] theorem logIo_sdc (s : State) (e : IoEvent) : (s.logIo e).sdc = s.sdc := rfl
@[simp] theorem logIo_pdc (s : State) (e : IoEvent) : (s.logIo e).pdc = s.pdc := rfl
@[simp] theorem logIo_rom (s : State) (e : IoEvent) : (s.logIo e).rom = s.rom := rfl
@[simp] theorem logIo_ram (s : State) (e : IoEvent) : (s.logIo e).ram = s.ram := rfl
@[simp] theorem logIo_alignErr (s : State) (e : IoEvent) : (s.logIo e).alignErr = s.alignErr := rfl
@[simp] theorem logIo_halted (s : State) (e : IoEvent) : (s.logIo e).halted = s.halted := rfl
@[simp] theorem logIo_refusedMark (s : State) (e : IoEvent) : (s.logIo e).refusedMark = s.refusedMark := rfl
@[simp] theorem logIo_outcomes (s : State) (e : IoEvent) : (s.logIo e).outcomes = s.outcomes := rfl
@[simp] theorem logIo_ioLog (s : State) (e : IoEvent) : (s.logIo e).ioLog = e :: s.ioLog := rfl
@[simp] theorem logIo_requests (s : State) (e : IoEvent) : (s.logIo e).requests = s.requests := rfl
@[simp] theorem logIo_draws (s : State) (e : IoEvent) : (s.logIo e).draws = s.draws := rfl
@[simp] theorem logIo_drawCount (s : State) (e : IoEvent) : (s.logIo e).drawCount = s.drawCount := rfl

@[simp] theorem respond_enable (s : State) (r : Response) : (s.respond r).enable = s.enable := rfl
@[simp] theorem respond_conf (s : State) (r : Response) : (s.respond r).conf = s.conf := rfl
@[simp] theorem respond_fc (s : State) (r : Response) : (s.respond r).fc = s.fc := rfl
@[simp] theorem respond_fa (s : State) (r : Response) : (s.respond r).fa = s.fa := rfl
@[simp] theorem respond_var (s : State) (r : Response) : (s.respond r).var = s.var := rfl
@[simp] theorem respond_srama (s : State) (r : Response) : (s.respond r).srama = s.srama := rfl
@[simp] theorem respond_sramb (s : State) (r : Response) : (s.respond r).sramb = s.sramb := rfl
@[simp] theorem respond_sdc (s : State) (r : Response) : (s.respond r).sdc = s.sdc := rfl
@[simp] theorem respond_pdc (s : State) (r : Response) : (s.respond r).pdc = s.pdc := rfl
@[simp] theorem respond_rom (s : State) (r : Response) : (s.respond r).rom = s.rom := rfl
@[simp] theorem respond_ram (s : State) (r : Response) : (s.respond r).ram = s.ram := rfl
@[simp] theorem respond_alignErr (s : State) (r : Response) : (s.respond r).alignErr = s.alignErr := rfl
@[simp] theorem respond_halted (s : State) (r : Response) : (s.respond r).halted = s.halted := rfl
@[simp] theorem respond_refusedMark (s : State) (r : Response) : (s.respond r).refusedMark = (s.refusedMark || r.isRefusal) := rfl
@[simp] theorem respond_outcomes (s : State) (r : Response) : (s.respond r).outcomes = r :: s.outcomes := rfl
@[simp] theorem respond_ioLog (s : State) (r : Response) : (s.respond r).ioLog = s.ioLog := rfl
@[simp] theorem respond_requests (s : State) (r : Response) : (s.respond r).requests = s.requests := rfl
@[simp] theorem respond_draws (s : State) (r : Response) : (s.respond r).draws = s.draws := rfl
@[simp] theorem respond_drawCount (s : State) (r : Response) : (s.respond r).drawCount = s.drawCount := rfl

/-! A draw changes what is left of the free inputs and nothing else. -/

@[simp] theorem draw_enable (s : State) : s.draw.2.enable = s.enable := by unfold State.draw; split <;> rfl
@[simp] theorem draw_conf (s : State) : s.draw.2.conf = s.conf := by unfold State.draw; split <;> rfl
@[simp] theorem draw_fc (s : State) : s.draw.2.fc = s.fc := by unfold State.draw; split <;> rfl
@[simp] theorem draw_fa (s : State) : s.draw.2.fa = s.fa := by unfold State.draw; split <;> rfl
@[simp] theorem draw_var (s : State) : s.draw.2.var = s.var := by unfold State.draw; split <;> rfl
@[simp] theorem draw_srama (s : State) : s.draw.2.srama = s.srama := by unfold State.draw; split <;> rfl
@[simp] theorem draw_sramb (s : State) : s.draw.2.sramb = s.sramb := by unfold State.draw; split <;> rfl
@[simp] theorem draw_sdc (s : State) : s.draw.2.sdc = s.sdc := by unfold State.draw; split <;> rfl
@[simp] theorem draw_pdc (s : State) : s.draw.2.pdc = s.pdc := by unfold State.draw; split <;> rfl
@[simp] theorem draw_rom (s : State) : s.draw.2.rom = s.rom := by unfold State.draw; split <;> rfl
@[simp] theorem draw_ram (s : State) : s.draw.2.ram = s.ram := by unfold State.draw; split <;> rfl
@[simp] theorem draw_alignErr (s : State) : s.draw.2.alignErr = s.alignErr := by unfold State.draw; split <;> rfl
@[simp] theorem draw_halted (s : State) : s.draw.2.halted = s.halted := by unfold State.draw; split <;> rfl
@[simp] theorem draw_refusedMark (s : State) : s.draw.2.refusedMark = s.refusedMark := by unfold State.draw; split <;> rfl
@[simp] theorem draw_outcomes (s : State) : s.draw.2.outcomes = s.outcomes := by unfold State.draw; split <;> rfl
@[simp] theorem draw_ioLog (s : State) : s.draw.2.ioLog = s.ioLog := by unfold State.draw; split <;> rfl
@[simp] theorem draw_requests (s : State) : s.draw.2.requests = s.requests := by unfold State.draw; split <;> rfl

theorem draw_cons (s : State) (d : Nat) (ds : List Nat) (h : s.draws = d :: ds) : s.draw = (d, { s with draws := ds }) := by
  unfold State.draw; rw [h]

theorem draw_nil (s : State) (h : s.draws = []) :
    s.draw = (Config.freeNat s.drawCount, { s with drawCount := s.drawCount + 1 }) := by
  unfold State.draw; rw [h]

/-- A draw changes nothing but the free inputs left. -/
theorem draw_eq (s : State) : s.draw.2 = { s with draws := s.draw.2.draws, drawCount := s.draw.2.drawCount } := by
  cases h : s.draws with
  | nil => rw [draw_nil s h]
  | cons d ds => rw [draw_cons s d ds h]

@[simp] theorem drawWord_snd (s : State) : s.drawWord.2 = s.draw.2 := rfl

@[simp] theorem drawWord_fst (s : State) : s.drawWord.1 = BitVec.ofNat 32 s.draw.1 := rfl

end Sys2Proof.Machine.State
end

