-- ==== Sys2Proof/Laws/Requests.lean ====
section
/-! SUPPORT. How parts of a request compose and end, and what `perform` answers. -/

namespace Sys2Proof.Machine

@[simp] theorem Res.bind_go {α β : Type} (x : α) (s : State) (k : α → State → Res β) : (Res.go x s).bind k = k x s := rfl

@[simp] theorem Res.bind_ended {α β : Type} (r : Response) (s : State) (k : α → State → Res β) :
    (Res.ended r s : Res α).bind k = .ended r s := rfl

@[simp] theorem Res.state_go {α : Type} (x : α) (s : State) : (Res.go x s).state = s := rfl

@[simp] theorem Res.state_ended {α : Type} (r : Response) (s : State) : (Res.ended r s : Res α).state = s := rfl

@[simp] theorem Res.close_go (r : Response) (s : State) : (Res.go r s).close = s.respond r := rfl

@[simp] theorem Res.close_ended (r : Response) (s : State) : (Res.ended r s).close = s.respond r := rfl

/-- The outcome a part that has run to its end gives. -/
def Res.answer (m : Res Response) : Response :=
  match m with
  | .go r _ => r
  | .ended r _ => r

@[simp] theorem Res.answer_go (r : Response) (s : State) : (Res.go r s).answer = r := rfl

@[simp] theorem Res.answer_ended (r : Response) (s : State) : (Res.ended r s : Res Response).answer = r := rfl

/-- Closing a request records its outcome in the state written so far. -/
theorem Res.close_eq (m : Res Response) : m.close = m.state.respond m.answer := by
  cases m <;> rfl

/-- A bind goes on exactly when both parts do. -/
theorem Res.bind_eq_go {α β : Type} {m : Res α} {k : α → State → Res β} {y : β} {t : State} (h : m.bind k = .go y t) :
    ∃ x s, m = .go x s ∧ k x s = .go y t := by
  cases m with
  | go x s => exact ⟨x, s, rfl, h⟩
  | ended r s => cases h

/-- A bind ends in the first part or in the second. -/
theorem Res.bind_eq_ended {α β : Type} {m : Res α} {k : α → State → Res β} {r : Response} {t : State} (h : m.bind k = .ended r t) :
    m = .ended r t ∨ ∃ x s, m = .go x s ∧ k x s = .ended r t := by
  cases m with
  | go x s => exact .inr ⟨x, s, rfl, h⟩
  | ended r' s => exact .inl (by simpa using h)

theorem Res.bind_assoc {α β γ : Type} (m : Res α) (k : α → State → Res β) (l : β → State → Res γ) :
    (m.bind k).bind l = m.bind fun x s => (k x s).bind l := by
  cases m <;> rfl

@[simp] theorem answerValue_go (x : Word) (s : State) : answerValue (.go x s) = .go (.value x) s := rfl

@[simp] theorem answerValue_ended (r : Response) (s : State) : answerValue (.ended r s) = .ended r s := rfl

@[simp] theorem answerDone_go (s : State) : answerDone (.go () s) = .go .done s := rfl

@[simp] theorem answerDone_ended (r : Response) (s : State) : answerDone (.ended r s) = .ended r s := rfl

@[simp] theorem answerRead_eq (r : Word × State) : answerRead r = .go (.value r.1) r.2 := rfl

@[simp] theorem answerWrite_eq (s : State) : answerWrite s = .go .done s := rfl

/-- What a request answers while the block is not halted. -/
theorem perform_running {s : State} (h : s.halted = false) (body : State → Res Response) :
    perform s body = .next (body s).close := by
  simp [perform, h]

/-- What a request answers while the block is halted (R44). -/
theorem perform_halted {s : State} (h : s.halted = true) (body : State → Res Response) :
    perform s body = .next (s.respond (.refused .halted)) := by
  simp [perform, h]

/-- CONF changes no parameter by default (D12). -/
@[simp] theorem setup_under (conf : Word) : setup.under conf = params := rfl

/-- The enable flag alone says whether the MMU translates by default (R171). -/
@[simp] theorem params_enabled (flag : Bool) : params.enabled flag = flag := rfl

/-- `fail(code)` with side effects (R305). -/
theorem failWith_se {α : Type} (P : Params) {x : Access} (h : x.se = true) (c : TransFault) (s : State) :
    (failWith P x c s : Res α) = .ended (.fault c) (recordFault P c x.va s) := by
  simp [failWith, h]

/-- `fail(code)` in a peek (R304). -/
theorem failWith_peek {α : Type} (P : Params) {x : Access} (h : x.se = false) (c : TransFault) (s : State) :
    (failWith P x c s : Res α) = .ended (.fail c) s := by
  simp [failWith, h]

/-- The router on a misaligned access (R221). -/
theorem physRead_misaligned (P : Params) {pa : Word} {w : Width} (h : w.aligned pa = false) (s : State) :
    physRead P pa w s = abortEmf s := by
  simp [physRead, h]

/-- The router on a misaligned access (R221). -/
theorem physWrite_misaligned (P : Params) {pa : Word} {w : Width} (h : w.aligned pa = false) (v : Word) (s : State) :
    physWrite P pa w v s = abortEmf s := by
  simp [physWrite, h]

/-- A word read of plain memory goes on with the word and writes nothing. -/
theorem physRead_plain {P : Params} {pa : Word} {s : State} {v : Word} (ha : Width.word.aligned pa = true)
    (h : plainWord P s pa = some v) : physRead P pa .word s = .go v s := by
  unfold plainWord at h
  unfold physRead
  rw [if_pos ha]
  cases hr : regionOf P pa <;> simp_all

end Sys2Proof.Machine
end

