-- ==== Sys2Proof/Laws/Caches.lean ====
section
/-! SUPPORT. What an insertion can leave of a cache: some of its entries, in their order, and each such part is the choice of a draw. -/

namespace Sys2Proof.Machine

/-- A drawn set leaves a part of the entries. -/
theorem dropDrawn_sublist {α : Type} (d : Nat) (l : List α) : (dropDrawn d l).Sublist l := by
  induction l generalizing d with
  | nil => exact .slnil
  | cons e l ih =>
    unfold dropDrawn
    split
    · exact (ih _).cons e
    · exact (ih _).cons_cons e

/-- Every part of the entries is what some drawn set leaves. -/
theorem exists_dropDrawn {α : Type} {kept l : List α} (h : kept.Sublist l) : ∃ d, dropDrawn d l = kept := by
  induction h with
  | slnil => exact ⟨0, rfl⟩
  | cons e _ ih =>
    obtain ⟨d, ih⟩ := ih
    refine ⟨2 * d + 1, ?_⟩
    rw [dropDrawn, if_pos (by omega), show (2 * d + 1) / 2 = d by omega, ih]
  | cons_cons e _ ih =>
    obtain ⟨d, ih⟩ := ih
    refine ⟨2 * d, ?_⟩
    rw [dropDrawn, if_neg (by omega), show 2 * d / 2 = d by omega, ih]

/-- What survives an insertion is a part of the entries of other keys. -/
theorem evict_sublist {α : Type} (cap d : Nat) (l : List α) : (evict cap d l).Sublist l := by
  unfold evict
  dsimp only
  split
  · exact (List.eraseIdx_sublist _ _).trans (dropDrawn_sublist d l)
  · exact dropDrawn_sublist d l

/-- An insertion puts its entry before a part of the SDC. -/
theorem insertSegment_sdc (k : SegKey) (a b : Word) (s : State) :
    ∃ kept, kept.Sublist s.sdc ∧ (insertSegment k a b s).sdc = ⟨k, a, b⟩ :: kept :=
  ⟨_, (evict_sublist _ _ _).trans List.filter_sublist, rfl⟩

/-- An insertion puts its entry before a part of the PDC. -/
theorem insertPage_pdc (k : PageKey) (pd r : Word) (s : State) :
    ∃ kept, kept.Sublist s.pdc ∧ (insertPage k pd r s).pdc = ⟨k, pd, r⟩ :: kept :=
  ⟨_, (evict_sublist _ _ _).trans List.filter_sublist, rfl⟩

end Sys2Proof.Machine
end

