-- ==== Sys2Proof/Laws/Translator.lean ====
section
/-! SUPPORT. Everything the parts of a request can do, said once: a contract says what holds from the state before to the state after
where a part goes on (`R`) and where it ends the request with an outcome (`E`). A contract that the block's primitive updates meet is
met by every part, so a rule about all requests is a matter of these updates. -/

namespace Sys2Proof.Machine

/-- The part, run from `s`, keeps the contract. -/
def Res.Meets {α : Type} (R : State → State → Prop) (E : State → Response → State → Prop) (s : State) : Res α → Prop
  | .go _ t => R s t
  | .ended r t => E s r t

/-- Each primitive update that the router, the caches and the translation `x` make keeps the contract. -/
structure Contract (P : Params) (x : Access) (R : State → State → Prop) (E : State → Response → State → Prop) : Prop where
  refl : ∀ s, R s s
  trans : ∀ {s t u}, R s t → R t u → R s u
  after : ∀ {s t r u}, R s t → E t r u → E s r u
  fault : ∀ c s, x.se = true → E s (.fault c) (recordFault P c x.va s)
  fail : ∀ c s, x.se = false → E s (.fail c) s
  abort : ∀ s, E s (.abort .emf) (s.setAlignErr true)
  stop : ∀ s, E s (.stop .indirectSd) (s.setHalted true)
  subword : ∀ s, E s (.refused .mmuSubword) s
  var : ∀ s, x.se = true → R s (s.setVar x.va)
  draw : ∀ s : State, R s s.draw.2
  ioWrite : ∀ (s : State) e, R s (s.logIo e)
  ramWrite : ∀ (s : State) pa (w : Width) v, regionOf P pa = .ram → w.aligned pa = true →
    R s (s.setRam (Memory.writeWide s.ram pa.toNat w v))
  register : ∀ g i v s, R s (writeRegister P g i v s)
  insertSegment : ∀ a b s, x.se = true → R s (insertSegment (sdcKey P x.va) a b s)
  insertPage : ∀ pd r s, x.se = true → R s (insertPage (pdcKey P x.va) pd r s)
  reflectSegment : ∀ w s, R s (reflectSegment P x.va w s)
  reflectPage : ∀ w s, R s (reflectPage P x.va w s)

variable {P : Params} {x : Access} {R : State → State → Prop} {E : State → Response → State → Prop}

namespace Contract

theorem bind {α β : Type} (hR : Contract P x R E) {s : State} {m : Res α} {k : α → State → Res β} (hm : m.Meets R E s)
    (hk : ∀ y t, m = .go y t → (k y t).Meets R E t) : (m.bind k).Meets R E s := by
  cases m with
  | ended r t => exact hm
  | go y t =>
    have h := hk y t rfl
    rw [Res.bind_go]
    cases hn : k y t with
    | go z u => rw [hn] at h; exact hR.trans hm h
    | ended r u => rw [hn] at h; exact hR.after hm h

theorem failWith {α : Type} (hR : Contract P x R E) (c : TransFault) (s : State) :
    (failWith P x c s : Res α).Meets R E s := by
  cases h : x.se with
  | true => rw [failWith_se P h]; exact hR.fault c s h
  | false => rw [failWith_peek P h]; exact hR.fail c s h

theorem readRegister (hR : Contract P x R E) (g : RegGroup) (i : BitVec 5) (s : State) : R s (readRegister g i s).2 := by
  cases g <;> first | exact hR.draw s | exact hR.refl s

theorem physRead (hR : Contract P x R E) (pa : Word) (w : Width) (s : State) : (physRead P pa w s).Meets R E s := by
  unfold Machine.physRead
  split
  · cases regionOf P pa with
    | rom => exact hR.refl s
    | ram => exact hR.refl s
    | unmapped => exact hR.refl s
    | io =>
      dsimp only
      split
      · cases w with
        | byte => exact hR.subword s
        | half => exact hR.subword s
        | word => exact hR.readRegister _ _ s
      · exact hR.draw s
  · exact hR.abort s

theorem physWrite (hR : Contract P x R E) (pa : Word) (w : Width) (v : Word) (s : State) :
    (physWrite P pa w v s).Meets R E s := by
  unfold Machine.physWrite
  split
  · rename_i ha
    cases hr : regionOf P pa with
    | rom => exact hR.refl s
    | unmapped => exact hR.refl s
    | ram => exact hR.ramWrite s pa w v hr ha
    | io =>
      dsimp only
      split
      · cases w with
        | byte => exact hR.subword s
        | half => exact hR.subword s
        | word => exact hR.register _ _ v s
      · exact hR.ioWrite s _
  · exact hR.abort s

theorem resolveSegment (hR : Contract P x R E) (s : State) : (resolveSegment P x s).Meets R E s := by
  unfold Machine.resolveSegment
  dsimp only
  split
  · exact hR.refl s
  · exact hR.bind (hR.physRead _ _ s) fun _ t _ => hR.bind (hR.physRead _ _ t) fun _ u _ => hR.refl u

theorem checkSegment (hR : Contract P x R E) (g : SegInHand) (s : State) : (checkSegment P x g s).Meets R E s := by
  unfold Machine.checkSegment
  split
  · exact hR.failWith _ s
  · split
    · exact hR.stop s
    · split
      · exact hR.failWith _ s
      · exact hR.refl s

theorem fillSegment (hR : Contract P x R E) (g : SegInHand) (s : State) : R s (fillSegment P x g s) := by
  unfold Machine.fillSegment
  split
  · exact hR.insertSegment _ _ s (by simp_all)
  · exact hR.refl s

theorem writeBackSegment (hR : Contract P x R E) (g : SegInHand) (w : Word) (s : State) :
    (writeBackSegment P x g w s).Meets R E s :=
  hR.bind (hR.physWrite _ _ _ s) fun _ t _ => hR.reflectSegment _ t

theorem referSegment (hR : Contract P x R E) (g : SegInHand) (s : State) : (referSegment P x g s).Meets R E s := by
  unfold Machine.referSegment
  split
  · exact hR.writeBackSegment g _ s
  · exact hR.refl s

theorem checkObjectTrap (hR : Contract P x R E) (g : SegInHand) (s : State) : (checkObjectTrap P x g s).Meets R E s := by
  unfold Machine.checkObjectTrap
  split
  · exact hR.failWith _ s
  · exact hR.refl s

theorem modifySegment (hR : Contract P x R E) (g : SegInHand) (s : State) : (modifySegment P x g s).Meets R E s := by
  unfold Machine.modifySegment
  split
  · exact hR.writeBackSegment g _ s
  · exact hR.refl s

theorem translateContiguous (hR : Contract P x R E) (g : SegInHand) (s : State) :
    (translateContiguous P x g s).Meets R E s := by
  unfold Machine.translateContiguous
  split
  · exact hR.failWith _ s
  · split
    · exact hR.failWith _ s
    · exact hR.refl s

theorem fillPage (hR : Contract P x R E) (g : SegInHand) (q : PageInHand) (s : State) : R s (fillPage P x g q s) := by
  unfold Machine.fillPage
  split
  · exact hR.insertPage _ _ s (by simp_all)
  · exact hR.refl s

theorem writeBackPage (hR : Contract P x R E) (q : PageInHand) (w : Word) (s : State) :
    (writeBackPage P x q w s).Meets R E s :=
  hR.bind (hR.physWrite _ _ _ s) fun _ t _ => hR.reflectPage _ t

theorem referPage (hR : Contract P x R E) (q : PageInHand) (s : State) : (referPage P x q s).Meets R E s := by
  unfold Machine.referPage
  split
  · exact hR.writeBackPage q _ s
  · exact hR.refl s

theorem resolvePage (hR : Contract P x R E) (g : SegInHand) (s : State) : (resolvePage P x g s).Meets R E s := by
  unfold Machine.resolvePage
  dsimp only
  split
  · exact hR.refl s
  · split
    · exact hR.failWith _ s
    · refine hR.bind (hR.physRead _ _ s) fun _ t _ => ?_
      have hm := hR.referPage ⟨pdAddr P x.va g.sd1, ‹Word›, P.rights g.sd0, false⟩
        (Machine.fillPage P x g ⟨pdAddr P x.va g.sd1, ‹Word›, P.rights g.sd0, false⟩ t)
      cases hn : Machine.referPage P x ⟨pdAddr P x.va g.sd1, ‹Word›, P.rights g.sd0, false⟩
        (Machine.fillPage P x g ⟨pdAddr P x.va g.sd1, ‹Word›, P.rights g.sd0, false⟩ t) with
      | go z u => rw [hn] at hm; exact hR.trans (hR.fillPage g _ t) hm
      | ended r u => rw [hn] at hm; exact hR.after (hR.fillPage g _ t) hm

theorem checkPage (hR : Contract P x R E) (g : SegInHand) (q : PageInHand) (s : State) :
    (checkPage P x g q s).Meets R E s := by
  unfold Machine.checkPage
  repeat' split
  all_goals first | exact hR.failWith _ s | exact hR.refl s

theorem modifyPage (hR : Contract P x R E) (q : PageInHand) (s : State) : (modifyPage P x q s).Meets R E s := by
  unfold Machine.modifyPage
  split
  · exact hR.writeBackPage q _ s
  · exact hR.refl s

theorem translatePaged (hR : Contract P x R E) (g : SegInHand) (s : State) : (translatePaged P x g s).Meets R E s :=
  hR.bind (hR.resolvePage g s) fun q t _ =>
    hR.bind (hR.checkPage g q t) fun _ u _ => hR.bind (hR.modifyPage q u) fun _ w _ => hR.refl w

theorem translateSegment (hR : Contract P x R E) (g : SegInHand) (s : State) : (translateSegment P x g s).Meets R E s := by
  refine hR.bind (hR.referSegment g s) fun g t _ => hR.bind (hR.checkObjectTrap g t) fun _ u _ =>
    hR.bind (hR.modifySegment g u) fun g w _ => ?_
  split
  · exact hR.translateContiguous g w
  · exact hR.translatePaged g w

theorem translateEnabled (hR : Contract P x R E) (s : State) : (translateEnabled P x s).Meets R E s := by
  unfold Machine.translateEnabled
  split
  · exact hR.failWith _ s
  · refine hR.bind (hR.resolveSegment s) fun g t _ => hR.bind (hR.checkSegment g t) fun _ u _ => ?_
    have hm := hR.translateSegment g (Machine.fillSegment P x g u)
    cases hn : Machine.translateSegment P x g (Machine.fillSegment P x g u) with
    | go z w => rw [hn] at hm; exact hR.trans (hR.fillSegment g u) hm
    | ended r w => rw [hn] at hm; exact hR.after (hR.fillSegment g u) hm

/-- A translation keeps every contract that the primitive updates keep. -/
theorem translate (hR : Contract P x R E) (s : State) : (translate P x s).Meets R E s := by
  unfold Machine.translate
  split
  · cases hse : x.se with
    | false => exact hR.translateEnabled s
    | true =>
      have hm := hR.translateEnabled (s.setVar x.va)
      simp only [if_true]
      cases hn : Machine.translateEnabled P x (s.setVar x.va) with
      | go z w => rw [hn] at hm; exact hR.trans (hR.var s hse) hm
      | ended r w => rw [hn] at hm; exact hR.after (hR.var s hse) hm
  · exact hR.refl s

theorem readVirtual (hR : Contract P x R E) (w : Width) (s : State) : (readVirtual P x w s).Meets R E s :=
  hR.bind (hR.bind (hR.translate s) fun _ t _ => hR.physRead _ _ t) fun _ u _ => hR.refl u

theorem writeVirtual (hR : Contract P x R E) (w : Width) (v : Word) (s : State) : (writeVirtual P x w v s).Meets R E s :=
  hR.bind (hR.bind (hR.translate s) fun _ t _ => hR.physWrite _ _ _ t) fun _ u _ => hR.refl u

end Contract

end Sys2Proof.Machine
end

