-- ==== Sys2Proof/Laws/Exec.lean ====
section
/-! SUPPORT. What a request answers: every request but RESET runs one body under `perform`, and what every body does to the state. -/

namespace Sys2Proof.Machine

/-- The body of each request, as `perform` runs it; RESET, which runs halted or not, is written as one too. -/
def requestBody (P : Params) (i : Instr) (s : State) : Res Response :=
  match i with
  | .translate acc lvl se va => answerValue (translate P ⟨va, acc, lvl, se⟩ s)
  | .read8 acc lvl va => readVirtual P ⟨va, acc, lvl, true⟩ .byte s
  | .read16 acc lvl va => readVirtual P ⟨va, acc, lvl, true⟩ .half s
  | .read32 acc lvl va => readVirtual P ⟨va, acc, lvl, true⟩ .word s
  | .write8 lvl va v => writeVirtual P ⟨va, .write, lvl, true⟩ .byte v s
  | .write16 lvl va v => writeVirtual P ⟨va, .write, lvl, true⟩ .half v s
  | .write32 lvl va v => writeVirtual P ⟨va, .write, lvl, true⟩ .word v s
  | .examine va => readVirtual P ⟨va, .read, 0, false⟩ .byte s
  | .deposit va v => writeVirtual P ⟨va, .write, 0, false⟩ .byte v s
  | .pread8 pa => answerValue (physRead P pa .byte s)
  | .pread16 pa => answerValue (physRead P pa .half s)
  | .pread32 pa => answerValue (physRead P pa .word s)
  | .pwrite8 pa v => answerDone (physWrite P pa .byte v s)
  | .pwrite16 pa v => answerDone (physWrite P pa .half v s)
  | .pwrite32 pa v => answerDone (physWrite P pa .word v s)
  | .setEnable v => .go .done (s.setEnable (bit v 0))
  | .clearAlign => .go .done (s.setAlignErr false)
  | .reset => .go .done (resetBlock s)
  | .reservedE .. | .reservedF .. => refuse .badOp s
  | .mmurSdcl _ n => answerRead (readRegister .sdcl n s)
  | .mmuwSdcl _ n v => answerWrite (writeRegister P .sdcl n v s)
  | .mmurSdch _ n => answerRead (readRegister .sdch n s)
  | .mmuwSdch _ n v => answerWrite (writeRegister P .sdch n v s)
  | .mmurPdcrl _ n => answerRead (readRegister .pdcrl n s)
  | .mmuwPdcrl _ n v => answerWrite (writeRegister P .pdcrl n v s)
  | .mmurPdcrh _ n => answerRead (readRegister .pdcrh n s)
  | .mmuwPdcrh _ n v => answerWrite (writeRegister P .pdcrh n v s)
  | .mmurPdcll _ n => answerRead (readRegister .pdcll n s)
  | .mmuwPdcll _ n v => answerWrite (writeRegister P .pdcll n v s)
  | .mmurPdclh _ n => answerRead (readRegister .pdclh n s)
  | .mmuwPdclh _ n v => answerWrite (writeRegister P .pdclh n v s)
  | .mmurSrama _ n => answerRead (readRegister .srama n s)
  | .mmuwSrama _ n v => answerWrite (writeRegister P .srama n v s)
  | .mmurSramb _ n => answerRead (readRegister .sramb n s)
  | .mmuwSramb _ n v => answerWrite (writeRegister P .sramb n v s)
  | .mmurFc _ n => answerRead (readRegister .fc n s)
  | .mmuwFc _ n v => answerWrite (writeRegister P .fc n v s)
  | .mmurFa _ n => answerRead (readRegister .fa n s)
  | .mmuwFa _ n v => answerWrite (writeRegister P .fa n v s)
  | .mmurConf _ n => answerRead (readRegister .conf n s)
  | .mmuwConf _ n v => answerWrite (writeRegister P .conf n v s)
  | .mmurVar _ n => answerRead (readRegister .var n s)
  | .mmuwVar _ n v => answerWrite (writeRegister P .var n v s)
  | .mmurUndef12 _ n => answerRead (readRegister .undef12 n s)
  | .mmuwUndef12 _ n v => answerWrite (writeRegister P .undef12 n v s)
  | .mmurUndef13 _ n => answerRead (readRegister .undef13 n s)
  | .mmuwUndef13 _ n v => answerWrite (writeRegister P .undef13 n v s)
  | .mmurUndef14 _ n => answerRead (readRegister .undef14 n s)
  | .mmuwUndef14 _ n v => answerWrite (writeRegister P .undef14 n v s)
  | .mmurUndef15 _ n => answerRead (readRegister .undef15 n s)
  | .mmuwUndef15 _ n v => answerWrite (writeRegister P .undef15 n v s)

/-- `exec` is the default instantiation of `execWith` (R10). -/
theorem exec_eq_execWith (i : Instr) (s : State) : exec i s = execWith setup i s := by
  cases i <;> rfl

/-- `step` is the default instantiation of `stepWith` (R10). -/
theorem step_eq_stepWith (s : State) : step s = stepWith setup s := by
  unfold step stepWith
  cases nextRequest s with
  | none => rfl
  | some p =>
    simp only [setup_under]
    cases decode params p.1 with
    | ok i => exact exec_eq_execWith i p.2
    | rejected _ => rfl

/-- A step on a record that decodes is its request's meaning in the state without the record. -/
theorem step_of_decode {s : State} {r : Request} {rest : List Request} {i : Instr} (h : s.requests = r :: rest)
    (hd : decode params r = .ok i) : step s = exec i (s.setRequests rest) := by
  unfold step nextRequest
  rw [h]
  simp only [hd]

theorem exec_reset (s : State) : exec .reset s = .next ((resetBlock s).respond .done) := rfl

/-- Every request but RESET is its body under `perform`, with the parameters in force when it begins. -/
theorem execWith_eq_perform (C : Setup) {i : Instr} (hi : i ≠ .reset) (s : State) :
    execWith C i s = perform s fun s => requestBody (C.under s.conf) i s := by
  cases i <;> first | rfl | exact absurd rfl hi

theorem exec_eq_perform {i : Instr} (hi : i ≠ .reset) (s : State) : exec i s = perform s (requestBody params i) := by
  rw [exec_eq_execWith, execWith_eq_perform setup hi]; rfl

/-- While halted every request but RESET is refused (R44). -/
theorem exec_halted {i : Instr} (hi : i ≠ .reset) {s : State} (h : s.halted = true) :
    exec i s = .next (s.respond (.refused .halted)) := by
  rw [exec_eq_perform hi, perform_halted h]

/-- While not halted a request runs its body and records its outcome. -/
theorem exec_running (i : Instr) {s : State} (h : s.halted = false) : exec i s = .next (requestBody params i s).close := by
  by_cases hi : i = .reset
  · subst hi; rfl
  · rw [exec_eq_perform hi, perform_running h]

/-- Every request ends with a next state: its body's, or while halted the refusal's. -/
theorem exec_cases (i : Instr) (s : State) :
    exec i s = .next (requestBody params i s).close ∨
      (i ≠ .reset ∧ s.halted = true ∧ exec i s = .next (s.respond (.refused .halted))) := by
  by_cases hi : i = .reset
  · subst hi; exact .inl rfl
  · cases h : s.halted with
    | false => exact .inl (exec_running i h)
    | true => exact .inr ⟨hi, rfl, exec_halted hi h⟩

/-- The body of a request that makes the translation `x`, or none, keeps every contract that the primitive updates keep. SETENABLE,
CLEARALIGN, RESET and the reserved operations have bodies of their own. -/
theorem Contract.requestBody {P : Params} {x : Access} {R : State → State → Prop} {E : State → Response → State → Prop}
    (hR : Contract P x R E) (i : Instr) (hx : ∀ y, translationOf i = some y → y = x) (h1 : ∀ v, i ≠ .setEnable v)
    (h2 : i ≠ .clearAlign) (h3 : i ≠ .reset) (h4 : ∀ r a v, i ≠ .reservedE r a v ∧ i ≠ .reservedF r a v) (s : State) :
    (requestBody P i s).Meets R E s := by
  cases i <;> simp only [Machine.requestBody, answerWrite_eq, answerRead_eq, translationOf, Option.some.injEq, forall_eq',
    reduceCtorEq, false_implies, implies_true] at hx ⊢
  case setEnable v => exact absurd rfl (h1 v)
  case clearAlign => exact absurd rfl h2
  case reset => exact absurd rfl h3
  case reservedE r a v => exact absurd rfl (h4 r a v).1
  case reservedF r a v => exact absurd rfl (h4 r a v).2
  case translate => subst hx; exact hR.bind (hR.translate _) fun _ u _ => hR.refl u
  all_goals first
    | (subst hx; exact hR.readVirtual _ s)
    | (subst hx; exact hR.writeVirtual _ _ s)
    | exact hR.bind (hR.physRead _ _ s) fun _ u _ => hR.refl u
    | exact hR.bind (hR.physWrite _ _ _ s) fun _ u _ => hR.refl u
    | exact hR.readRegister _ _ s
    | exact hR.register _ _ _ s

/-- What no part of a request but the control requests changes, where it goes on. -/
structure Kept (s t : State) : Prop where
  outcomes : t.outcomes = s.outcomes
  requests : t.requests = s.requests
  refusedMark : t.refusedMark = s.refusedMark
  rom : t.rom = s.rom
  enable : t.enable = s.enable
  alignErr : t.alignErr = s.alignErr
  halted : t.halted = s.halted

/-- The same where a part ends the request: an outcome in place of a result is never a value, a Fault comes with its record and is that
of a side-effect translation, a Fail is that of a peek, and the two flags go up exactly with their outcomes. -/
structure Ended (P : Params) (x : Access) (s : State) (r : Response) (t : State) : Prop where
  outcomes : t.outcomes = s.outcomes
  requests : t.requests = s.requests
  refusedMark : t.refusedMark = s.refusedMark
  rom : t.rom = s.rom
  enable : t.enable = s.enable
  alignErr : t.alignErr = (s.alignErr || decide (r = .abort .emf))
  halted : t.halted = (s.halted || decide (r = .stop .indirectSd))
  fault : ∀ c, r = .fault c → x.se = true ∧ t.fc = P.fcode c ∧ t.fa = x.va
  fail : ∀ c, r = .fail c → x.se = false
  noValue : ∀ v, r ≠ .value v
  notDone : r ≠ .done

/-- No register write touches what `Kept` lists. -/
theorem kept_writeRegister (P : Params) (g : RegGroup) (i : BitVec 5) (v : Word) (s : State) :
    Kept s (writeRegister P g i v s) := by
  cases g <;> constructor <;>
    simp [writeRegister, havocSegment, havocPage, writeSrama, writeSramb, writeFc, writeFa, writeConf, writeVar, writeUndefined,
      flushSection, flushMatching, apply_ite]

/-- The contract every request keeps. -/
theorem contract_kept (P : Params) (x : Access) : Contract P x Kept (Ended P x) where
  refl s := ⟨rfl, rfl, rfl, rfl, rfl, rfl, rfl⟩
  trans h k := ⟨k.1.trans h.1, k.2.trans h.2, k.3.trans h.3, k.4.trans h.4, k.5.trans h.5, k.6.trans h.6, k.7.trans h.7⟩
  after h k := ⟨k.1.trans h.1, k.2.trans h.2, k.3.trans h.3, k.4.trans h.4, k.5.trans h.5, by rw [k.6, h.6], by rw [k.7, h.7],
    k.8, k.9, k.10, k.11⟩
  fault c s h := by constructor <;> simp [recordFault, h]
  fail c s h := by constructor <;> simp [h]
  abort s := by constructor <;> simp
  stop s := by constructor <;> simp
  subword s := by constructor <;> simp
  var s h := by constructor <;> simp
  draw s := by constructor <;> simp
  ioWrite s e := by constructor <;> simp
  ramWrite s pa w v _ _ := by constructor <;> simp
  register := kept_writeRegister P
  insertSegment a b s h := by constructor <;> simp [insertSegment]
  insertPage a b s h := by constructor <;> simp [insertPage]
  reflectSegment w s := by constructor <;> (unfold Machine.reflectSegment; split <;> rfl)
  reflectPage w s := by constructor <;> (unfold Machine.reflectPage; split <;> rfl)

end Sys2Proof.Machine
end

