-- ==== Sys2Proof/Laws/Conf.lean ====
section
/-! SUPPORT. What CONF leaves alone (R32, R261): with the parameters held fixed, no part of a translation reads or writes it, as long as no
descriptor lies in the MMU window. -/

namespace Sys2Proof.Machine

/-- A part of a request with CONF replaced in the state it leaves. -/
def Res.withConf {α : Type} (c : Word) : Res α → Res α
  | .go x s => .go x (s.setConf c)
  | .ended r s => .ended r (s.setConf c)

@[simp] theorem Res.withConf_go {α : Type} (c : Word) (x : α) (s : State) : (Res.go x s).withConf c = .go x (s.setConf c) := rfl

@[simp] theorem Res.withConf_ended {α : Type} (c : Word) (r : Response) (s : State) :
    (Res.ended r s : Res α).withConf c = .ended r (s.setConf c) := rfl

/-- A bind is blind to CONF where both its parts are. -/
theorem Res.bind_withConf {α β : Type} {c : Word} {m : Res α} {k : α → State → Res β}
    (h : ∀ x t, m = .go x t → k x (t.setConf c) = (k x t).withConf c) : (m.withConf c).bind k = (m.bind k).withConf c := by
  cases m with
  | go x t => exact h x t rfl
  | ended r t => rfl

theorem draw_setConf (c : Word) (s : State) : (s.setConf c).draw = (s.draw.1, s.draw.2.setConf c) := by
  unfold State.draw State.setConf
  cases s.draws <;> rfl

variable (P : Params)

theorem failWith_setConf {α : Type} (x : Access) (e : TransFault) (c : Word) (s : State) :
    (failWith P x e (s.setConf c) : Res α) = (failWith P x e s).withConf c := by
  unfold failWith; split <;> rfl

theorem insertSegment_setConf (k : SegKey) (a b c : Word) (s : State) :
    insertSegment k a b (s.setConf c) = (insertSegment k a b s).setConf c := by
  unfold insertSegment; rw [draw_setConf]; rfl

theorem insertPage_setConf (k : PageKey) (a b c : Word) (s : State) :
    insertPage k a b (s.setConf c) = (insertPage k a b s).setConf c := by
  unfold insertPage; rw [draw_setConf]; rfl

theorem reflectSegment_setConf (va w c : Word) (s : State) :
    reflectSegment P va w (s.setConf c) = (reflectSegment P va w s).setConf c := by
  unfold reflectSegment; split <;> rfl

theorem reflectPage_setConf (va w c : Word) (s : State) :
    reflectPage P va w (s.setConf c) = (reflectPage P va w s).setConf c := by
  unfold reflectPage; split <;> rfl

variable {P}

/-- The router outside the MMU window. -/
theorem physRead_setConf {pa : Word} (h : inMmuWindow P pa = false) (w : Width) (c : Word) (s : State) :
    physRead P pa w (s.setConf c) = (physRead P pa w s).withConf c := by
  unfold physRead
  split
  · cases regionOf P pa <;> simp [h, ioRead, State.drawWord, draw_setConf]
  · rfl

/-- The router outside the MMU window. -/
theorem physWrite_setConf {pa : Word} (h : inMmuWindow P pa = false) (w : Width) (v c : Word) (s : State) :
    physWrite P pa w v (s.setConf c) = (physWrite P pa w v s).withConf c := by
  unfold physWrite
  split
  · cases regionOf P pa <;> simp [h] <;> rfl
  · rfl

theorem resolveSegment_setConf {x : Access} {s : State} (h : inMmuWindow P (sdAddr P s x.va) = false)
    (h4 : inMmuWindow P (sdAddr P s x.va + 4) = false) (c : Word) :
    resolveSegment P x (s.setConf c) = (resolveSegment P x s).withConf c := by
  have e : sdAddr P (s.setConf c) x.va = sdAddr P s x.va := rfl
  unfold resolveSegment
  simp only [State.setConf_sdc, e]
  split
  · rfl
  · rw [physRead_setConf h, Res.bind_withConf]
    intro a t _
    rw [physRead_setConf h4, Res.bind_withConf]
    intro b u _; rfl

theorem checkSegment_setConf (x : Access) (g : SegInHand) (c : Word) (s : State) :
    checkSegment P x g (s.setConf c) = (checkSegment P x g s).withConf c := by
  unfold checkSegment
  simp only [failWith_setConf]
  repeat' split
  all_goals rfl

theorem fillSegment_setConf (x : Access) (g : SegInHand) (c : Word) (s : State) :
    fillSegment P x g (s.setConf c) = (fillSegment P x g s).setConf c := by
  unfold fillSegment
  rw [insertSegment_setConf]
  split <;> rfl

/-- The address of the descriptor in hand is not changed by its write-backs. -/
theorem writeBackSegment_sda {x : Access} {g g' : SegInHand} {w : Word} {s t : State}
    (h : writeBackSegment P x g w s = .go g' t) : g' = { g with sd0 := w } := by
  obtain ⟨_, _, _, h⟩ := Res.bind_eq_go h
  cases h; rfl

theorem writeBackSegment_setConf {x : Access} {g : SegInHand} (h : inMmuWindow P g.sda = false) (w c : Word) (s : State) :
    writeBackSegment P x g w (s.setConf c) = (writeBackSegment P x g w s).withConf c := by
  unfold writeBackSegment
  rw [physWrite_setConf h, Res.bind_withConf]
  intro a t _
  rw [reflectSegment_setConf]; rfl

theorem referSegment_setConf {x : Access} {g : SegInHand} (h : inMmuWindow P g.sda = false) (c : Word) (s : State) :
    referSegment P x g (s.setConf c) = (referSegment P x g s).withConf c := by
  unfold referSegment
  rw [writeBackSegment_setConf h]
  split <;> rfl

/-- The referenced bit leaves the descriptor's address and second word alone. -/
theorem referSegment_same {x : Access} {g g' : SegInHand} {s t : State} (h : referSegment P x g s = .go g' t) :
    g'.sda = g.sda ∧ g'.sd1 = g.sd1 := by
  unfold referSegment at h
  split at h
  · rw [writeBackSegment_sda h]; exact ⟨rfl, rfl⟩
  · cases h; exact ⟨rfl, rfl⟩

/-- The modified bit leaves the descriptor's address and second word alone. -/
theorem modifySegment_same {x : Access} {g g' : SegInHand} {s t : State} (h : modifySegment P x g s = .go g' t) :
    g'.sda = g.sda ∧ g'.sd1 = g.sd1 := by
  unfold modifySegment at h
  split at h
  · rw [writeBackSegment_sda h]; exact ⟨rfl, rfl⟩
  · cases h; exact ⟨rfl, rfl⟩

theorem checkObjectTrap_setConf (x : Access) (g : SegInHand) (c : Word) (s : State) :
    checkObjectTrap P x g (s.setConf c) = (checkObjectTrap P x g s).withConf c := by
  unfold checkObjectTrap
  rw [failWith_setConf]
  split <;> rfl

theorem modifySegment_setConf {x : Access} {g : SegInHand} (h : inMmuWindow P g.sda = false) (c : Word) (s : State) :
    modifySegment P x g (s.setConf c) = (modifySegment P x g s).withConf c := by
  unfold modifySegment
  rw [writeBackSegment_setConf h]
  split <;> rfl

theorem translateContiguous_setConf (x : Access) (g : SegInHand) (c : Word) (s : State) :
    translateContiguous P x g (s.setConf c) = (translateContiguous P x g s).withConf c := by
  unfold translateContiguous
  simp only [failWith_setConf]
  repeat' split
  all_goals rfl

theorem fillPage_setConf (x : Access) (g : SegInHand) (q : PageInHand) (c : Word) (s : State) :
    fillPage P x g q (s.setConf c) = (fillPage P x g q s).setConf c := by
  unfold fillPage
  rw [insertPage_setConf]
  split <;> rfl

theorem writeBackPage_setConf {x : Access} {q : PageInHand} (h : inMmuWindow P q.pda = false) (w c : Word) (s : State) :
    writeBackPage P x q w (s.setConf c) = (writeBackPage P x q w s).withConf c := by
  unfold writeBackPage
  rw [physWrite_setConf h, Res.bind_withConf]
  intro a t _
  rw [reflectPage_setConf]; rfl

theorem referPage_setConf {x : Access} {q : PageInHand} (h : inMmuWindow P q.pda = false) (c : Word) (s : State) :
    referPage P x q (s.setConf c) = (referPage P x q s).withConf c := by
  unfold referPage
  rw [writeBackPage_setConf h]
  split <;> rfl

theorem modifyPage_setConf {x : Access} {q : PageInHand} (h : inMmuWindow P q.pda = false) (c : Word) (s : State) :
    modifyPage P x q (s.setConf c) = (modifyPage P x q s).withConf c := by
  unfold modifyPage
  rw [writeBackPage_setConf h]
  split <;> rfl

theorem checkPage_setConf (x : Access) (g : SegInHand) (q : PageInHand) (c : Word) (s : State) :
    checkPage P x g q (s.setConf c) = (checkPage P x g q s).withConf c := by
  unfold checkPage
  simp only [failWith_setConf]
  repeat' split
  all_goals rfl

/-- The page descriptor in hand lies where `pdAddr` says. -/
theorem resolvePage_pda {x : Access} {g : SegInHand} {q : PageInHand} {s t : State} (h : resolvePage P x g s = .go q t) :
    q.pda = pdAddr P x.va g.sd1 := by
  unfold resolvePage at h
  dsimp only at h
  split at h
  · cases h; rfl
  · split at h
    · unfold failWith at h; split at h <;> cases h
    · obtain ⟨pd, u, _, h⟩ := Res.bind_eq_go h
      unfold referPage at h
      split at h
      · obtain ⟨_, _, _, h⟩ := Res.bind_eq_go h
        cases h; rfl
      · cases h; rfl

theorem resolvePage_setConf {x : Access} {g : SegInHand} (h : inMmuWindow P (pdAddr P x.va g.sd1) = false) (c : Word) (s : State) :
    resolvePage P x g (s.setConf c) = (resolvePage P x g s).withConf c := by
  unfold resolvePage
  simp only [State.setConf_pdc]
  split
  · rfl
  · split
    · exact failWith_setConf P x _ c s
    · rw [physRead_setConf h, Res.bind_withConf]
      intro pd t _
      rw [fillPage_setConf, referPage_setConf h]

theorem translatePaged_setConf {x : Access} {g : SegInHand} (h : inMmuWindow P (pdAddr P x.va g.sd1) = false) (c : Word) (s : State) :
    translatePaged P x g (s.setConf c) = (translatePaged P x g s).withConf c := by
  unfold translatePaged
  rw [resolvePage_setConf h, Res.bind_withConf]
  intro q t hq
  rw [checkPage_setConf, Res.bind_withConf]
  intro _ u _
  rw [modifyPage_setConf (by rw [resolvePage_pda hq]; exact h), Res.bind_withConf]
  intro _ _ _; rfl

theorem translateSegment_setConf {x : Access} {g : SegInHand} (hs : inMmuWindow P g.sda = false)
    (hp : inMmuWindow P (pdAddr P x.va g.sd1) = false) (c : Word) (s : State) :
    translateSegment P x g (s.setConf c) = (translateSegment P x g s).withConf c := by
  unfold translateSegment
  rw [referSegment_setConf hs, Res.bind_withConf]
  intro g1 t h1
  obtain ⟨ha1, hd1⟩ := referSegment_same h1
  rw [checkObjectTrap_setConf, Res.bind_withConf]
  intro _ u _
  rw [modifySegment_setConf (by rw [ha1]; exact hs), Res.bind_withConf]
  intro g2 w h2
  obtain ⟨-, hd2⟩ := modifySegment_same h2
  split
  · exact translateContiguous_setConf x g2 c w
  · exact translatePaged_setConf (by rw [hd2, hd1]; exact hp) c w

/-- The segment descriptor in hand lies where `sdAddr` says. -/
theorem resolveSegment_sda {x : Access} {g : SegInHand} {s t : State} (h : resolveSegment P x s = .go g t) :
    g.sda = sdAddr P s x.va := by
  unfold resolveSegment at h
  dsimp only at h
  split at h
  · cases h; rfl
  · obtain ⟨_, _, _, h⟩ := Res.bind_eq_go h
    obtain ⟨_, _, _, h⟩ := Res.bind_eq_go h
    cases h; rfl

theorem checkSegment_go {x : Access} {g : SegInHand} {s t : State} (h : checkSegment P x g s = .go () t) : t = s := by
  unfold checkSegment failWith stopIndirect at h
  repeat' split at h
  all_goals cases h
  rfl

theorem translateEnabled_setConf {x : Access} {s : State} (h : inMmuWindow P (sdAddr P s x.va) = false)
    (h4 : inMmuWindow P (sdAddr P s x.va + 4) = false)
    (hp : ∀ g u, resolveSegment P x s = .go g u → inMmuWindow P (pdAddr P x.va g.sd1) = false) (c : Word) :
    translateEnabled P x (s.setConf c) = (translateEnabled P x s).withConf c := by
  unfold translateEnabled
  simp only [State.setConf_sramb, failWith_setConf]
  split
  · rfl
  · rw [resolveSegment_setConf h h4, Res.bind_withConf]
    intro g t hg
    rw [checkSegment_setConf, Res.bind_withConf]
    intro _ u _
    rw [fillSegment_setConf, translateSegment_setConf (by rw [resolveSegment_sda hg]; exact h) (hp g t hg)]

/-- A translation is blind to CONF, the parameters held fixed and the descriptors outside the MMU window. -/
theorem translate_setConf {x : Access} {s : State} (h : inMmuWindow P (sdAddr P s x.va) = false)
    (h4 : inMmuWindow P (sdAddr P s x.va + 4) = false)
    (hp : ∀ g u, resolveSegment P x (if x.se then s.setVar x.va else s) = .go g u → inMmuWindow P (pdAddr P x.va g.sd1) = false)
    (c : Word) : translate P x (s.setConf c) = (translate P x s).withConf c := by
  unfold translate
  rw [State.setConf_enable]
  split
  · split <;> rename_i hse
    · rw [if_pos hse] at hp
      exact translateEnabled_setConf (s := s.setVar x.va) h h4 hp c
    · rw [if_neg hse] at hp
      exact translateEnabled_setConf h h4 hp c
  · rfl

end Sys2Proof.Machine
end

