-- ==== Sys2Proof/Laws/Layout.lean ====
section
/-! SUPPORT. The default layout: each descriptor setter sets its bit and leaves what the translator reads, descriptor addresses are aligned,
and the register decode is lawful. -/

namespace Sys2Proof.Machine

/-- Bit `i` after setting bit `k`. -/
theorem bit_withBit (w : Word) {k : Nat} (hk : k < 32) (i : Nat) : bit (withBit w k) i = (bit w i || decide (i = k)) := by
  have h : (BitVec.ofNat 32 (2 ^ k)).getLsbD i = decide (i = k) := by
    have h2 : BitVec.ofNat 32 (2 ^ k) = BitVec.twoPow 32 k := by
      apply BitVec.eq_of_toNat_eq; simp [BitVec.toNat_twoPow]
    rw [h2, BitVec.getLsbD_twoPow]
    by_cases e : i = k
    · simp [e, hk]
    · simp [e, hk, Ne.symm e]
  rw [withBit, bit, BitVec.getLsbD_or, h]; rfl

/-- A field above bit `k` is untouched by setting bit `k`. -/
theorem field_withBit (w : Word) {hi lo k : Nat} (h : k < lo) : field (withBit w k) hi lo = field w hi lo := by
  have e : BitVec.ofNat 32 (2 ^ k) >>> lo = 0#32 := by
    apply BitVec.eq_of_toNat_eq
    simp only [BitVec.toNat_ushiftRight, BitVec.toNat_ofNat, Nat.shiftRight_eq_div_pow]
    exact Nat.div_eq_of_lt (lt_of_le_of_lt (Nat.mod_le _ _) (Nat.pow_lt_pow_right (by omega) h))
  rw [field, withBit, BitVec.ushiftRight_or_distrib, e, BitVec.or_zero, field]

@[simp] theorem valid_setR (w : Word) : params.valid (params.setR w) = params.valid w := by simp [params, bit_withBit]
@[simp] theorem indirect_setR (w : Word) : params.indirect (params.setR w) = params.indirect w := by simp [params, bit_withBit]
@[simp] theorem present_setR (w : Word) : params.present (params.setR w) = params.present w := by simp [params, bit_withBit]
@[simp] theorem objectTrap_setR (w : Word) : params.objectTrap (params.setR w) = params.objectTrap w := by
  simp [params, bit_withBit]
@[simp] theorem contiguous_setR (w : Word) : params.contiguous (params.setR w) = params.contiguous w := by
  simp [params, bit_withBit]
@[simp] theorem modified_setR (w : Word) : params.modified (params.setR w) = params.modified w := by simp [params, bit_withBit]
@[simp] theorem referenced_setR (w : Word) : params.referenced (params.setR w) = true := by simp [params, bit_withBit]
@[simp] theorem rights_setR (w : Word) : params.rights (params.setR w) = params.rights w := by simp [params, field_withBit]
@[simp] theorem maxOff_setR (w : Word) : params.maxOff (params.setR w) = params.maxOff w := by
  simp [params, L0.maxOff, field_withBit]
@[simp] theorem lastPage_setR (w : Word) : lastPage params (params.setR w) = lastPage params w := by simp [lastPage]

@[simp] theorem valid_setM (w : Word) : params.valid (params.setM w) = params.valid w := by simp [params, bit_withBit]
@[simp] theorem indirect_setM (w : Word) : params.indirect (params.setM w) = params.indirect w := by simp [params, bit_withBit]
@[simp] theorem present_setM (w : Word) : params.present (params.setM w) = params.present w := by simp [params, bit_withBit]
@[simp] theorem objectTrap_setM (w : Word) : params.objectTrap (params.setM w) = params.objectTrap w := by
  simp [params, bit_withBit]
@[simp] theorem contiguous_setM (w : Word) : params.contiguous (params.setM w) = params.contiguous w := by
  simp [params, bit_withBit]
@[simp] theorem referenced_setM (w : Word) : params.referenced (params.setM w) = params.referenced w := by
  simp [params, bit_withBit]
@[simp] theorem modified_setM (w : Word) : params.modified (params.setM w) = true := by simp [params, bit_withBit]
@[simp] theorem rights_setM (w : Word) : params.rights (params.setM w) = params.rights w := by simp [params, field_withBit]
@[simp] theorem maxOff_setM (w : Word) : params.maxOff (params.setM w) = params.maxOff w := by
  simp [params, L0.maxOff, field_withBit]
@[simp] theorem lastPage_setM (w : Word) : lastPage params (params.setM w) = lastPage params w := by simp [lastPage]

/-- Masking with PAGEBASE's mask forgets a bit below it. -/
theorem pageBase_withBit (w : Word) {k : Nat} (hk : k < 11) : params.pageBase (withBit w k) = params.pageBase w := by
  have e : 0xFFFFF800#32 &&& BitVec.ofNat 32 (2 ^ k) = 0#32 := by interval_cases k <;> rfl
  have d : ∀ a b c : Word, c &&& (a ||| b) = (c &&& a) ||| (c &&& b) := by
    intro a b c; ext i hi; simp [Bool.and_or_distrib_left]
  simp only [params, withBit]
  rw [BitVec.and_comm, d, e, BitVec.or_zero, BitVec.and_comm]

@[simp] theorem pagePresent_setPR (w : Word) : params.pagePresent (params.setPR w) = params.pagePresent w := by
  simp [params, bit_withBit]
@[simp] theorem lastInSegment_setPR (w : Word) : params.lastInSegment (params.setPR w) = params.lastInSegment w := by
  simp [params, bit_withBit]
@[simp] theorem writeFault_setPR (w : Word) : params.writeFault (params.setPR w) = params.writeFault w := by
  simp [params, bit_withBit]
@[simp] theorem pageModified_setPR (w : Word) : params.pageModified (params.setPR w) = params.pageModified w := by
  simp [params, bit_withBit]
@[simp] theorem pageReferenced_setPR (w : Word) : params.pageReferenced (params.setPR w) = true := by simp [params, bit_withBit]
@[simp] theorem pageBase_setPR (w : Word) : params.pageBase (params.setPR w) = params.pageBase w :=
  pageBase_withBit w (by omega)
@[simp] theorem pageModified_setPM (w : Word) : params.pageModified (params.setPM w) = true := by simp [params, bit_withBit]
@[simp] theorem pageBase_setPM (w : Word) : params.pageBase (params.setPM w) = params.pageBase w :=
  pageBase_withBit w (by omega)

theorem setR_ne (w : Word) (h : params.referenced w = false) : params.setR w ≠ w := by
  intro e; have := referenced_setR w; rw [e, h] at this; cases this

theorem setM_ne (w : Word) (h : params.modified w = false) : params.setM w ≠ w := by
  intro e; have := modified_setM w; rw [e, h] at this; cases this

theorem setPR_ne (w : Word) (h : params.pageReferenced w = false) : params.setPR w ≠ w := by
  intro e; have := pageReferenced_setPR w; rw [e, h] at this; cases this

theorem setPM_ne (w : Word) (h : params.pageModified w = false) : params.setPM w ≠ w := by
  intro e; have := pageModified_setPM w; rw [e, h] at this; cases this

/-- A 32-byte aligned base stays word aligned with multiples of 4 added. -/
theorem aligned_base_add (a b : Word) (hb : b.toNat % 4 = 0) : Width.word.aligned ((a &&& 0xFFFFFFE0#32) + b) = true := by
  have ha : (a.toNat &&& 4294967264) % 4 = 0 := by
    have h := Nat.and_mod_two_pow (a := a.toNat) (b := 4294967264) (n := 2)
    simpa using h
  have hm : (0xFFFFFFE0#32).toNat = 4294967264 := rfl
  simp only [Width.aligned, Width.bytes, beq_iff_eq, BitVec.toNat_add, BitVec.toNat_and, hm]
  omega

/-- Segment descriptor addresses are word aligned (R303). -/
theorem sdAddr_aligned (s : State) (va : Word) : Width.word.aligned (sdAddr params s va) = true := by
  refine aligned_base_add _ _ ?_
  rw [BitVec.toNat_mul, show (8 : Word).toNat = 8 from rfl]
  omega

/-- The second word of a segment descriptor is word aligned (R303). -/
theorem sdAddr_add_four_aligned (s : State) (va : Word) : Width.word.aligned (sdAddr params s va + 4) = true := by
  have h := sdAddr_aligned s va
  simp only [Width.aligned, Width.bytes, beq_iff_eq, BitVec.toNat_add, show (4 : Word).toNat = 4 from rfl] at h ⊢
  omega

/-- Page descriptor addresses are word aligned (R303). -/
theorem pdAddr_aligned (va sd1 : Word) : Width.word.aligned (pdAddr params va sd1) = true := by
  refine aligned_base_add _ _ ?_
  rw [BitVec.toNat_mul, show (4 : Word).toNat = 4 from rfl]
  omega

/-- Two word aligned addresses that differ are four bytes apart. -/
theorem aligned_apart {pa qa : Word} (hp : Width.word.aligned pa = true) (hq : Width.word.aligned qa = true) (h : pa ≠ qa) :
    pa.toNat + 4 ≤ qa.toNat ∨ qa.toNat + 4 ≤ pa.toNat := by
  simp only [Width.aligned, Width.bytes, beq_iff_eq] at hp hq
  have : pa.toNat ≠ qa.toNat := fun e => h (BitVec.eq_of_toNat_eq e)
  omega

/-- The SD0 with its referenced and modified bits agrees with SD0 on whatever the two setters leave alone. -/
theorem segmentWord_agrees {α : Type} (f : Word → α) (hr : ∀ w, f (params.setR w) = f w) (hm : ∀ w, f (params.setM w) = f w)
    (x : Access) (g : SegInHand) : f (segmentWord params x g) = f g.sd0 := by
  unfold segmentWord; dsimp only
  split <;> split <;> (try split) <;> simp [hr, hm]

@[simp] theorem contiguous_segmentWord (x : Access) (g : SegInHand) :
    params.contiguous (segmentWord params x g) = params.contiguous g.sd0 :=
  segmentWord_agrees _ contiguous_setR contiguous_setM x g

@[simp] theorem rights_segmentWord (x : Access) (g : SegInHand) :
    params.rights (segmentWord params x g) = params.rights g.sd0 :=
  segmentWord_agrees _ rights_setR rights_setM x g

@[simp] theorem maxOff_segmentWord (x : Access) (g : SegInHand) :
    params.maxOff (segmentWord params x g) = params.maxOff g.sd0 :=
  segmentWord_agrees _ maxOff_setR maxOff_setM x g

@[simp] theorem lastPage_segmentWord (x : Access) (g : SegInHand) :
    lastPage params (segmentWord params x g) = lastPage params g.sd0 := by
  simp [lastPage]

/-! ### The register decode -/

/-- The offset of a register as a number (R117). -/
theorem L0.regOffset_toNat (g : RegGroup) (b7 : BitVec 1) (index : BitVec 5) :
    (L0.regOffset g b7 index).toNat = (L0.numberOfGroup g).toNat * 2 ^ 8 + b7.toNat * 2 ^ 7 + index.toNat * 2 ^ 2 := by
  have h0 : (0#2).toNat < 2 ^ 2 := by decide
  have h1 := index.isLt
  have h2 := b7.isLt
  have h3 := (L0.numberOfGroup g).isLt
  simp only [L0.regOffset, BitVec.toNat_append]
  rw [← Nat.shiftLeft_add_eq_or_of_lt h3, ← Nat.shiftLeft_add_eq_or_of_lt h2, ← Nat.shiftLeft_add_eq_or_of_lt h1,
    ← Nat.shiftLeft_add_eq_or_of_lt h0]
  simp only [Nat.shiftLeft_eq, BitVec.toNat_ofNat]
  omega

theorem L0.groupOfNumber_numberOfGroup (g : RegGroup) : L0.groupOfNumber (L0.numberOfGroup g).toNat = g := by
  cases g <;> rfl

theorem L0.numberOfGroup_groupOfNumber {n : Nat} (h : n < 16) : (L0.numberOfGroup (L0.groupOfNumber n)).toNat = n := by
  interval_cases n <;> rfl

/-- The register decode of L0 is lawful (R111, R112). -/
theorem registerLayout_lawful : RegisterLayoutLaws params := by
  refine ⟨fun g b7 index => ?_, fun off h1 h2 => ?_, by decide, by decide⟩
  · have e : (params.regOffset g b7 index).toNat = _ := L0.regOffset_toNat g b7 index
    have h1 := index.isLt
    have h2 := b7.isLt
    have h3 := (L0.numberOfGroup g).isLt
    refine ⟨by omega, by omega, ?_, ?_, ?_⟩
    · show L0.groupOfNumber ((params.regOffset g b7 index).extractLsb' 8 4).toNat = g
      rw [BitVec.extractLsb'_toNat, Nat.shiftRight_eq_div_pow, e, ← L0.groupOfNumber_numberOfGroup g]
      congr 1
      rw [L0.groupOfNumber_numberOfGroup]
      omega
    · apply BitVec.eq_of_toNat_eq
      show ((params.regOffset g b7 index).extractLsb' 7 1).toNat = _
      rw [BitVec.extractLsb'_toNat, Nat.shiftRight_eq_div_pow, e]
      omega
    · apply BitVec.eq_of_toNat_eq
      show ((params.regOffset g b7 index).extractLsb' 2 5).toNat = _
      rw [BitVec.extractLsb'_toNat, Nat.shiftRight_eq_div_pow, e]
      omega
  · apply BitVec.eq_of_toNat_eq
    refine (L0.regOffset_toNat _ _ _).trans ?_
    show (L0.numberOfGroup (L0.groupOfNumber (off.extractLsb' 8 4).toNat)).toNat * 2 ^ 8 + (off.extractLsb' 7 1).toNat * 2 ^ 7 +
      (off.extractLsb' 2 5).toNat * 2 ^ 2 = _
    rw [L0.numberOfGroup_groupOfNumber (off.extractLsb' 8 4).isLt]
    simp only [BitVec.extractLsb'_toNat, Nat.shiftRight_eq_div_pow]
    omega

/-- The address of a register, under a lawful register decode (R111, R117). -/
theorem registerAddress_toNat {P : Params} (h : RegisterLayoutLaws P) (g : RegGroup) (b7 : BitVec 1) (index : BitVec 5) :
    (registerAddress P g b7 index).toNat = P.mmuBase.toNat + (P.regOffset g b7 index).toNat := by
  have h1 := (h.1 g b7 index).1
  have h2 := h.2.2.2
  rw [registerAddress, BitVec.toNat_add]
  omega

theorem isRegisterWord_registerAddress {P : Params} (h : RegisterLayoutLaws P) (g : RegGroup) (b7 : BitVec 1) (index : BitVec 5) :
    isRegisterWord P (registerAddress P g b7 index) = true := by
  obtain ⟨h1, h2, -⟩ := h.1 g b7 index
  have h3 := h.2.2.1
  simp only [isRegisterWord, inMmuWindow, registerAddress_toNat h, Bool.and_eq_true, decide_eq_true_eq, beq_iff_eq]
  omega

theorem registerAddress_sub (P : Params) (g : RegGroup) (b7 : BitVec 1) (index : BitVec 5) :
    registerAddress P g b7 index - P.mmuBase = P.regOffset g b7 index := by
  simp [registerAddress]

/-- PREAD32's record (R116). -/
theorem decode_pread32 (P : Params) (pa : Word) : decode P ⟨0x0029#16, pa, 0⟩ = .ok (physicalRead32 P pa) := by
  have ho : (⟨0x0029#16, pa, 0#32⟩ : Request).op.toNat = 9 := (by decide : ((0x0029#16).extractLsb' 0 4).toNat = 9)
  have ha : (⟨0x0029#16, pa, 0#32⟩ : Request).accBits.toNat = 2 := (by decide : ((0x0029#16).extractLsb' 4 2).toNat = 2)
  have hh : (⟨0x0029#16, pa, 0#32⟩ : Request).high = 0 := (by decide : (0x0029#16).extractLsb' 9 7 = 0)
  have hw : (⟨0x0029#16, pa, 0#32⟩ : Request).onlyWidth = true :=
    (by decide : ((0x0029#16).extractLsb' 6 2 == 0 && (0x0029#16).getLsbD 8 == false) = true)
  simp [decode, ho, decodePread, ha, accepted, hh, hw]

/-- PWRITE32's record (R116). -/
theorem decode_pwrite32 (P : Params) (pa v : Word) : decode P ⟨0x002A#16, pa, v⟩ = .ok (physicalWrite32 P pa v) := by
  have ho : (⟨0x002A#16, pa, v⟩ : Request).op.toNat = 10 := (by decide : ((0x002A#16).extractLsb' 0 4).toNat = 10)
  have ha : (⟨0x002A#16, pa, v⟩ : Request).accBits.toNat = 2 := (by decide : ((0x002A#16).extractLsb' 4 2).toNat = 2)
  have hh : (⟨0x002A#16, pa, v⟩ : Request).high = 0 := (by decide : (0x002A#16).extractLsb' 9 7 = 0)
  have hw : (⟨0x002A#16, pa, v⟩ : Request).onlyWidth = true :=
    (by decide : ((0x002A#16).extractLsb' 6 2 == 0 && (0x002A#16).getLsbD 8 == false) = true)
  simp [decode, ho, decodePwrite, ha, accepted, hh, hw]

/-- An MMUR line's record decodes to the row of its group and index (R117). -/
theorem decode_registerReadRequest {P : Params} (h : RegisterLayoutLaws P) (g : RegGroup) (b7 : BitVec 1) (index : BitVec 5) :
    decode P (registerReadRequest P g b7 index) = .ok (rowRead g b7 index) := by
  obtain ⟨-, -, hg, hb, hi⟩ := h.1 g b7 index
  rw [registerReadRequest, (by decide : commandWord false 0 2 9 = 0x0029#16), decode_pread32, physicalRead32,
    if_pos (isRegisterWord_registerAddress h g b7 index), registerReadRow]
  simp only [registerAddress_sub, hg, hb, hi]
  cases g <;> rfl

/-- An MMUW line's record decodes to the row of its group, index and value (R117). -/
theorem decode_registerWriteRequest {P : Params} (h : RegisterLayoutLaws P) (g : RegGroup) (b7 : BitVec 1) (index : BitVec 5)
    (v : Word) : decode P (registerWriteRequest P g b7 index v) = .ok (rowWrite g b7 index v) := by
  obtain ⟨-, -, hg, hb, hi⟩ := h.1 g b7 index
  rw [registerWriteRequest, (by decide : commandWord false 0 2 10 = 0x002A#16), decode_pwrite32, physicalWrite32,
    if_pos (isRegisterWord_registerAddress h g b7 index), registerWriteRow]
  simp only [registerAddress_sub, hg, hb, hi]
  cases g <;> rfl

/-! ### SETSECT -/

/-- Every length of 13 bits has its SRAMB word under L0 (R106). -/
theorem sectLen_srambOf {len : Word} (h : len.toNat < 2 ^ 13) : params.sectLen (params.srambOf len) = len := by
  apply BitVec.eq_of_toNat_eq
  show (((len <<< 10) >>> 10) &&& BitVec.ofNat 32 (2 ^ 13 - 1)).toNat = _
  rw [BitVec.toNat_and, BitVec.toNat_ushiftRight, BitVec.toNat_shiftLeft, BitVec.toNat_ofNat, Nat.mod_eq_of_lt (by omega : 2 ^ 13 - 1 < 2 ^ 32),
    Nat.and_two_pow_sub_one_eq_mod, Nat.shiftRight_eq_div_pow, Nat.shiftLeft_eq]
  omega

end Sys2Proof.Machine
end

