-- ==== Sys2Proof/Laws/Walk.lean ====
section
/-! SUPPORT. What the two halves of a translation do when the descriptors are at hand (`segmentOf`, `pageOf`) and lie clear of the MMU
window: the outcome, the word left in memory, the cache entry, and everything that stays. -/

namespace Sys2Proof.Machine

/-! ### One descriptor word -/

/-- From `s` to `t` the word `v` went to the address `pa`: RAM there holds it, anything else is I/O log or nothing. -/
structure WordWritten (pa v : Word) (s t : State) : Prop where
  eq : t = { s with ram := t.ram, ioLog := t.ioLog }
  ram : t.ram = if regionOf params pa = .ram then Memory.writeWide s.ram pa.toNat .word v else s.ram
  io : regionOf params pa ≠ .io → t.ioLog = s.ioLog

/-- A word write outside the MMU window goes on and is that. -/
theorem physWrite_clear {pa : Word} (ha : Width.word.aligned pa = true) (hw : inMmuWindow params pa = false) (v : Word)
    (s : State) : ∃ t, physWrite params pa .word v s = .go () t ∧ WordWritten pa v s t := by
  unfold physWrite
  rw [if_pos ha]
  cases hr : regionOf params pa with
  | rom => exact ⟨s, rfl, ⟨rfl, by simp [hr], fun _ => rfl⟩⟩
  | unmapped => exact ⟨s, rfl, ⟨rfl, by simp [hr], fun _ => rfl⟩⟩
  | ram => exact ⟨_, rfl, ⟨by cases s; rfl, by simp [hr], fun _ => rfl⟩⟩
  | io => simp only [hw]; exact ⟨_, rfl, ⟨by cases s; rfl, by simp [hr], fun h => absurd hr h⟩⟩

/-- Reading a word elsewhere after a word write. -/
theorem Memory.readWide_writeWide_other (m : Memory) {a b : Nat} (v : Word) (h : a + 4 ≤ b ∨ b + 4 ≤ a) :
    Memory.readWide (Memory.writeWide m b .word v) a .word = Memory.readWide m a .word := by
  simp only [Memory.readWide]
  rw [Memory.read_writeWide_other, Memory.read_writeWide_other, Memory.read_writeWide_other, Memory.read_writeWide_other] <;>
    simp only [Width.bytes] <;> omega

/-- Reading a word after writing it. -/
theorem Memory.readWide_writeWide (m : Memory) (b : Nat) (v : Word) :
    Memory.readWide (Memory.writeWide m b .word v) b .word = v := by
  simp only [Memory.readWide]
  obtain ⟨h1, h2, h3, h4⟩ := Memory.read_writeWide_word m b v Config.powerOnByte
  rw [h1, h2, h3, h4, word_of_bytes]

/-- `bigEndian` of a word is the word read. -/
theorem bigEndian_word (m : Memory) (a : Nat) : bigEndian m a .word = (Memory.readWide m a .word).toNat := by
  simp only [bigEndian, Memory.readWide, BitVec.toNat_append]
  have h1 := (Memory.read m (a + 1)).isLt
  have h2 := (Memory.read m (a + 2)).isLt
  have h3 := (Memory.read m (a + 3)).isLt
  rw [← Nat.shiftLeft_add_eq_or_of_lt h3, ← Nat.shiftLeft_add_eq_or_of_lt h2, ← Nat.shiftLeft_add_eq_or_of_lt h1]
  simp only [Nat.shiftLeft_eq]
  omega

/-- Descriptor words elsewhere in plain memory read as before. -/
theorem WordWritten.plainWord_other {pa v qa : Word} {s t : State} (h : WordWritten pa v s t)
    (hp : Width.word.aligned pa = true) (hq : Width.word.aligned qa = true) (hne : qa ≠ pa) :
    plainWord params t qa = plainWord params s qa := by
  have hrom : t.rom = s.rom := by rw [h.eq]
  unfold plainWord
  cases hr : regionOf params qa <;> simp only [hrom]
  rw [h.ram]
  split
  · rw [Memory.readWide_writeWide_other _ _ (aligned_apart hq hp hne)]
  · rfl

/-! ### What a half may have done -/

/-- From `s` to `t` the descriptor word at `pa`, `old` in hand, has become `w`: the word in RAM if it is another, no byte outside it, no
other descriptor in plain memory. -/
structure WordUpdated (pa old w : Word) (s t : State) : Prop where
  changed : w ≠ old → regionOf params pa = .ram → Memory.readWide t.ram pa.toNat .word = w
  same : w = old → t.ram = s.ram
  elsewhere : regionOf params pa ≠ .ram → t.ram = s.ram
  other : ∀ a, a < pa.toNat ∨ pa.toNat + 4 ≤ a → Memory.read t.ram a = Memory.read s.ram a
  wf : Memory.wf s.ram = true → Memory.wf t.ram = true
  io : regionOf params pa ≠ .io → t.ioLog = s.ioLog
  plain : ∀ qa, Width.word.aligned qa = true → qa ≠ pa → plainWord params t qa = plainWord params s qa

theorem WordUpdated.refl (pa old : Word) {s t : State} (hr : t.ram = s.ram) (hm : t.rom = s.rom) (hl : t.ioLog = s.ioLog) :
    WordUpdated pa old old s t where
  changed h := absurd rfl h
  same _ := hr
  elsewhere _ := hr
  other _ _ := by rw [hr]
  wf h := by rw [hr]; exact h
  io _ := hl
  plain _ _ _ := by unfold plainWord; rw [hr, hm]

theorem WordUpdated.write {pa old w v : Word} {s t u : State} (hp : Width.word.aligned pa = true)
    (h : WordUpdated pa old w s t) (hw : WordWritten pa v t u) (hv : v ≠ old) : WordUpdated pa old v s u where
  changed _ hr := by rw [hw.ram, if_pos hr, Memory.readWide_writeWide]
  same e := absurd e hv
  elsewhere hr := by rw [hw.ram, if_neg hr, h.elsewhere hr]
  other a ha := by
    rw [hw.ram]
    split
    · rw [Memory.read_writeWide_other _ _ _ _ ha, h.other a ha]
    · exact h.other a ha
  wf hm := by
    rw [hw.ram]
    split
    · exact Memory.wf_writeWide _ _ _ (h.wf hm)
    · exact h.wf hm
  io hr := by rw [hw.io hr, h.io hr]
  plain qa hq hne := by rw [hw.plainWord_other hp hq hne, h.plain qa hq hne]

/-! ### The segment half -/

/-- The segment descriptor at hand is resolved with nothing written. -/
theorem resolveSegment_of_segmentOf {s : State} {x : Access} {g : SegInHand} (h : segmentOf params s x.va = some g) :
    resolveSegment params x s = .go g s := by
  unfold segmentOf at h
  unfold resolveSegment
  cases hl : lookupSegment (sdcKey params x.va) s.sdc with
  | some e => simp_all
  | none =>
    simp only [hl] at h ⊢
    cases h0 : plainWord params s (sdAddr params s x.va) with
    | none => simp [h0] at h
    | some a =>
      cases h1 : plainWord params s (sdAddr params s x.va + 4) with
      | none => rw [h0, h1] at h; cases h
      | some b =>
        simp only [h0, h1, Option.some.injEq] at h
        rw [physRead_plain (sdAddr_aligned _ _) h0, Res.bind_go, physRead_plain (sdAddr_add_four_aligned _ _) h1, Res.bind_go, h]

/-- Its address is the one of R174. -/
theorem segmentOf_sda {s : State} {va : Word} {g : SegInHand} (h : segmentOf params s va = some g) : g.sda = sdAddr params s va := by
  unfold segmentOf at h
  split at h
  · simp only [Option.some.injEq] at h; rw [← h]
  · split at h
    · simp only [Option.some.injEq] at h; rw [← h]
    · cases h

/-- From `s` to `t` the segment half has run (R179 to R182): the descriptor word is `w`, a miss under side effects has filled the SDC,
and nothing but the SDC, the free inputs, RAM and the I/O log has changed. -/
structure SegmentDone (x : Access) (g : SegInHand) (w : Word) (s t : State) : Prop where
  eq : t = { s with sdc := t.sdc, draws := t.draws, drawCount := t.drawCount, ram := t.ram, ioLog := t.ioLog }
  word : WordUpdated g.sda g.sd0 w s t
  hit : g.hit = true → t.sdc = s.sdc
  filled : x.se = true → g.hit = false → ∃ kept, kept.Sublist s.sdc ∧ t.sdc = ⟨sdcKey params x.va, g.sd0, g.sd1⟩ :: kept
  peek : x.se = false → t.sdc = s.sdc ∧ t.draws = s.draws ∧ t.drawCount = s.drawCount

theorem SegmentDone.fill (x : Access) (g : SegInHand) (s : State) : SegmentDone x g g.sd0 s (fillSegment params x g s) := by
  unfold fillSegment
  split
  · rename_i h
    have e : insertSegment (sdcKey params x.va) g.sd0 g.sd1 s =
        { s with sdc := (insertSegment (sdcKey params x.va) g.sd0 g.sd1 s).sdc, draws := s.draw.2.draws,
                 drawCount := s.draw.2.drawCount } := by
      unfold insertSegment; rw [State.draw_eq s]; rfl
    refine ⟨by rw [e], .refl _ _ (by rw [e]) (by rw [e]) (by rw [e]), fun hh => ?_, fun _ _ => ?_, fun hh => ?_⟩
    · simp [hh] at h
    · exact insertSegment_sdc _ _ _ s
    · simp [hh] at h
  · rename_i h
    refine ⟨rfl, .refl _ _ rfl rfl rfl, fun _ => rfl, fun h1 h2 => ?_, fun _ => ⟨rfl, rfl, rfl⟩⟩
    exact absurd (by rw [h1, h2]; rfl) h

theorem SegmentDone.write {x : Access} {g : SegInHand} {w : Word} {s t : State} (hp : Width.word.aligned g.sda = true)
    (hw : inMmuWindow params g.sda = false) (h : SegmentDone x g w s t) (v : Word) (hv : v ≠ g.sd0) :
    ∃ u, writeBackSegment params x { g with sd0 := w } v t = .go { g with sd0 := v } u ∧ SegmentDone x g v s u := by
  obtain ⟨u, hu, up⟩ := physWrite_clear hp hw v t
  have hs : u.sdc = t.sdc ∧ u.draws = t.draws ∧ u.drawCount = t.drawCount := by rw [up.eq]; exact ⟨rfl, rfl, rfl⟩
  refine ⟨u, ?_, ?_, h.word.write hp up hv, ?_, ?_, ?_⟩
  · simp only [writeBackSegment, hu, Res.bind_go, reflectSegment]
    simp [params]
  · rw [up.eq, h.eq]
  · rw [hs.1]; exact h.hit
  · rw [hs.1]; exact h.filled
  · rw [hs.1, hs.2.1, hs.2.2]; exact h.peek

/-- Steps 3f to 5 (R180 to R182) from the filled cache on: the descriptor word is `segmentWord`, and the object trap ends the request
before the modified bit. -/
theorem translateSegment_spec {s : State} {x : Access} {g : SegInHand} (hp : Width.word.aligned g.sda = true)
    (hw : inMmuWindow params g.sda = false) :
    ∃ t, SegmentDone x g (segmentWord params x g) s t ∧
      translateSegment params x g (fillSegment params x g s) =
        if x.se = true ∧ params.objectTrap g.sd0 = true then failWith params x .otrap t
        else if params.contiguous g.sd0 then translateContiguous params x { g with sd0 := segmentWord params x g } t
        else translatePaged params x { g with sd0 := segmentWord params x g } t := by
  have h1 := SegmentDone.fill x g s
  generalize fillSegment params x g s = s1 at h1
  -- the referenced bit
  obtain ⟨w, s2, h2, e2, hwr⟩ : ∃ w s2, SegmentDone x g w s s2 ∧
      referSegment params x g s1 = .go { g with sd0 := w } s2 ∧
      w = if x.se && !params.referenced g.sd0 then params.setR g.sd0 else g.sd0 := by
    unfold referSegment
    by_cases hc : (x.se && !params.referenced g.sd0) = true
    · obtain ⟨s2, e, h⟩ := h1.write hp hw (params.setR g.sd0) (setR_ne _ (by simp at hc; exact hc.2))
      exact ⟨_, s2, h, by rw [if_pos hc]; exact e, by rw [if_pos hc]⟩
    · exact ⟨_, s1, h1, by rw [if_neg hc], by rw [if_neg hc]⟩
  have ht : params.objectTrap w = params.objectTrap g.sd0 := by rw [hwr]; split <;> simp
  have hc : params.contiguous w = params.contiguous g.sd0 := by rw [hwr]; split <;> simp
  have hm : params.modified w = params.modified g.sd0 := by rw [hwr]; split <;> simp
  have hsw : segmentWord params x g = if x.se && params.objectTrap w then w
      else if params.mAccesses x.acc && !params.modified w && (x.se || params.peekSegM) then params.setM w else w := by
    rw [hwr]; rfl
  by_cases ho : x.se = true ∧ params.objectTrap g.sd0 = true
  · have hww : segmentWord params x g = w := by rw [hsw, if_pos (by simp [ho, ht])]
    refine ⟨s2, by rw [hww]; exact h2, ?_⟩
    simp [translateSegment, e2, checkObjectTrap, ho, ht, failWith]
  · simp only [if_neg ho]
    have ho' : ¬ (x.se && params.objectTrap w) = true := by simpa [ht] using ho
    have hk : translateSegment params x g s1 = (modifySegment params x { g with sd0 := w } s2).bind fun g s =>
        if params.contiguous g.sd0 then translateContiguous params x g s else translatePaged params x g s := by
      unfold translateSegment checkObjectTrap
      rw [e2, Res.bind_go, if_neg ho', Res.bind_go]
    rw [hk]
    unfold modifySegment
    by_cases hcm : (params.mAccesses x.acc && !params.modified w && (x.se || params.peekSegM)) = true
    · have hww : segmentWord params x g = params.setM w := by rw [hsw, if_neg ho', if_pos hcm]
      have hne : params.setM w ≠ g.sd0 := by
        intro e
        have h' := modified_setM w
        rw [e, ← hm] at h'
        simp [h'] at hcm
      obtain ⟨s3, e3, h3⟩ := h2.write hp hw _ hne
      refine ⟨s3, by rw [hww]; exact h3, ?_⟩
      rw [if_pos hcm, e3, Res.bind_go, hww]
      simp [hc]
    · have hww : segmentWord params x g = w := by rw [hsw, if_neg ho', if_neg hcm]
      refine ⟨s2, by rw [hww]; exact h2, ?_⟩
      rw [if_neg hcm, Res.bind_go, hww]
      simp [hc]

/-- A segment descriptor that is valid, not indirect and present passes the checks of R176 to R178. -/
theorem checkSegment_usable {x : Access} {g : SegInHand} (h : segmentUsable params g = true) (s : State) :
    checkSegment params x g s = .go () s := by
  simp only [segmentUsable, Bool.and_eq_true, Bool.not_eq_true'] at h
  simp [checkSegment, h]

/-- Within the section bound, the segment descriptor at hand, the walk is the checks, the fill and the rest (R173 to R179). -/
theorem translateEnabled_of_segmentOf {s : State} {x : Access} {g : SegInHand}
    (hb : (params.ssl x.va).toNat ≤ (params.sectLen (s.sramb.get (params.sid x.va))).toNat)
    (hg : segmentOf params s x.va = some g) :
    translateEnabled params x s =
      (checkSegment params x g s).bind fun _ s => translateSegment params x g (fillSegment params x g s) := by
  unfold translateEnabled
  rw [if_neg (by rw [BitVec.lt_def]; omega), resolveSegment_of_segmentOf hg, Res.bind_go]

/-! ### A contiguous segment -/

/-- R183 to R185: the verdict, and nothing written but the fault record. -/
theorem translateContiguous_spec (x : Access) (g : SegInHand) (t : State) :
    translateContiguous params x g t =
      match verdictContiguous params x g with
      | .value pa => .go pa t
      | .fault c => .ended (.fault c) (recordFault params c x.va t)
      | r => .ended r t := by
  unfold translateContiguous verdictContiguous
  by_cases k1 : (x.se && !params.permits (params.rights g.sd0) x.acc x.lvl) = true
  · have v1 : x.se = true ∧ params.permits (params.rights g.sd0) x.acc x.lvl = false := by simpa using k1
    rw [if_pos k1, if_pos v1]
    simp [failWith, failure, v1.1]
  · have v1 : ¬ (x.se = true ∧ params.permits (params.rights g.sd0) x.acc x.lvl = false) := by simpa using k1
    simp only [if_neg k1, if_neg v1]
    by_cases k2 : params.maxOff g.sd0 < params.sot x.va
    · have v2 : (params.maxOff g.sd0).toNat < (params.sot x.va).toNat := by simpa [BitVec.lt_def] using k2
      simp only [if_pos k2, if_pos v2]
      cases hse : x.se <;> simp [failWith, failure, hse]
    · have v2 : ¬ (params.maxOff g.sd0).toNat < (params.sot x.va).toNat := by simpa [BitVec.lt_def] using k2
      simp only [if_neg k2, if_neg v2]

/-! ### The page half -/

theorem referredPageWord_agrees {α : Type} (f : Word → α) (h : ∀ w, f (params.setPR w) = f w) (x : Access) (q : PageInHand) :
    f (referredPageWord params x q) = f q.pd := by
  unfold referredPageWord; split <;> simp [h]

/-- From `s` to `t` the page half has run, or a part of it: the descriptor word is `w`, a miss under side effects on a present page has
filled the PDC, and nothing but the PDC, the free inputs, RAM and the I/O log has changed. -/
structure PageDone (x : Access) (g : SegInHand) (q : PageInHand) (w : Word) (s t : State) : Prop where
  eq : t = { s with pdc := t.pdc, draws := t.draws, drawCount := t.drawCount, ram := t.ram, ioLog := t.ioLog }
  word : WordUpdated q.pda q.pd w s t
  unfilled : q.hit = true ∨ x.se = false ∨ params.pagePresent q.pd = false → t.pdc = s.pdc
  filled : x.se = true → q.hit = false → params.pagePresent q.pd = true →
    ∃ kept, kept.Sublist s.pdc ∧ t.pdc = ⟨pdcKey params x.va, q.pd, params.rights g.sd0⟩ :: kept
  peek : x.se = false → t.draws = s.draws ∧ t.drawCount = s.drawCount

theorem PageDone.fill (x : Access) (g : SegInHand) {q : PageInHand} (hq : q.hit = false) (s : State) :
    PageDone x g q q.pd s (fillPage params x g q s) := by
  unfold fillPage
  split
  · rename_i h
    have e : insertPage (pdcKey params x.va) q.pd (params.rights g.sd0) s =
        { s with pdc := (insertPage (pdcKey params x.va) q.pd (params.rights g.sd0) s).pdc, draws := s.draw.2.draws,
                 drawCount := s.draw.2.drawCount } := by
      unfold insertPage; rw [State.draw_eq s]; rfl
    refine ⟨by rw [e], .refl _ _ (by rw [e]) (by rw [e]) (by rw [e]), fun hh => ?_, fun _ _ _ => ?_, fun hh => ?_⟩
    · rcases hh with hh | hh | hh
      · rw [hq] at hh; cases hh
      · simp [hh] at h
      · simp [hh] at h
    · exact insertPage_pdc _ _ _ s
    · simp [hh] at h
  · rename_i h
    refine ⟨rfl, .refl _ _ rfl rfl rfl, fun _ => rfl, fun h1 _ h3 => ?_, fun _ => ⟨rfl, rfl⟩⟩
    exact absurd (by rw [h1, h3]; rfl) h

theorem PageDone.hit (x : Access) (g : SegInHand) {q : PageInHand} (hq : q.hit = true) (s : State) : PageDone x g q q.pd s s :=
  ⟨rfl, .refl _ _ rfl rfl rfl, fun _ => rfl, fun _ h => (by rw [hq] at h; cases h), fun _ => ⟨rfl, rfl⟩⟩

theorem PageDone.write {x : Access} {g : SegInHand} {q : PageInHand} {w : Word} {s t : State}
    (hp : Width.word.aligned q.pda = true) (hw : inMmuWindow params q.pda = false) (h : PageDone x g q w s t) (v : Word)
    (hv : v ≠ q.pd) :
    ∃ u, writeBackPage params x { q with pd := w } v t = .go { q with pd := v } u ∧ PageDone x g q v s u := by
  obtain ⟨u, hu, up⟩ := physWrite_clear hp hw v t
  have hs : u.pdc = t.pdc ∧ u.draws = t.draws ∧ u.drawCount = t.drawCount := by rw [up.eq]; exact ⟨rfl, rfl, rfl⟩
  refine ⟨u, ?_, ?_, h.word.write hp up hv, ?_, ?_, ?_⟩
  · simp only [writeBackPage, hu, Res.bind_go, reflectPage]
    simp [params]
  · rw [up.eq, h.eq]
  · rw [hs.1]; exact h.unfilled
  · rw [hs.1]; exact h.filled
  · rw [hs.2.1, hs.2.2]; exact h.peek

/-- The page descriptor at hand lies at the address of R186. -/
theorem pageOf_pda {s : State} {va : Word} {g : SegInHand} {q : PageInHand} (h : pageOf params s va g = some q) :
    q.pda = pdAddr params va g.sd1 := by
  unfold pageOf at h
  split at h
  · simp only [Option.some.injEq] at h; rw [← h]
  · cases hp : plainWord params s (pdAddr params va g.sd1) with
    | none => rw [hp] at h; cases h
    | some pd => rw [hp] at h; simp only [Option.map_some, Option.some.injEq] at h; rw [← h]

/-- Beyond the bound on a PDC miss the translation fails with PDTLEN (R187). -/
theorem translatePaged_over {t : State} {x : Access} {g : SegInHand} (hl : lookupPage (pdcKey params x.va) t.pdc = none)
    (hb : lastPage params g.sd0 < params.psl x.va) : translatePaged params x g t = failWith params x .pdtlen t := by
  unfold translatePaged resolvePage
  simp only [hl]
  rw [if_pos hb]
  cases hse : x.se <;> simp [failWith, hse]

/-- Resolving the page descriptor at hand (R186 to R190). -/
theorem resolvePage_of_pageOf {t : State} {x : Access} {g : SegInHand} {q : PageInHand} (hq : pageOf params t x.va g = some q)
    (hw : inMmuWindow params (pdAddr params x.va g.sd1) = false)
    (hb : ¬ (lookupPage (pdcKey params x.va) t.pdc = none ∧ lastPage params g.sd0 < params.psl x.va)) :
    ∃ u, resolvePage params x g t = .go { q with pd := referredPageWord params x q } u ∧ PageDone x g q (referredPageWord params x q) t u := by
  have hpda := pageOf_pda hq
  unfold pageOf at hq
  unfold resolvePage
  cases hl : lookupPage (pdcKey params x.va) t.pdc with
  | some e =>
    simp only [hl, Option.some.injEq] at hq
    subst hq
    exact ⟨t, by simp [referredPageWord], by simpa [referredPageWord] using PageDone.hit x g rfl t⟩
  | none =>
    simp only [hl] at hq ⊢
    rw [if_neg fun h => hb ⟨hl, h⟩]
    cases hp : plainWord params t (pdAddr params x.va g.sd1) with
    | none => rw [hp] at hq; cases hq
    | some pd =>
      rw [hp] at hq
      simp only [Option.map_some, Option.some.injEq] at hq
      rw [physRead_plain (pdAddr_aligned _ _) hp, Res.bind_go, hq]
      have hhit : q.hit = false := by rw [← hq]
      have hal : Width.word.aligned q.pda = true := by rw [hpda]; exact pdAddr_aligned _ _
      rw [← hpda] at hw
      have h1 := PageDone.fill x g hhit t
      generalize fillPage params x g q t = s1 at h1
      unfold referPage
      by_cases hc : (x.se && params.pagePresent q.pd && !params.pageReferenced q.pd) = true
      · have hpw : referredPageWord params x q = params.setPR q.pd := by
          unfold referredPageWord; rw [if_pos (by simpa [hhit] using hc)]
        obtain ⟨s2, e2, h2⟩ := h1.write hal hw (params.setPR q.pd) (setPR_ne _ (by simp at hc; exact hc.2))
        exact ⟨s2, by rw [if_pos hc, hpw]; exact e2, by rw [hpw]; exact h2⟩
      · have hpw : referredPageWord params x q = q.pd := by
          unfold referredPageWord; rw [if_neg (by simpa [hhit] using hc)]
        exact ⟨s1, by rw [if_neg hc, hpw], by rw [hpw]; exact h1⟩

/-- The page checks (R191 to R194): the verdict, and nothing written but the fault record. -/
theorem checkPage_spec (x : Access) (g : SegInHand) (q : PageInHand) (u : State) :
    checkPage params x g { q with pd := referredPageWord params x q } u =
      match verdictPage params x g q with
      | .fault c => .ended (.fault c) (recordFault params c x.va u)
      | .fail c => .ended (.fail c) u
      | _ => .go () u := by
  have c1 := referredPageWord_agrees params.pagePresent pagePresent_setPR x q
  have c2 := referredPageWord_agrees params.lastInSegment lastInSegment_setPR x q
  have c3 := referredPageWord_agrees params.writeFault writeFault_setPR x q
  have hf : ∀ c : TransFault, (failWith params x c u : Res Unit) = match failure x c with
      | .fault c => .ended (.fault c) (recordFault params c x.va u)
      | .fail c => .ended (.fail c) u
      | _ => .go () u := by
    intro c; cases hse : x.se <;> simp [failWith, failure, hse]
  unfold checkPage verdictPage
  simp only [c1, c2, c3]
  by_cases k1 : (x.se && !params.permits q.rights x.acc x.lvl) = true
  · have v1 : x.se = true ∧ params.permits q.rights x.acc x.lvl = false := by simpa using k1
    rw [if_pos k1, if_pos v1, hf]
  have v1 : ¬ (x.se = true ∧ params.permits q.rights x.acc x.lvl = false) := by simpa using k1
  rw [if_neg k1, if_neg v1]
  by_cases k2 : (q.hit && params.lastInSegment q.pd && decide (params.maxOff g.sd0 < params.sot x.va)) = true
  · have v2 : q.hit = true ∧ params.lastInSegment q.pd = true ∧ (params.maxOff g.sd0).toNat < (params.sot x.va).toNat := by
      simpa [and_assoc, BitVec.lt_def] using k2
    rw [if_pos k2, if_pos v2, hf]
  have v2 : ¬ (q.hit = true ∧ params.lastInSegment q.pd = true ∧ (params.maxOff g.sd0).toNat < (params.sot x.va).toNat) := by
    simpa [and_assoc, BitVec.lt_def] using k2
  rw [if_neg k2, if_neg v2]
  by_cases k3 : (!params.pagePresent q.pd) = true
  · have v3 : params.pagePresent q.pd = false := by simpa using k3
    rw [if_pos k3, if_pos v3, hf]
  have v3 : ¬ params.pagePresent q.pd = false := by simpa using k3
  rw [if_neg k3, if_neg v3]
  by_cases k4 : (x.se && (x.acc == .write || x.acc == .iread) && params.writeFault q.pd) = true
  · have v4 : x.se = true ∧ (x.acc = .write ∨ x.acc = .iread) ∧ params.writeFault q.pd = true := by
      simpa [and_assoc] using k4
    rw [if_pos k4, if_pos v4, hf]
  have v4 : ¬ (x.se = true ∧ (x.acc = .write ∨ x.acc = .iread) ∧ params.writeFault q.pd = true) := by
    simpa [and_assoc] using k4
  rw [if_neg k4, if_neg v4]

/-- Step 6 for a paged segment with the page descriptor at hand, within the bound: a success leaves `pageWord` and answers the verdict's
address; a failure answers the verdict with the word after the referenced bit left. -/
theorem translatePaged_spec {t : State} {x : Access} {g : SegInHand} {q : PageInHand} (hq : pageOf params t x.va g = some q)
    (hw : inMmuWindow params (pdAddr params x.va g.sd1) = false)
    (hb : ¬ (lookupPage (pdcKey params x.va) t.pdc = none ∧ lastPage params g.sd0 < params.psl x.va)) :
    (∃ pa u, verdictPage params x g q = .value pa ∧ translatePaged params x g t = .go pa u ∧
      PageDone x g q (pageWord params x q) t u) ∨
    (∃ c u, verdictPage params x g q = failure x c ∧ translatePaged params x g t = failWith params x c u ∧
      PageDone x g q (referredPageWord params x q) t u) := by
  obtain ⟨u, e1, h1⟩ := resolvePage_of_pageOf hq hw hb
  have hpda := pageOf_pda hq
  have hal : Width.word.aligned q.pda = true := by rw [hpda]; exact pdAddr_aligned _ _
  rw [← hpda] at hw
  have et : translatePaged params x g t = (checkPage params x g { q with pd := referredPageWord params x q } u).bind fun _ s =>
      (modifyPage params x { q with pd := referredPageWord params x q } s).bind fun q s =>
        .go (params.pageBase q.pd + params.pot x.va) s := by
    unfold translatePaged; rw [e1]; rfl
  have hv : (∃ c, verdictPage params x g q = failure x c) ∨
      verdictPage params x g q = .value (params.pageBase q.pd + params.pot x.va) := by
    unfold verdictPage
    split
    · exact .inl ⟨_, rfl⟩
    split
    · exact .inl ⟨_, rfl⟩
    split
    · exact .inl ⟨_, rfl⟩
    split
    · exact .inl ⟨_, rfl⟩
    exact .inr rfl
  rcases hv with ⟨c, hv⟩ | hv
  · refine .inr ⟨c, u, hv, ?_, h1⟩
    rw [et, checkPage_spec, hv]
    cases hse : x.se <;> simp [failure, failWith, hse]
  · refine .inl ?_
    have et2 : translatePaged params x g t = (modifyPage params x { q with pd := referredPageWord params x q } u).bind fun q s =>
        .go (params.pageBase q.pd + params.pot x.va) s := by
      rw [et, checkPage_spec, hv, Res.bind_go]
    have cb := referredPageWord_agrees params.pageBase pageBase_setPR x q
    have cm := referredPageWord_agrees params.pageModified pageModified_setPR x q
    unfold modifyPage at et2
    by_cases hc : (x.se && params.mAccesses x.acc && !params.pageModified (referredPageWord params x q)) = true
    · have hne : params.setPM (referredPageWord params x q) ≠ q.pd := by
        intro e
        have h' := pageModified_setPM (referredPageWord params x q)
        rw [e, ← cm] at h'
        simp [h'] at hc
      obtain ⟨u2, e2, h2⟩ := h1.write hal hw _ hne
      have hpw : pageWord params x q = params.setPM (referredPageWord params x q) := by
        unfold pageWord; rw [if_pos hc]
      refine ⟨_, u2, hv, ?_, by rw [hpw]; exact h2⟩
      rw [et2, if_pos hc, e2, Res.bind_go]
      simp [cb]
    · have hpw : pageWord params x q = referredPageWord params x q := by
        unfold pageWord; rw [if_neg hc]
      refine ⟨_, u, hv, ?_, by rw [hpw]; exact h1⟩
      rw [et2, if_neg hc, Res.bind_go, cb]

end Sys2Proof.Machine
end

