-- ==== Sys2Proof/Tests/Slice0.lean ====
section
/-! SUPPORT. The model's own tests: refused ill-formed terms, words written out from 30_encoding.md that decode to what they stand for,
one step each from the vectors of spec/95_test_vectors.md (the vector's name stands in the test's comment), and for every obligation
with hypotheses a state and operands that meet them. -/

namespace Sys2Proof.Tests

open Sys2Proof.Machine

/-! ### Well-formedness -/

/-- PREAD32 and PWRITE32 of a register word are the register rows (R117), so the check refuses them. -/
theorem test_wellFormed_refuses_register_words :
    (Instr.pread32 0x00040600).wellFormed params = false ∧ (Instr.pwrite32 0x00040FFC 1).wellFormed params = false := by decide

/-- Their neighbours are well-formed: the words beside the window and a misaligned address in it. -/
theorem test_wellFormed_takes_other_words :
    (Instr.pread32 0x0003FFFC).wellFormed params = true ∧ (Instr.pread32 0x00041000).wellFormed params = true ∧
    (Instr.pwrite32 0x00040602 1).wellFormed params = true := by decide

/-! ### Words of R116 and R111, written out

Command words as `zero(15:9)_se(8)_lvl(7:6)_acc(5:4)_op(3:0)`; register addresses as
`MMU_BASE(31:12)_group(11:8)_b7(7)_index(6:2)_00`. -/

theorem test_decode_translated_requests :
    decode params ⟨0b0000000_1_10_01_0000#16, 0x60020, 0⟩ = .ok (.translate .write 2 true 0x60020) ∧
    decode params ⟨0b0000000_0_00_11_0000#16, 0x60020, 0⟩ = .ok (.translate .fetch 0 false 0x60020) ∧
    decode params ⟨0b0000000_0_11_10_0001#16, 0x60021, 0⟩ = .ok (.read8 .iread 3 0x60021) ∧
    decode params ⟨0b0000000_0_01_00_0010#16, 0x60022, 0⟩ = .ok (.read16 .read 1 0x60022) ∧
    decode params ⟨0b0000000_0_00_01_0011#16, 0x60020, 0⟩ = .ok (.read32 .write 0 0x60020) ∧
    decode params ⟨0b0000000_0_11_00_0100#16, 0x60023, 0x1FF⟩ = .ok (.write8 3 0x60023 0x1FF) ∧
    decode params ⟨0b0000000_0_10_00_0101#16, 0x60022, 7⟩ = .ok (.write16 2 0x60022 7) ∧
    decode params ⟨0b0000000_0_01_00_0110#16, 0x60020, 8⟩ = .ok (.write32 1 0x60020 8) ∧
    decode params ⟨0b0000000_0_00_00_0111#16, 0x60021, 0⟩ = .ok (.examine 0x60021) ∧
    decode params ⟨0b0000000_0_00_00_1000#16, 0x60020, 0xAB⟩ = .ok (.deposit 0x60020 0xAB) := by decide

theorem test_decode_port_and_control_requests :
    decode params ⟨0b0000000_0_00_00_1001#16, 0x02000011, 0⟩ = .ok (.pread8 0x02000011) ∧
    decode params ⟨0b0000000_0_00_01_1001#16, 0x02000012, 0⟩ = .ok (.pread16 0x02000012) ∧
    decode params ⟨0b0000000_0_00_10_1001#16, 0x02000010, 0⟩ = .ok (.pread32 0x02000010) ∧
    decode params ⟨0b0000000_0_00_00_1010#16, 0x02000011, 5⟩ = .ok (.pwrite8 0x02000011 5) ∧
    decode params ⟨0b0000000_0_00_01_1010#16, 0x02000012, 6⟩ = .ok (.pwrite16 0x02000012 6) ∧
    decode params ⟨0b0000000_0_00_10_1010#16, 0x02000010, 7⟩ = .ok (.pwrite32 0x02000010 7) ∧
    decode params ⟨0b0000000_0_00_00_1011#16, 0, 1⟩ = .ok (.setEnable 1) ∧
    decode params ⟨0b0000000_0_00_00_1100#16, 0, 0⟩ = .ok .clearAlign ∧
    decode params ⟨0b0000000_0_00_00_1101#16, 0, 0⟩ = .ok .reset ∧
    decode params ⟨0b1000000_1_01_10_1110#16, 3, 4⟩ = .ok (.reservedE 0b1000000_1_01_10#12 3 4) ∧
    decode params ⟨0b0000001_0_00_01_1111#16, 5, 6⟩ = .ok (.reservedF 0b0000001_0_00_01#12 5 6) := by decide

theorem test_decode_register_reads :
    decode params ⟨0x0029#16, 0b00000000000001000000_0000_0_00011_00#32, 0⟩ = .ok (.mmurSdcl 0 3) ∧
    decode params ⟨0x0029#16, 0b00000000000001000000_0001_1_00000_00#32, 0⟩ = .ok (.mmurSdch 1 0) ∧
    decode params ⟨0x0029#16, 0b00000000000001000000_0010_0_10000_00#32, 0⟩ = .ok (.mmurPdcrl 0 16) ∧
    decode params ⟨0x0029#16, 0b00000000000001000000_0011_0_00001_00#32, 0⟩ = .ok (.mmurPdcrh 0 1) ∧
    decode params ⟨0x0029#16, 0b00000000000001000000_0100_1_11111_00#32, 0⟩ = .ok (.mmurPdcll 1 31) ∧
    decode params ⟨0x0029#16, 0b00000000000001000000_0101_0_00010_00#32, 0⟩ = .ok (.mmurPdclh 0 2) ∧
    decode params ⟨0x0029#16, 0b00000000000001000000_0110_0_00101_00#32, 0⟩ = .ok (.mmurSrama 0 5) ∧
    decode params ⟨0x0029#16, 0b00000000000001000000_0111_0_00010_00#32, 0⟩ = .ok (.mmurSramb 0 2) ∧
    decode params ⟨0x0029#16, 0b00000000000001000000_1000_0_00000_00#32, 0⟩ = .ok (.mmurFc 0 0) ∧
    decode params ⟨0x0029#16, 0b00000000000001000000_1001_0_00000_00#32, 0⟩ = .ok (.mmurFa 0 0) ∧
    decode params ⟨0x0029#16, 0b00000000000001000000_1010_0_00000_00#32, 0⟩ = .ok (.mmurConf 0 0) ∧
    decode params ⟨0x0029#16, 0b00000000000001000000_1011_0_00000_00#32, 0⟩ = .ok (.mmurVar 0 0) ∧
    decode params ⟨0x0029#16, 0b00000000000001000000_1100_0_00000_00#32, 0⟩ = .ok (.mmurUndef12 0 0) ∧
    decode params ⟨0x0029#16, 0b00000000000001000000_1101_0_00000_00#32, 0⟩ = .ok (.mmurUndef13 0 0) ∧
    decode params ⟨0x0029#16, 0b00000000000001000000_1110_0_00000_00#32, 0⟩ = .ok (.mmurUndef14 0 0) ∧
    decode params ⟨0x0029#16, 0b00000000000001000000_1111_1_11111_00#32, 0⟩ = .ok (.mmurUndef15 1 31) := by decide

theorem test_decode_register_writes :
    decode params ⟨0x002A#16, 0b00000000000001000000_0000_0_00011_00#32, 9⟩ = .ok (.mmuwSdcl 0 3 9) ∧
    decode params ⟨0x002A#16, 0b00000000000001000000_0001_0_00001_00#32, 0⟩ = .ok (.mmuwSdch 0 1 0) ∧
    decode params ⟨0x002A#16, 0b00000000000001000000_0010_0_10000_00#32, 9⟩ = .ok (.mmuwPdcrl 0 16 9) ∧
    decode params ⟨0x002A#16, 0b00000000000001000000_0011_0_00000_00#32, 0⟩ = .ok (.mmuwPdcrh 0 0 0) ∧
    decode params ⟨0x002A#16, 0b00000000000001000000_0100_1_11111_00#32, 9⟩ = .ok (.mmuwPdcll 1 31 9) ∧
    decode params ⟨0x002A#16, 0b00000000000001000000_0101_0_00010_00#32, 9⟩ = .ok (.mmuwPdclh 0 2 9) ∧
    decode params ⟨0x002A#16, 0b00000000000001000000_0110_1_00000_00#32, 0x02000000⟩ = .ok (.mmuwSrama 1 0 0x02000000) ∧
    decode params ⟨0x002A#16, 0b00000000000001000000_0111_0_00000_00#32, 0x2800⟩ = .ok (.mmuwSramb 0 0 0x2800) ∧
    decode params ⟨0x002A#16, 0b00000000000001000000_1000_0_00000_00#32, 9⟩ = .ok (.mmuwFc 0 0 9) ∧
    decode params ⟨0x002A#16, 0b00000000000001000000_1001_0_00000_00#32, 9⟩ = .ok (.mmuwFa 0 0 9) ∧
    decode params ⟨0x002A#16, 0b00000000000001000000_1010_0_00000_00#32, 9⟩ = .ok (.mmuwConf 0 0 9) ∧
    decode params ⟨0x002A#16, 0b00000000000001000000_1011_0_00000_00#32, 9⟩ = .ok (.mmuwVar 0 0 9) ∧
    decode params ⟨0x002A#16, 0b00000000000001000000_1100_0_00000_00#32, 9⟩ = .ok (.mmuwUndef12 0 0 9) ∧
    decode params ⟨0x002A#16, 0b00000000000001000000_1101_0_00000_00#32, 9⟩ = .ok (.mmuwUndef13 0 0 9) ∧
    decode params ⟨0x002A#16, 0b00000000000001000000_1110_0_00000_00#32, 9⟩ = .ok (.mmuwUndef14 0 0 9) ∧
    decode params ⟨0x002A#16, 0b00000000000001000000_1111_0_00000_00#32, 1⟩ = .ok (.mmuwUndef15 0 0 1) := by decide

/-! ### States for one step -/

/-- RAM from words. -/
def ramOf (l : List (Nat × Nat)) : Memory := l.foldl (fun m w => Memory.writeWide m w.1 .word (BitVec.ofNat 32 w.2)) []

/-- The RAM words of the base state T0 of 95_test_vectors.md. -/
def t0Words : List (Nat × Nat) :=
  [(0x02000018, 0xF0002865), (0x0200001C, 0x02010000), (0x02000020, 0xF00BFC61), (0x02000024, 0x02003000),
   (0x02003000, 0x02004021), (0x02003004, 0x02004821), (0x02003008, 0x02005021), (0x02010020, 0x11223344),
   (0x02004124, 0xCAFEF00D)]

/-- The base state T0 with more RAM words, with draws that evict nothing. -/
def t0 (l : List (Nat × Nat)) : State :=
  { State.reset with
    enable := true, srama := ⟨0x02000000, 0, 0, 0⟩, sramb := ⟨0x2800, 0, 0, 0⟩, ram := ramOf (t0Words ++ l),
    rom := [(0, 0x12), (1, 0x34), (2, 0x56), (3, 0x78)], draws := [0, 0, 0, 0] }

/-- T0, halted. -/
def t0Halted : State := { t0 [] with halted := true }

/-- T0 with the MMU disabled. -/
def t0Off : State := { t0 [] with enable := false }

/-- The state after a request. -/
def after (i : Instr) (s : State) : State :=
  match exec i s with
  | .next t => t
  | .fault _ => s
  | .refused _ => s

theorem exec_after (i : Instr) (s : State) : exec i s = .next (after i s) := by
  rcases exec_cases i s with h | ⟨_, _, h⟩ <;> simp [after, h]

/-- The last outcome. -/
def answer (s : State) : Option Response := s.outcomes.head?

/-- A word of RAM. -/
def wordAt (s : State) (a : Nat) : Nat := (Memory.readWide s.ram a .word).toNat

/-! ### One step each, from 95_test_vectors.md -/

/-- S1. -/
theorem test_translate_contiguous :
    let t := after (.translate .write 0 true 0x60020) (t0 [(0x02000018, 0xF0002845), (0x0200001C, 0x2000)])
    answer t = some (.value 0x2020) ∧ wordAt t 0x02000018 = 0xF0002867 ∧ t.sdc = [⟨⟨0, 3⟩, 0xF0002845, 0x2000⟩] ∧
      t.var = 0x60020 ∧ t.fc = 0 := by decide

/-- T24, T26: paged, with both modified bits, and the write fault. -/
theorem test_translate_paged :
    (let t := after (.translate .write 0 true 0x80124) (t0 [])
     answer t = some (.value 0x02004124) ∧ wordAt t 0x02000020 = 0xF00BFC63 ∧ wordAt t 0x02003000 = 0x02004023 ∧
       t.pdc = [⟨⟨0, 4, 0⟩, 0x02004021, 0xF0⟩]) ∧
    (let t := after (.translate .write 0 true 0x80924) (t0 [(0x02003004, 0x02004831)])
     answer t = some (.fault .pw) ∧ t.fc = 4 ∧ t.fa = 0x80924 ∧ wordAt t 0x02000020 = 0xF00BFC63) := by decide

/-- C3. -/
theorem test_read8 : answer (after (.read8 .read 0 0x60021) (t0 [])) = some (.value 0x22) := by decide

/-- C2. -/
theorem test_read16 : answer (after (.read16 .read 0 0x60022) (t0 [])) = some (.value 0x3344) := by decide

/-- C1, T14. -/
theorem test_read32 :
    (let t := after (.read32 .read 0 0x60020) (t0 [])
     answer t = some (.value 0x11223344) ∧ t.var = 0x60020) ∧
    (let t := after (.read32 .read 3 0x60020) (t0 [])
     answer t = some (.fault .acc) ∧ t.fc = 0xD) := by decide

/-- C6: the abort comes after the translation, with no fault record. -/
theorem test_read32_misaligned :
    let t := after (.read32 .read 0 0x60022) (t0 [])
    answer t = some (.abort .emf) ∧ t.alignErr = true ∧ t.var = 0x60022 ∧ t.fc = 0 := by decide

/-- C5. -/
theorem test_write8 :
    let t := after (.write8 0 0x60023 0x1FF) (t0 [])
    answer t = some .done ∧ wordAt t 0x02000018 = 0xF0002867 ∧ wordAt t 0x02010020 = 0x112233FF := by decide

/-- C4 by halfwords (R73, R225). -/
theorem test_write16 :
    let t := after (.write16 0 0x60020 0xFFFFA5A6) (t0 [])
    answer t = some .done ∧ wordAt t 0x02010020 = 0xA5A63344 := by decide

/-- C4. -/
theorem test_write32 :
    let t := after (.write32 0 0x60020 0xA5A5A5A5) (t0 [])
    answer t = some .done ∧ wordAt t 0x02000018 = 0xF0002867 ∧ wordAt t 0x02010020 = 0xA5A5A5A5 := by decide

/-- C8, C9. -/
theorem test_examine :
    (let t := after (.examine 0x60021) (t0 [])
     answer t = some (.value 0x22) ∧ t.var = 0 ∧ t.sdc = []) ∧
    (let t := after (.examine 0x60200) (t0 [])
     answer t = some (.fail .segOffset) ∧ t.fc = 0 ∧ t.fa = 0) := by decide

/-- C10. -/
theorem test_deposit :
    let t := after (.deposit 0x60020 0xAB) (t0 [])
    answer t = some .done ∧ wordAt t 0x02000018 = 0xF0002867 ∧ wordAt t 0x02010020 = 0xAB223344 ∧ t.var = 0 ∧
      t.sdc = [] := by decide

/-- M3. -/
theorem test_pread8 : answer (after (.pread8 0x02000011) (t0 [(0x02000010, 0xDEADBEEF)])) = some (.value 0xAD) := by decide

/-- M2, G15. -/
theorem test_pread16 :
    answer (after (.pread16 0x02000012) (t0 [(0x02000010, 0xDEADBEEF)])) = some (.value 0xBEEF) ∧
    answer (after (.pread16 0x00040600) (t0 [])) = some (.refused .mmuSubword) := by decide

/-- M6, M8, M16. -/
theorem test_pread32 :
    answer (after (.pread32 0) (t0 [])) = some (.value 0x12345678) ∧
    answer (after (.pread32 0x01000000) (t0 [])) = some (.value 0) ∧
    (after (.pread32 6) (t0 [])).alignErr = true := by decide

/-- M4, M14. -/
theorem test_pwrite8 :
    wordAt (after (.pwrite8 0x02000011 0xFFFFFF55) (t0 [(0x02000010, 0xDEADBEEF)])) 0x02000010 = 0xDE55BEEF ∧
    (after (.pwrite8 0x00041000 7) (t0 [])).ioLog = [⟨0x00041000, .byte, 7⟩] := by decide

/-- M5. -/
theorem test_pwrite16 :
    wordAt (after (.pwrite16 0x02000012 0x1234) (t0 [(0x02000010, 0xDEADBEEF)])) 0x02000010 = 0xDEAD1234 := by decide

/-- M7, M12. -/
theorem test_pwrite32 :
    (after (.pwrite32 0 0) (t0 [])).rom = (t0 []).rom ∧
    (let t := after (.pwrite32 0x02000011 0) (t0 [(0x02000010, 0xDEADBEEF)])
     answer t = some (.abort .emf) ∧ wordAt t 0x02000010 = 0xDEADBEEF) := by decide

/-- G17. -/
theorem test_setEnable :
    (after (.setEnable 0) (t0 [])).enable = false ∧ (after (.setEnable 3) t0Off).enable = true := by decide

/-- G18. -/
theorem test_clearAlign : (after .clearAlign { t0 [] with alignErr := true }).alignErr = false := by decide

/-- X3. -/
theorem test_reset :
    let t := after .reset t0Halted
    answer t = some .done ∧ t.halted = false ∧ t.enable = false ∧ t.srama.get 0 = 0 ∧ t.ram = t0Halted.ram := by decide

/-- X4. -/
theorem test_reserved :
    answer (after (.reservedE 0 0 0) (t0 [])) = some (.refused .badOp) ∧
    answer (after (.reservedF 5 6 7) (t0 [])) = some (.refused .badOp) ∧
    (after (.reservedE 0 0 0) (t0 [])).refusedMark = true := by decide

/-- G10, G13: a raw window and an undefined group answer the draw. -/
theorem test_draw_reads :
    (∀ g ∈ [RegGroup.sdcl, .sdch, .pdcrl, .pdcrh, .pdcll, .pdclh, .undef12, .undef13, .undef14, .undef15],
      answer (after (rowRead g 0 0) { t0 [] with draws := [0xDEADBEEF] }) = some (.value 0xDEADBEEF)) := by decide

/-- G11, G12: the drawn entry goes and a drawn one comes, in the SDC for groups 0 and 1, in the PDC for groups 2 to 5. -/
theorem test_raw_window_writes :
    (∀ g ∈ [RegGroup.sdcl, .sdch],
      (after (rowWrite g 0 1 0) { t0 [] with sdc := [⟨⟨1, 2⟩, 3, 4⟩], draws := [0, 1, 0x60020, 5, 6] }).sdc = [⟨⟨0, 3⟩, 5, 6⟩]) ∧
    ∀ g ∈ [RegGroup.pdcrl, .pdcrh, .pdcll, .pdclh],
      (after (rowWrite g 0 1 0) { t0 [] with pdc := [⟨⟨1, 2, 3⟩, 3, 4⟩], draws := [7, 0, 0, 0, 0] }).pdc =
        [⟨⟨1, 2, 3⟩, 3, 4⟩] := by decide

/-- G14. -/
theorem test_undefined_writes :
    (∀ g ∈ [RegGroup.undef12, .undef13, .undef14, .undef15],
      after (rowWrite g 0 0 1) (t0 []) = (t0 []).respond .done) := by decide

/-- G2, and G1. -/
theorem test_mmur_srama :
    answer (after (.mmurSrama 0 0) (t0 [])) = some (.value 0x02000000) ∧
    answer (after (.mmurSrama 0 5) { t0 [] with srama := ⟨0, 0x11, 0, 0⟩ }) = some (.value 0x11) := by decide

/-- R255's example. -/
theorem test_mmur_sramb : answer (after (.mmurSramb 0 2) { t0 [] with sramb := ⟨0, 0, 0x22, 0⟩ }) = some (.value 0x22) := by decide

/-- G3 and K5: section 1 goes from both caches, section 2 stays. -/
theorem test_mmuw_srama :
    let t := after (.mmuwSrama 0 1 0x02080000)
      { t0 [] with sdc := [⟨⟨1, 0⟩, 0, 0⟩, ⟨⟨2, 0⟩, 0, 0⟩], pdc := [⟨⟨1, 0, 0⟩, 0, 0⟩, ⟨⟨2, 0, 0⟩, 0, 0⟩] }
    t.srama.get 1 = 0x02080000 ∧ t.sdc = [⟨⟨2, 0⟩, 0, 0⟩] ∧ t.pdc = [⟨⟨2, 0, 0⟩, 0, 0⟩] := by decide

/-- G4. -/
theorem test_mmuw_sramb :
    let t := after (.mmuwSramb 0 0 0) { t0 [] with sdc := [⟨⟨0, 3⟩, 0, 0⟩] }
    t.sramb.get 0 = 0 ∧ t.sdc = [⟨⟨0, 3⟩, 0, 0⟩] ∧ answer (after (.translate .read 0 true 0x60020) t) = some (.fault .sdtlen) := by
  decide

/-- G6, G7. -/
theorem test_mmuw_fc_fa :
    (after (.mmuwFc 0 0 0x12345678) (t0 [])).fc = 0x12345678 ∧ (after (.mmuwFa 0 0 0xCAFE0000) (t0 [])).fa = 0xCAFE0000 := by
  decide

/-- R259. -/
theorem test_mmur_fc_fa_var :
    let s := { t0 [] with fc := 0xE, fa := 0x60200, var := 0x60020 }
    answer (after (.mmurFc 0 0) s) = some (.value 0xE) ∧ answer (after (.mmurFa 0 0) s) = some (.value 0x60200) ∧
      answer (after (.mmurVar 0 0) s) = some (.value 0x60020) := by decide

/-- G5. -/
theorem test_conf :
    (after (.mmuwConf 0 0 0xFFFFFFFF) (t0 [])).conf = 7 ∧
    answer (after (.mmurConf 0 0) { t0 [] with conf := 7 }) = some (.value 7) := by decide

/-- G8 and K4: the entries of the address's own keys go, others stay. -/
theorem test_mmuw_var :
    let t := after (.mmuwVar 0 0 0x00080924)
      { t0 [] with sdc := [⟨⟨0, 3⟩, 0, 0⟩, ⟨⟨0, 4⟩, 0, 0⟩], pdc := [⟨⟨0, 4, 0⟩, 0, 0⟩, ⟨⟨0, 4, 1⟩, 0, 0⟩] }
    t.var = 0x00080924 ∧ t.sdc = [⟨⟨0, 3⟩, 0, 0⟩] ∧ t.pdc = [⟨⟨0, 4, 0⟩, 0, 0⟩] := by decide

/-- X2, X5. -/
theorem test_step_refuses :
    step { t0Halted with requests := [⟨0x0003, 0x60020, 0⟩] } = .next (t0Halted.respond (.refused .halted)) ∧
    step { t0 [] with requests := [⟨0x0039, 0x02000000, 0⟩] } = .next ((t0 []).respond (.refused .badOp)) := ⟨rfl, rfl⟩

/-- The request of a table word is the one the next step performs. -/
theorem test_step_withFetchWord :
    step (State.reset.withFetchWord 16 0x000D) = .next (State.reset.respond .done) ∧
    step (State.reset.withFetchWord 32 0x00040800) = .next (State.reset.respond (.value 0)) := ⟨rfl, rfl⟩

/-! ### The open parameters of R10 -/

/-- A block with another map and other flags, on which bit 0 of CONF turns PEEK_SEG_M off. -/
def otherSetup : Setup where
  base := { params with mmuBase := 0x00041000, flushOnSramb := true, romImage := fun a => BitVec.ofNat 8 (a + 1) }
  confEffect conf P := if bit conf 0 then { P with peekSegM := false } else P

/-- The state after a request under `otherSetup`. -/
def afterOther (i : Instr) (s : State) : State :=
  match execWith otherSetup i s with
  | .next t => t
  | .fault _ => s
  | .refused _ => s

/-- CONF_EFFECT acts (D12, D36): with the bit clear a WRITE peek sets M, with it set it does not. -/
theorem test_confEffect :
    wordAt (afterOther (.translate .write 0 false 0x60020) (t0 [])) 0x02000018 = 0xF0002867 ∧
    wordAt (afterOther (.translate .write 0 false 0x60020) { t0 [] with conf := 1 }) 0x02000018 = 0xF0002865 := by decide

/-- A block on which bit 0 of CONF alone says whether the MMU translates (90_conflicts.md C4). -/
def confDrivesEnable : Setup where
  base := params
  confEffect conf P := { P with enabled := fun _ => bit conf 0 }

/-- CONF_EFFECT drives enable (C4): S8's first request translates with the bit set though the flag is 0, and is the identity with the
bit clear though the flag is 1. -/
theorem test_conf_drives_enable :
    execWith confDrivesEnable (.translate .read 0 false 0x60020) { t0Off with conf := 1 } =
      .next ({ t0Off with conf := 1 }.respond (.value 0x02010020)) ∧
    execWith confDrivesEnable (.translate .read 0 false 0x60020) (t0 []) = .next ((t0 []).respond (.value 0x60020)) := ⟨rfl, rfl⟩

/-- FLUSH_ON_SRAMB (D41), ROM_IMAGE (D23) and MMU_BASE (D7) act. -/
theorem test_other_parameters :
    (afterOther (.mmuwSramb 0 0 0) { t0 [] with sdc := [⟨⟨0, 3⟩, 0, 0⟩, ⟨⟨1, 3⟩, 0, 0⟩] }).sdc = [⟨⟨1, 3⟩, 0, 0⟩] ∧
    answer (afterOther (.pread32 4) (t0 [])) = some (.value 0x05060708) ∧
    stepWith otherSetup { t0 [] with requests := [⟨0x0029, 0x00041600, 0⟩] } =
      .next ((t0 []).respond (.value 0x02000000)) := ⟨by decide, by decide, rfl⟩

/-! ### The notation of R117 -/

/-- The records that programs P1 and P2 of 95_test_vectors.md give their lines, and command words of its table. -/
theorem test_lines :
    (Line.mmuw .sramb 0 0x2800).requests params = [⟨0x002A, 0x00040700, 0x00002800⟩] ∧
    (Line.mmuw .srama 0 0x02000000).requests params = [⟨0x002A, 0x00040600, 0x02000000⟩] ∧
    (Line.setSect 0 0x02000000 10).requests params = [⟨0x002A, 0x00040700, 0x00002800⟩, ⟨0x002A, 0x00040600, 0x02000000⟩] ∧
    (Line.flushVa 0x00080124).requests params = [⟨0x002A, 0x00040B00, 0x00080124⟩] ∧
    (Line.mmur .sramb 5).requests params = [⟨0x0029, 0x00040714, 0⟩] ∧
    (Line.read none 0x00060020 .read).requests params = [⟨0x0003, 0x00060020, 0⟩] ∧
    (Line.read (some .half) 0x00060020 .iread 3).requests params = [⟨0x00E2, 0x00060020, 0⟩] ∧
    (Line.write none 0x00060020 7).requests params = [⟨0x0006, 0x00060020, 7⟩] ∧
    (Line.translate 0x00060020 .write).requests params = [⟨0x0110, 0x00060020, 0⟩] ∧
    (Line.setEnable true).requests params = [⟨0x000B, 0, 1⟩] ∧ (Line.reset).requests params = [⟨0x000D, 0, 0⟩] := by decide

/-- A base that R106 cannot encode makes SETSECT ill-formed, and so does a length of 14 bits. -/
theorem test_setSect_wellFormed :
    (Line.setSect 3 0x02000020 0x1FFF).wellFormed params = true ∧ (Line.setSect 3 0x02000010 0).wellFormed params = false ∧
    (Line.setSect 3 0 0x2000).wellFormed params = false := by decide

/-- Power-on RAM has no value (R42): a byte nothing has written reads as the free value of its address. -/
theorem test_power_on_ram : Memory.read State.reset.ram 0x02000000 = Config.powerOnByte 0x02000000 := rfl

/-! ### Witnesses: each obligation's hypotheses are met -/

/-- A full SDC of 32 other keys. -/
def fullSdc : List SegEntry := (List.range 32).map fun n => ⟨⟨1, BitVec.ofNat 32 n⟩, 0, 0⟩

/-- A full PDC of 32 other keys. -/
def fullPdc : List PageEntry := (List.range 32).map fun n => ⟨⟨1, 0, BitVec.ofNat 32 n⟩, 0, 0⟩

theorem witness_DecodeOfEncodeIsTheInstruction :
    (Instr.pread32 0x0003FFFC).wellFormed params = true ∧ (Instr.pwrite32 0x00041000 1).wellFormed params = true ∧
    (Instr.pread32 0x00040001).wellFormed params = true ∧ (Instr.mmuwUndef15 1 31 0).wellFormed params = true := by decide

theorem witness_EncodeOfDecodeIsTheRecord :
    decode params ⟨0x002A, 0x00040FFC, 7⟩ = .ok (.mmuwUndef15 1 31 7) ∧ decode params ⟨0xFFFE, 1, 2⟩ = .ok (.reservedE 0xFFF 1 2) := by decide

theorem witness_RecordRejectedExactlyWhenMalformed :
    decode params ⟨0x0200, 0, 0⟩ = .rejected .highBits ∧ decode params ⟨0x0016, 0, 0⟩ = .rejected .unusedField ∧
    decode params ⟨0x0047, 0, 0⟩ = .rejected .unusedField ∧ decode params ⟨0x0101, 0, 0⟩ = .rejected .unusedField ∧
    decode params ⟨0x000B, 1, 0⟩ = .rejected .unusedField ∧ decode params ⟨0x000C, 0, 1⟩ = .rejected .unusedField ∧
    decode params ⟨0x0039, 0, 0⟩ = .rejected .widthCode ∧ decode params ⟨0x003A, 0, 0⟩ = .rejected .widthCode := by decide

theorem witness_RecordRejected_malformed : Malformed ⟨0x0039, 0, 0⟩ ∧ ¬ Malformed ⟨0x0029, 0, 0⟩ := by
  unfold Malformed; decide

theorem witness_VirtualAddressFieldsAreLawful :
    params.sid 0xFFFFFFFF = 3 ∧ params.ssl 0xFFFFFFFF = 0x1FFF ∧ params.sot 0xFFFFFFFF = 0x1FFFF := by decide

theorem witness_PermissionsFollowTheLevelCode :
    params.permits 0x40 .fetch 0 = true ∧ params.permits 0x08 .read 2 = true ∧ params.permits 0x08 .fetch 2 = true ∧
    params.permits 0x03 .write 3 = true ∧ params.permits 0xFC .fetch 3 = false := by decide

theorem witness_AlignedAccessStaysInOneRegion :
    (0x020FFFFC : Word).toNat % Width.word.bytes = 0 ∧ 3 < Width.word.bytes ∧ (0x7FFE : Word).toNat % Width.half.bytes = 0 ∧
    1 < Width.half.bytes ∧ (0xFFFFFFFF : Word).toNat % Width.byte.bytes = 0 ∧ 0 < Width.byte.bytes := by decide

theorem witness_StepPerformsTheDecodedRequest :
    ({ t0 [] with requests := [⟨0x0003, 0x60020, 0⟩, ⟨0x000C, 0, 0⟩] } : State).requests =
      ⟨0x0003, 0x60020, 0⟩ :: [⟨0x000C, 0, 0⟩] ∧
    decode params ⟨0x0003, 0x60020, 0⟩ = .ok (.read32 .read 0 0x60020) := by decide

theorem witness_StepRefusesMalformedRecords :
    decode params ⟨0x0039, 0, 0⟩ = .rejected .widthCode ∧ (t0 []).halted = false ∧ t0Halted.halted = true := by decide

theorem witness_StepWithoutRequestStops : State.reset.requests = [] := by decide

theorem witness_HaltedBlockAcceptsOnlyReset :
    (t0 [(0x02000018, 0xC1)]).halted = false ∧
    answer (after (.translate .read 0 false 0x60020) (t0 [(0x02000018, 0xC1)])) = some (.stop .indirectSd) ∧
    t0Halted.halted = true ∧ Instr.clearAlign ≠ .reset := by decide

theorem witness_AlignmentFlagIsSticky :
    Instr.pread32 2 ≠ .clearAlign ∧ Instr.pread32 2 ≠ .reset ∧ ({ t0 [] with alignErr := true } : State).alignErr = true ∧
    (t0 []).alignErr = false ∧ (t0 []).halted = false ∧ (0x02000002 : Word).toNat % Width.word.bytes ≠ 0 ∧
    (0x02000001 : Word).toNat % Width.half.bytes ≠ 0 := by decide

theorem witness_EnableIsWrittenOnlyByItsPorts :
    (∀ v, Instr.clearAlign ≠ .setEnable v) ∧ Instr.clearAlign ≠ .reset ∧ (t0 []).halted = false ∧ t0Off.halted = false ∧
    t0Off.enable = false ∧ exec (rowRead .fc 0 0) (t0 []) = .next (after (rowRead .fc 0 0) (t0 [])) :=
  ⟨fun v h => (by cases h), by decide, by decide, by decide, by decide, exec_after _ _⟩

/-- A launch state whose run enables the MMU, reaches a Stop on a descriptor in ROM, and is reset. -/
def stopRun : State :=
  { State.reset with
    rom := [(0, 0), (1, 0), (2, 0), (3, 0xC1), (4, 0), (5, 0), (6, 0), (7, 0)],
    requests := [⟨0x000B, 0, 1⟩, ⟨0x0100, 0, 0⟩, ⟨0x000D, 0, 0⟩] }

/-- StopIsNeverFinal: the run ends with no request left, no refusal and `halted = 0`, and yet not normally; a run of one RESET does. -/
theorem witness_StopIsNeverFinal :
    stopRun.Launch ∧
    core.run 3 stopRun = .next ((resetBlock stopRun).setRequests [] |>.respond .done |>.respond (.stop .indirectSd)
      |>.respond .done) ∧
    ¬ ((resetBlock stopRun).setRequests [] |>.respond .done |>.respond (.stop .indirectSd) |>.respond .done).EndsNormally ∧
    core.run 1 { State.reset with requests := [⟨0x000D, 0, 0⟩] } = .next (State.reset.respond .done) ∧
    (State.reset.respond .done).EndsNormally ∧
    step { stopRun with enable := true, requests := [⟨0x0100, 0, 0⟩] } =
      .next ({ stopRun with enable := true, requests := [], halted := true }.respond (.stop .indirectSd)) :=
  ⟨⟨by decide, rfl⟩, rfl, by decide, rfl, by decide, rfl⟩

theorem witness_OpenParametersAreArguments :
    RegisterLayoutLaws params ∧ (Instr.pread32 0x00041000).wellFormed params = true ∧
    decode params ⟨0x002A, 0x00040FFC, 7⟩ = .ok (.mmuwUndef15 1 31 7) ∧
    setup.under (t0 []).conf = { setup with confEffect := fun c P => if bit c 0 then { P with peekSegM := false } else P }.under (t0 []).conf ∧
    PhysMapLaws (otherSetup.under (t0 []).conf) ∧ isRegisterWord (otherSetup.under (t0 []).conf) 0x00041600 = true :=
  ⟨registerLayout_lawful, by decide, by decide, rfl, by unfold PhysMapLaws; decide, by decide⟩

/-- Its clause on the enable flag: the flag is 1 and CONF_EFFECT says no. -/
theorem witness_OpenParameters_enabled :
    (t0 []).halted = false ∧ (t0 []).enable = true ∧ (confDrivesEnable.under (t0 []).conf).enabled (t0 []).enable = false := by decide

/-- Its clause on CONF: two values of CONF under which `otherSetup` has the same parameters, a paged translation that completes. -/
theorem witness_OpenParameters_conf :
    (let P := otherSetup.under (t0 []).conf
     otherSetup.under 6 = P ∧ (6 : Word) ≠ (t0 []).conf ∧ inMmuWindow P (sdAddr P (t0 []) 0x80124) = false ∧
       inMmuWindow P (sdAddr P (t0 []) 0x80124 + 4) = false ∧
       ∀ g u, resolveSegment P ⟨0x80124, .read, 0, true⟩ { t0 [] with var := if true then 0x80124 else (t0 []).var } = .go g u →
         inMmuWindow P (pdAddr P 0x80124 g.sd1) = false) ∧
    answer (afterOther (.translate .read 0 true 0x80124) (t0 [])) = some (.value 0x02004124) := by
  refine ⟨⟨rfl, by decide, by decide, by decide, fun g u h => ?_⟩, by decide⟩
  have e : resolveSegment (otherSetup.under (t0 []).conf) ⟨0x80124, .read, 0, true⟩
      { t0 [] with var := if true then 0x80124 else (t0 []).var } =
      .go ⟨0x02000020, 0xF00BFC61, 0x02003000, false⟩ { t0 [] with var := 0x80124 } := rfl
  rw [e] at h
  cases h
  decide

/-- StepNeverChangesRom, RefusalMarkIsKept. -/
theorem witness_step :
    step { t0 [] with requests := [⟨0x000C, 0, 0⟩] } = .next (after .clearAlign (t0 [])) ∧
    step { t0 [] with requests := [⟨0x0039, 0, 0⟩] } = .next ((t0 []).respond (.refused .badOp)) := ⟨rfl, rfl⟩

theorem witness_StepKeepsTheInvariant :
    ({ t0 [] with requests := [⟨0x000C, 0, 0⟩], sdc := fullSdc, pdc := fullPdc } : State).Inv ∧
    step { t0 [] with requests := [⟨0x000C, 0, 0⟩], sdc := fullSdc, pdc := fullPdc } =
      .next (after .clearAlign { t0 [] with sdc := fullSdc, pdc := fullPdc }) := ⟨by decide, rfl⟩

theorem witness_StepKeepsTheInvariant_other :
    (let P := otherSetup.under (t0 []).conf
     PhysMapLaws P ∧ ({ t0 [] with requests := [⟨0x002A, 0x00041600, 0⟩], sdc := fullSdc } : State).Inv P) ∧
    (∃ t, stepWith otherSetup { t0 [] with requests := [⟨0x002A, 0x00041600, 0⟩], sdc := fullSdc } = .next t) :=
  ⟨⟨by unfold PhysMapLaws; decide, by decide⟩, _, rfl⟩

theorem witness_LaunchStatesHaveTheResetValues :
    ({ State.reset with ram := ramOf t0Words, rom := [(0, 1), (0x7FFF, 2)] } : State).Launch ∧
    Memory.wf (ramOf t0Words) = true ∧ Memory.within 0x02000000 0x02100000 (ramOf t0Words) = true ∧
    Memory.wf [(0, 1), (0x7FFF, 2)] = true ∧ Memory.within 0 0x8000 [(0, 1), (0x7FFF, 2)] = true :=
  ⟨⟨by decide, rfl⟩, by decide, by decide, by decide, by decide⟩

/-- ReservedOperationsAreRefused, FaultRegisterAccesses, ConfKeepsThreeBits, RawWindowWriteChangesAtMostOneEntry,
VarWriteFlushesMatchingEntries. -/
theorem witness_not_halted : (t0 []).halted = false ∧ t0Off.halted = false := by decide

theorem witness_RegisterRowsArePhysicalAccesses :
    isRegisterWord params 0x00040000 = true ∧ isRegisterWord params 0x00040FFC = true ∧
    [RegGroup.sdcl, .sdch, .pdcrl, .pdcrh, .pdcll, .pdclh, .srama, .sramb, .fc, .fa, .conf, .var,
      .undef12, .undef13, .undef14, .undef15][15]? = some .undef15 ∧
    (Line.setSect 0 0x02000000 10).wellFormed params = true ∧ (Line.setSect 3 0xFFFFFFE0 0x1FFF).wellFormed params = true ∧
    (t0 []).halted = false ∧ (t0 []).requests = [] := by decide

/-- SectionRegisterReads, SectionBaseWriteFlushesItsSection, SectionLengthWriteFlushesNothing. -/
theorem witness_SectionRegisters :
    (t0 []).halted = false ∧
    (0 : BitVec 5).toNat % 4 = (0 : Fin 4).val ∧ (5 : BitVec 5).toNat % 4 = (1 : Fin 4).val ∧
    (31 : BitVec 5).toNat % 4 = (3 : Fin 4).val ∧ (otherSetup.under (t0 []).conf).flushOnSramb = true := by decide

theorem witness_RawWindowReadIsAnyWord :
    isRawGroup .sdcl = true ∧ isRawGroup .pdclh = true ∧ isRawGroup .srama = false ∧ (t0 []).halted = false ∧
    ({ t0 [] with draws := [0xFFFFFFFF] } : State).draws = (0xFFFFFFFF : Word).toNat :: [] := by decide

theorem witness_RawWindowWriteReachesEveryEntry :
    (let s : State := { t0 [] with sdc := fullSdc, pdc := fullPdc }
     s.halted = false ∧ 31 < s.sdc.length ∧ 31 < s.pdc.length ∧ (s.sdc.eraseIdx 31).length < 32 ∧ (s.pdc.eraseIdx 31).length < 32 ∧
       (∀ e ∈ s.sdc.eraseIdx 31, e.key ≠ sdcKey params 0x80124) ∧ (∀ e ∈ s.pdc.eraseIdx 31, e.key ≠ pdcKey params 0x80924)) ∧
    (0xFF : Word).toNat < 256 ∧ (t0 []).sdc.length < 32 ∧ (t0 []).pdc.length < 32 := by decide

theorem witness_UndefinedGroupsAndSubwordAccesses :
    (t0 []).halted = false ∧ isUndefinedGroup .undef12 = true ∧ isUndefinedGroup .undef15 = true ∧ isUndefinedGroup .var = false ∧
    inMmuWindow params 0x00040000 = true ∧ inMmuWindow params 0x00040FFF = true ∧ Width.byte ≠ .word ∧
    (0x00040FFF : Word).toNat % Width.byte.bytes = 0 ∧ (0x00040FFE : Word).toNat % Width.half.bytes = 0 ∧
    inMmuWindow params 0x00040FFE = true ∧ (0x00040FFE : Word).toNat % Width.word.bytes ≠ 0 := by decide

/-- PhysicalReadOfMemory, PhysicalWriteToRam, RomWritesAndUnmappedAccesses. -/
theorem witness_regions :
    (t0 []).halted = false ∧ (0x7FFC : Word).toNat % Width.word.bytes = 0 ∧ (0x8000 : Word).toNat % Width.half.bytes = 0 ∧
    regionOf params 0 = .rom ∧ regionOf params 0x7FFC = .rom ∧ regionOf params 0x8000 = .unmapped ∧
    regionOf params 0x3FFFC = .unmapped ∧ regionOf params 0x40000 = .io ∧ regionOf params 0x4FFFC = .io ∧
    regionOf params 0x50000 = .unmapped ∧ regionOf params 0x02000000 = .ram ∧ regionOf params 0x020FFFFC = .ram ∧
    regionOf params 0x02100000 = .unmapped ∧ (0x020FFFFC : Word).toNat % Width.word.bytes = 0 ∧ Memory.wf (t0 []).ram = true := by
  decide

theorem witness_MisalignedAccessAborts :
    (t0 []).halted = false ∧
    (0x02000002 : Word).toNat % Width.word.bytes ≠ 0 ∧ (0xFFFFFFFF : Word).toNat % Width.half.bytes ≠ 0 := by decide

theorem witness_IoRegionAccesses :
    (t0 []).halted = false ∧ (0x40FFC : Word).toNat % Width.word.bytes = 0 ∧ regionOf params 0x40FFC = .io ∧
    inMmuWindow params 0x40FFC = true ∧ inMmuWindow params 0x41000 = false ∧ regionOf params 0x41000 = .io ∧
    inMmuWindow params 0x4FFFE = false ∧ regionOf params 0x4FFFE = .io ∧ (0x4FFFE : Word).toNat % Width.half.bytes = 0 ∧
    (0xFFFF : Word).toNat < 2 ^ (8 * Width.half.bytes) := by decide

theorem witness_EvictionIsADraw :
    (let s : State := { t0 [] with sdc := fullSdc, pdc := fullPdc }
     (s.sdc.filter fun e => e.key ≠ ⟨0, 3⟩).length = 32 ∧ (s.pdc.filter fun e => e.key ≠ ⟨0, 4, 0⟩).length = 32 ∧
       (fullSdc.eraseIdx 0).Sublist (s.sdc.filter fun e => e.key ≠ ⟨0, 3⟩) ∧ (fullSdc.eraseIdx 0).length = 31 ∧
       (fullPdc.eraseIdx 31).Sublist (s.pdc.filter fun e => e.key ≠ ⟨0, 4, 0⟩) ∧ (fullPdc.eraseIdx 31).length = 31) := by decide

theorem witness_InsertedDescriptorIsVisible :
    (fullSdc.map SegEntry.key).Nodup ∧ (fullPdc.map PageEntry.key).Nodup ∧ (⟨1, 0⟩ : SegKey) ≠ ⟨0, 3⟩ ∧
    (⟨1, 0, 0⟩ : PageKey) ≠ ⟨0, 4, 0⟩ := by decide

theorem witness_SectionBoundFault :
    translationOf (.read32 .read 0 0x160000) = some ⟨0x160000, .read, 0, true⟩ ∧
    translationOf (.examine 0x160000) = some ⟨0x160000, .read, 0, false⟩ ∧ (t0 []).halted = false ∧ (t0 []).enable = true ∧
    (params.sectLen ((t0 []).sramb.get (params.sid 0x160000))).toNat < (params.ssl 0x160000).toNat ∧
    (params.ssl 0x140000).toNat ≤ (params.sectLen ((t0 []).sramb.get (params.sid 0x140000))).toNat := by decide

/-- The verdicts of T1 to T31. -/
theorem witness_TranslateAnswersTheVerdict :
    verdict params t0Off ⟨0x160000, .read, 0, true⟩ = some (.value 0x160000) ∧
    verdict params (t0 []) ⟨0x160000, .read, 0, true⟩ = some (.fault .sdtlen) ∧
    verdict params (t0 [(0x02000018, 0)]) ⟨0x60020, .read, 0, true⟩ = some (.fault .invSd) ∧
    verdict params (t0 [(0x02000018, 0xC1)]) ⟨0x60020, .read, 0, false⟩ = some (.stop .indirectSd) ∧
    verdict params (t0 [(0x02000018, 0xF0002844)]) ⟨0x60020, .read, 0, true⟩ = some (.fault .segNotPres) ∧
    verdict params (t0 [(0x02000020, 0xF00BFC40)]) ⟨0x80124, .read, 0, true⟩ = some (.fault .pdtNotPres) ∧
    verdict params (t0 [(0x02000018, 0xF0002875)]) ⟨0x60200, .read, 0, true⟩ = some (.fault .otrap) ∧
    verdict params (t0 [(0x02000018, 0xA0002865)]) ⟨0x60200, .write, 0, true⟩ = some (.fault .acc) ∧
    verdict params (t0 []) ⟨0x60057, .read, 0, true⟩ = some (.value 0x02010057) ∧
    verdict params (t0 []) ⟨0x60058, .read, 0, true⟩ = some (.fault .segOffset) ∧
    verdict params (t0 []) ⟨0x81000, .read, 0, true⟩ = some (.value 0x02005000) ∧
    verdict params (t0 []) ⟨0x81800, .read, 0, false⟩ = some (.fail .pdtlen) ∧
    verdict params (t0 [(0x02003000, 0x02004010)]) ⟨0x80124, .write, 0, true⟩ = some (.fault .pageNotPres) ∧
    verdict params (t0 [(0x02003004, 0x02004831)]) ⟨0x80924, .iread, 0, true⟩ = some (.fault .pw) ∧
    tablesApart params (t0 []) 0x60020 = true ∧ tablesApart params (t0 []) 0x80124 = true ∧ (t0 []).halted = false := by decide

theorem witness_TranslationFaultIsRecorded :
    exec (.read32 .read 0 0x60200) (t0 []) = .next (after (.read32 .read 0 0x60200) (t0 [])) ∧
    Answers (t0 []) (after (.read32 .read 0 0x60200) (t0 [])) (.fault .segOffset) :=
  ⟨exec_after _ _, by unfold Answers; decide⟩

theorem witness_PeekFailureRecordsNothing :
    exec (.deposit 0x60200 1) (t0 []) = .next (after (.deposit 0x60200 1) (t0 [])) ∧
    Answers (t0 []) (after (.deposit 0x60200 1) (t0 [])) (.fail .segOffset) ∧
    inMmuWindow params (sdAddr params (t0 []) 0x60200) = false :=
  ⟨exec_after _ _, by unfold Answers; decide, by decide⟩

theorem witness_PeekReadChangesNothing :
    exec (.examine 0x60020) (t0 []) = .next (after (.examine 0x60020) (t0 [])) ∧ AccessKind.iread ≠ .write :=
  ⟨exec_after _ _, by decide⟩

theorem witness_PeekWriteTouchesOnlyTheModifiedBit :
    inMmuWindow params (sdAddr params (t0 []) 0x60020) = false ∧
    segmentOf params (t0 []) 0x60020 = some ⟨0x02000018, 0xF0002865, 0x02010000, false⟩ ∧
    (after (.translate .write 0 false 0x60020) (t0 [])).ram ≠ (t0 []).ram ∧
    Answers (t0 []) (after (.translate .write 0 false 0x60020) (t0 [])) (.value 0x02010020) ∧
    Answers (t0 []) (after (.translate .write 0 false 0x60200) (t0 [])) (.fail .segOffset) :=
  ⟨by decide, by decide, by decide, by unfold Answers; decide, by unfold Answers; decide⟩

theorem witness_TranslateFrame :
    (t0 []).halted = false ∧ (t0 []).enable = true ∧ inMmuWindow params (sdAddr params (t0 []) 0x80124) = false ∧
    regionOf params (sdAddr params (t0 []) 0x80124) ≠ .io ∧
    (∀ g u, resolveSegment params ⟨0x80124, .write, 0, true⟩ { t0 [] with var := 0x80124 } = .go g u →
      params.contiguous g.sd0 = false → inMmuWindow params (pdAddr params 0x80124 g.sd1) = false ∧
        regionOf params (pdAddr params 0x80124 g.sd1) ≠ .io ∧
        ((0x02003004 : Nat) < (pdAddr params 0x80124 g.sd1).toNat ∨ (pdAddr params 0x80124 g.sd1).toNat + 4 ≤ 0x02003004)) := by
  refine ⟨by decide, by decide, by decide, by decide, fun g u h _ => ?_⟩
  rw [resolveSegment_of_segmentOf (g := ⟨0x02000020, 0xF00BFC61, 0x02003000, false⟩) (by decide)] at h
  cases h
  decide

/-- Its clauses by outcome: a fill of both caches, an end before the fill, and an end before the page. -/
theorem witness_TranslateFrame_outcomes :
    (let t := after (.translate .write 0 true 0x80124) (t0 [])
     t.sdc = [⟨⟨0, 4⟩, 0xF00BFC61, 0x02003000⟩] ∧ t.pdc = [⟨⟨0, 4, 0⟩, 0x02004021, 0xF0⟩]) ∧
    answer (after (.translate .read 0 true 0x160000) (t0 [])) = some (.fault .sdtlen) ∧
    answer (after (.translate .read 0 true 0x60020) (t0 [(0x02000018, 0xC1)])) = some (.stop .indirectSd) ∧
    answer (after (.translate .read 0 true 0x81800) (t0 [])) = some (.fault .pdtlen) ∧
    resolveSegment params ⟨0x60020, .read, 0, true⟩ { t0 [] with var := 0x60020 } =
      .go ⟨0x02000018, 0xF0002865, 0x02010000, false⟩ { t0 [] with var := 0x60020 } ∧ params.contiguous 0xF0002865 = true :=
  ⟨by decide, by decide, by decide, by decide, resolveSegment_of_segmentOf (by decide), by decide⟩

theorem witness_SegmentDescriptorWriteBack :
    (let s := t0 [(0x02000018, 0xF0002845)]
     s.halted = false ∧ s.enable = true ∧ Memory.wf s.ram = true ∧
       (params.ssl 0x60020).toNat ≤ (params.sectLen (s.sramb.get (params.sid 0x60020))).toNat ∧
       tablesApart params s 0x60020 = true ∧ segmentOf params s 0x60020 = some ⟨0x02000018, 0xF0002845, 0x02010000, false⟩ ∧
       segmentUsable params ⟨0x02000018, 0xF0002845, 0x02010000, false⟩ = true ∧ regionOf params 0x02000018 = .ram) := by decide

theorem witness_PageDescriptorWriteBack :
    (t0 []).halted = false ∧ (t0 []).enable = true ∧
    tablesApart params (t0 []) 0x80124 = true ∧
    segmentOf params (t0 []) 0x80124 = some ⟨0x02000020, 0xF00BFC61, 0x02003000, false⟩ ∧ params.contiguous 0xF00BFC61 = false ∧
    pageOf params (t0 []) 0x80124 ⟨0x02000020, 0xF00BFC61, 0x02003000, false⟩ = some ⟨0x02003000, 0x02004021, 0xF0, false⟩ ∧
    regionOf params 0x02003000 = .ram ∧ Memory.wf (t0 []).ram = true ∧
    Answers (t0 []) (after (.translate .write 0 true 0x80124) (t0 [])) (.value 0x02004124) :=
  ⟨by decide, by decide, by decide, by decide, by decide, by decide, by decide, by decide, by unfold Answers; decide⟩

/-- Its three clauses: the page reached and given, reached and then denied by W with the referenced bit written back, and not reached
for a trap. -/
theorem witness_PageDescriptorWriteBack_clauses :
    (let g : SegInHand := ⟨0x02000020, 0xF00BFC61, 0x02003000, false⟩
     pageReached params (t0 []) ⟨0x80124, .write, 0, true⟩ g ⟨0x02003000, 0x02004021, 0xF0, false⟩ ∧
     (let s := t0 [(0x02003004, 0x02004811)]
      let q : PageInHand := ⟨0x02003004, 0x02004811, 0xF0, false⟩
      pageOf params s 0x80924 g = some q ∧ pageReached params s ⟨0x80924, .write, 0, true⟩ g q ∧
        answer (after (.translate .write 0 true 0x80924) s) = some (.fault .pw) ∧
        wordAt (after (.translate .write 0 true 0x80924) s) 0x02003004 = 0x02004831) ∧
     ¬ pageReached params (t0 [(0x02000020, 0xF00BFC71)]) ⟨0x80124, .write, 0, true⟩ { g with sd0 := 0xF00BFC71 }
       ⟨0x02003000, 0x02004021, 0xF0, false⟩) := by
  unfold pageReached; decide

theorem witness_MissFillsTheCaches :
    (t0 []).halted = false ∧ (t0 []).enable = true ∧ tablesApart params (t0 []) 0x81000 = true ∧
    segmentOf params (t0 []) 0x81000 = some ⟨0x02000020, 0xF00BFC61, 0x02003000, false⟩ ∧ params.contiguous 0xF00BFC61 = false ∧
    (params.ssl 0x81000).toNat ≤ (params.sectLen ((t0 []).sramb.get (params.sid 0x81000))).toNat ∧
    segmentUsable params ⟨0x02000020, 0xF00BFC61, 0x02003000, false⟩ = true ∧ params.objectTrap 0xF00BFC61 = false ∧
    (params.psl 0x81000).toNat = (lastPage params 0xF00BFC61).toNat ∧ params.pagePresent 0x02005021 = true ∧
    pageOf params (t0 []) 0x81000 ⟨0x02000020, 0xF00BFC61, 0x02003000, false⟩ = some ⟨0x02003008, 0x02005021, 0xF0, false⟩ := by
  decide

theorem witness_MisalignedDataAbortsAfterTranslation :
    exec (.translate .write 0 true 0x60021) (t0 []) = .next (after (.translate .write 0 true 0x60021) (t0 [])) ∧
    Answers (t0 []) (after (.translate .write 0 true 0x60021) (t0 [])) (.value 0x02010021) ∧
    (0x60021 : Word).toNat % Width.half.bytes ≠ 0 ∧
    exec (requestRead .half .write 0 0x60021) (t0 []) = .next (after (requestRead .half .write 0 0x60021) (t0 [])) ∧
    exec (requestWrite .word 0 0x60021 5) (t0 []) = .next (after (requestWrite .word 0 0x60021 5) (t0 [])) :=
  ⟨exec_after _ _, by unfold Answers; decide, by decide, exec_after _ _, exec_after _ _⟩

theorem witness_TranslationIsIdempotent :
    Memory.wf (t0 []).ram = true ∧ tablesApart params (t0 []) 0x80124 = true ∧
    verdict params (t0 []) ⟨0x80124, .read, 0, true⟩ ≠ none ∧
    Answers (t0 []) (after (.translate .read 0 true 0x80124) (t0 [])) (.value 0x02004124) ∧
    Answers (after (.translate .read 0 true 0x80124) (t0 []))
      (after (.translate .read 0 true 0x80124) (after (.translate .read 0 true 0x80124) (t0 []))) (.value 0x02004124) :=
  ⟨by decide, by decide, by decide, by unfold Answers; decide, by unfold Answers; decide⟩

theorem witness_DisabledAccessesReachRam :
    t0Off.halted = false ∧ t0Off.enable = false ∧ (0x020FFFFC : Word).toNat % Width.word.bytes = 0 ∧
    regionOf params 0x020FFFFC = .ram ∧ Memory.wf t0Off.ram = true := by decide

theorem witness_AccessIsTranslateThenPhysical :
    Answers (t0 []) (after (.translate .write 0 true 0x60020) (t0 [])) (.value 0x02010020) ∧
    Answers (t0 []) (after (.translate .write 0 true 0x60200) (t0 [])) (.fault .segOffset) ∧
    exec (.translate .write 0 true 0x60020) (t0 []) = .next (after (.translate .write 0 true 0x60020) (t0 [])) :=
  ⟨by unfold Answers; decide, by unfold Answers; decide, exec_after _ _⟩

theorem witness_DiagnosticAccessIsPeekThenPhysical :
    Answers (t0 []) (after (.translate .read 0 false 0x60020) (t0 [])) (.value 0x02010020) ∧
    Answers (t0 []) (after (.translate .read 0 false 0x60200) (t0 [])) (.fail .segOffset) ∧
    Answers (t0 []) (after (.translate .write 0 false 0x60020) (t0 [])) (.value 0x02010020) ∧
    exec (.translate .read 0 false 0x60020) (t0 []) = .next (after (.translate .read 0 false 0x60020) (t0 [])) :=
  ⟨by unfold Answers; decide, by unfold Answers; decide, by unfold Answers; decide, exec_after _ _⟩

theorem witness_PermittedContiguousAccessCompletes :
    (let g : SegInHand := ⟨0x02000018, 0xF0002865, 0x02010000, false⟩
     (t0 []).halted = false ∧ (t0 []).enable = true ∧ Memory.wf (t0 []).ram = true ∧
       (params.ssl 0x60054).toNat ≤ (params.sectLen ((t0 []).sramb.get (params.sid 0x60054))).toNat ∧
       tablesApart params (t0 []) 0x60054 = true ∧ segmentOf params (t0 []) 0x60054 = some g ∧ segmentUsable params g = true ∧
       params.objectTrap g.sd0 = false ∧ params.contiguous g.sd0 = true ∧ params.permits (params.rights g.sd0) .write 0 = true ∧
       (params.sot 0x60054).toNat ≤ (params.maxOff g.sd0).toNat ∧
       (0x02010054 : Word) = params.segBase g.sd1 + params.sot 0x60054 ∧ (0x02010054 : Word).toNat % Width.word.bytes = 0 ∧
       regionOf params 0x02010054 = .ram ∧ g.sda.toNat + 4 ≤ (0x02010054 : Word).toNat) := by decide

end Sys2Proof.Tests
end

/-! ### What a request does to the flags

One inversion lemma for all requests, `exec_performed`, and from it the statements on `alignErr` and `enable`. -/

namespace Sys2Proof.Machine

/-! #### The outcome of a request -/

/-- An outcome that is no refusal leaves the refusal mark alone. -/
theorem State.respond_of_not_refusal (s : State) {r : Response} (h : r.isRefusal = false) :
    s.respond r = { s with outcomes := r :: s.outcomes } := by
  simp [State.respond, h]

/-- A request has one outcome. -/
theorem Answers.iff_eq {s t : State} {r : Response} (h : Answers s t r) (q : Response) : Answers s t q ↔ r = q := by
  unfold Answers at h ⊢
  simp [h]

theorem answerValue_eq_go {m : Res Word} {r : Response} {t : State} (h : answerValue m = .go r t) : ∃ v, r = .value v := by
  obtain ⟨v, u, -, hv⟩ := Res.bind_eq_go h
  cases hv
  exact ⟨v, rfl⟩

theorem answerDone_eq_go {m : Res Unit} {r : Response} {t : State} (h : answerDone m = .go r t) : r = .done := by
  obtain ⟨_, u, -, hv⟩ := Res.bind_eq_go h
  cases hv
  rfl

/-- A body that goes to its end answers a value or nothing; every other outcome ends a request before that. -/
theorem requestBody_eq_go {P : Params} {i : Instr} {s t : State} {r : Response} (h : requestBody P i s = .go r t) :
    r = .done ∨ ∃ v, r = .value v := by
  cases i with
  | translate | read8 | read16 | read32 | examine | pread8 | pread16 | pread32 => exact .inr (answerValue_eq_go h)
  | write8 | write16 | write32 | deposit | pwrite8 | pwrite16 | pwrite32 => exact .inl (answerDone_eq_go h)
  | reservedE | reservedF => cases h
  | mmurSdcl | mmurSdch | mmurPdcrl | mmurPdcrh | mmurPdcll | mmurPdclh | mmurSrama | mmurSramb | mmurFc | mmurFa | mmurConf
  | mmurVar | mmurUndef12 | mmurUndef13 | mmurUndef14 | mmurUndef15 => cases h; exact .inr ⟨_, rfl⟩
  | _ => cases h; exact .inl rfl

/-! #### The inversion lemma -/

/-- Every body but those of SETENABLE, CLEARALIGN and RESET keeps the contract of `contract_kept`, for the translation it makes. -/
theorem requestBody_meets_kept (P : Params) {i : Instr} (h1 : ∀ v, i ≠ .setEnable v) (h2 : i ≠ .clearAlign) (h3 : i ≠ .reset)
    (s : State) :
    ∃ x, (∀ y, translationOf i = some y → y = x) ∧ (requestBody P i s).Meets Kept (Ended P x) s := by
  by_cases h4 : ∀ r a v, i ≠ .reservedE r a v ∧ i ≠ .reservedF r a v
  · have hx : ∃ x, ∀ y, translationOf i = some y → y = x := by
      cases translationOf i with
      | none => exact ⟨⟨0, .read, 0, false⟩, by simp⟩
      | some x => exact ⟨x, by simp⟩
    obtain ⟨x, hx⟩ := hx
    exact ⟨x, hx, (contract_kept P x).requestBody i hx h1 h2 h3 h4 s⟩
  · have refused : Ended P ⟨0, .read, 0, false⟩ s (.refused .badOp) s := by constructor <;> simp
    cases i with
    | reservedE | reservedF => exact ⟨_, by simp [translationOf], refused⟩
    | _ => simp at h4

/-- What the request `i`, performed in `s` with the outcome `r` and the next state `t`, has done to the flags and to what the run
carries. -/
structure Performed (i : Instr) (s : State) (r : Response) (t : State) : Prop where
  answers : Answers s t r
  requests : t.requests = s.requests
  rom : t.rom = s.rom
  refusedMark : t.refusedMark = (s.refusedMark || r.isRefusal)
  enable : t.enable = s.enable ∨ (∃ v, i = .setEnable v) ∨ i = .reset
  alignErr : t.alignErr = (s.alignErr || decide (r = .abort .emf)) ∨
    (i = .clearAlign ∨ i = .reset) ∧ t.alignErr = false ∧ r = .done
  halted : t.halted = (s.halted || decide (r = .stop .indirectSd)) ∨ i = .reset ∧ t.halted = false ∧ r = .done

theorem performed_of_kept {s u : State} (h : Kept s u) {r : Response} (hr : r = .done ∨ ∃ v, r = .value v) (i : Instr) :
    Performed i s r (u.respond r) := by
  obtain ⟨ho, hq, hm, hrom, he, ha, hh⟩ := h
  rcases hr with rfl | ⟨v, rfl⟩ <;>
    constructor <;> simp [Answers, Response.isRefusal, ho, hq, hm, hrom, he, ha, hh]

theorem performed_of_ended {P : Params} {x : Access} {s u : State} {r : Response} (h : Ended P x s r u) (i : Instr) :
    Performed i s r (u.respond r) where
  answers := by simp [Answers, h.outcomes]
  requests := h.requests
  rom := h.rom
  refusedMark := by simp [h.refusedMark]
  enable := .inl h.enable
  alignErr := .inl h.alignErr
  halted := .inl h.halted

/-- The body of every request, its outcome recorded. -/
theorem requestBody_performed (P : Params) (i : Instr) (s : State) : ∃ r, Performed i s r (requestBody P i s).close := by
  by_cases hi : (∀ v, i ≠ .setEnable v) ∧ i ≠ .clearAlign ∧ i ≠ .reset
  · obtain ⟨h1, h2, h3⟩ := hi
    obtain ⟨x, -, hm⟩ := requestBody_meets_kept P h1 h2 h3 s
    cases hb : requestBody P i s with
    | go r u => rw [hb] at hm; exact ⟨r, performed_of_kept hm (requestBody_eq_go hb) i⟩
    | ended r u => rw [hb] at hm; exact ⟨r, performed_of_ended hm i⟩
  · refine ⟨.done, ?_⟩
    cases i with
    | setEnable v | clearAlign | reset =>
      constructor <;> simp [requestBody, Answers, Response.isRefusal, resetBlock, flushAll]
    | _ => simp at hi

/-- The refusal of a halted block (R44). -/
theorem performed_halted (i : Instr) (s : State) : Performed i s (.refused .halted) (s.respond (.refused .halted)) := by
  constructor <;> simp [Answers]

/-- Every request, halted or not, has one outcome and does to the flags what `Performed` lists. -/
theorem exec_performed {i : Instr} {s t : State} (h : exec i s = .next t) : ∃ r, Performed i s r t := by
  rcases exec_cases i s with hb | ⟨-, -, hb⟩ <;> (rw [hb] at h; cases h)
  · exact requestBody_performed params i s
  · exact ⟨_, performed_halted i s⟩

/-! #### `alignErr` -/

theorem Performed.alignErr_sticky {i : Instr} {s t : State} {r : Response} (h : Performed i s r t) (h1 : i ≠ .clearAlign)
    (h2 : i ≠ .reset) (hs : s.alignErr = true) : t.alignErr = true := by
  rcases h.alignErr with ha | ⟨hi, -⟩
  · simp [ha, hs]
  · exact absurd hi (by simp [h1, h2])

theorem Performed.alignErr_iff_abort {i : Instr} {s t : State} {r : Response} (h : Performed i s r t) (hs : s.alignErr = false) :
    t.alignErr = true ↔ Answers s t (.abort .emf) := by
  rw [h.answers.iff_eq]
  rcases h.alignErr with ha | ⟨-, ha, hr⟩
  · simp [ha, hs]
  · simp [ha, hr]

theorem requestBody_requestPread (P : Params) (w : Width) (pa : Word) (s : State) :
    requestBody P (requestPread w pa) s = answerValue (physRead P pa w s) := by
  cases w <;> rfl

theorem requestBody_requestPwrite (P : Params) (w : Width) (pa v : Word) (s : State) :
    requestBody P (requestPwrite w pa v) s = answerDone (physWrite P pa w v s) := by
  cases w <;> rfl

theorem Width.aligned_eq_false {w : Width} {pa : Word} (h : pa.toNat % w.bytes ≠ 0) : w.aligned pa = false := by
  simpa [Width.aligned] using h

/-- A misaligned PREAD is the bus abort (R221). -/
theorem exec_requestPread_misaligned {w : Width} {pa : Word} {s : State} (hs : s.halted = false) (h : pa.toNat % w.bytes ≠ 0) :
    exec (requestPread w pa) s = .next ((s.setAlignErr true).respond (.abort .emf)) := by
  rw [exec_running _ hs, requestBody_requestPread, physRead_misaligned params (Width.aligned_eq_false h)]
  rfl

/-- A misaligned PWRITE is the bus abort (R221). -/
theorem exec_requestPwrite_misaligned {w : Width} {pa : Word} {s : State} (hs : s.halted = false) (h : pa.toNat % w.bytes ≠ 0)
    (v : Word) : exec (requestPwrite w pa v) s = .next ((s.setAlignErr true).respond (.abort .emf)) := by
  rw [exec_running _ hs, requestBody_requestPwrite, physWrite_misaligned params (Width.aligned_eq_false h)]
  rfl

theorem exec_clearAlign {s : State} (hs : s.halted = false) : exec .clearAlign s = .next ((s.setAlignErr false).respond .done) :=
  exec_running _ hs

/-- Settles O15: stickiness and the bus abort are read off `exec_performed`, the other clauses are the requests' exact next states. -/
theorem alignmentFlagIsSticky : Obligations.AlignmentFlagIsSticky := by
  refine ⟨rfl, fun i s t h1 h2 hs h => ?_, fun i s t hs h => ?_, fun w pa v s hs hp => ⟨?_, ?_⟩, fun s hs => ?_, fun s => ?_⟩
  · obtain ⟨r, hr⟩ := exec_performed h
    exact hr.alignErr_sticky h1 h2 hs
  · obtain ⟨r, hr⟩ := exec_performed h
    exact hr.alignErr_iff_abort hs
  · exact ⟨_, exec_requestPread_misaligned hs hp, rfl⟩
  · exact ⟨_, exec_requestPwrite_misaligned hs hp v, rfl⟩
  · rw [exec_clearAlign hs, State.respond_of_not_refusal _ rfl]
    rfl
  · exact ⟨_, exec_reset s, rfl⟩

/-! #### `enable` -/

theorem Performed.enable_eq {i : Instr} {s t : State} {r : Response} (h : Performed i s r t) (h1 : ∀ v, i ≠ .setEnable v)
    (h2 : i ≠ .reset) : t.enable = s.enable := by
  rcases h.enable with he | ⟨v, hv⟩ | hr
  · exact he
  · exact absurd hv (h1 v)
  · exact absurd hr h2

theorem exec_setEnable {s : State} (hs : s.halted = false) (v : Word) :
    exec (.setEnable v) s = .next ((s.setEnable (v.getLsbD 0)).respond .done) :=
  exec_running _ hs

/-- A register row reads its register, through the one reader of Machine/Router.lean. -/
theorem exec_rowRead (g : RegGroup) (b7 : BitVec 1) (index : BitVec 5) (s : State) :
    exec (rowRead g b7 index) s = perform s fun s => answerRead (readRegister g index s) := by
  cases g <;> rfl

theorem State.draw_setEnable (s : State) (b : Bool) : (s.setEnable b).draw = (s.draw.1, s.draw.2.setEnable b) := by
  cases h : s.draws with
  | nil => rw [State.draw_nil s h, State.draw_nil (s.setEnable b) h]; rfl
  | cons d ds => rw [State.draw_cons s d ds h, State.draw_cons (s.setEnable b) d ds h]; rfl

/-- No register read depends on the enable flag or changes it. -/
theorem readRegister_setEnable (g : RegGroup) (index : BitVec 5) (b : Bool) (s : State) :
    readRegister g index (s.setEnable b) = ((readRegister g index s).1, (readRegister g index s).2.setEnable b) := by
  have hd : (s.setEnable b).drawWord = (s.drawWord.1, s.drawWord.2.setEnable b) := by
    simp only [State.drawWord, State.draw_setEnable]
  cases g with
  | sdcl | sdch | pdcrl | pdcrh | pdcll | pdclh | undef12 | undef13 | undef14 | undef15 => exact hd
  | srama | sramb | fc | fa | conf | var => rfl

theorem exec_rowRead_setEnable {g : RegGroup} {b7 : BitVec 1} {index : BitVec 5} {s t : State}
    (h : exec (rowRead g b7 index) s = .next t) (b : Bool) :
    exec (rowRead g b7 index) (s.setEnable b) = .next (t.setEnable b) := by
  rw [exec_rowRead] at h ⊢
  cases hs : s.halted with
  | true =>
    rw [perform_halted hs] at h
    cases h
    rw [perform_halted (s := s.setEnable b) hs]
    rfl
  | false =>
    rw [perform_running hs] at h
    cases h
    rw [perform_running (s := s.setEnable b) hs, readRegister_setEnable]
    rfl

/-- While `enable` is 0 translation is the identity and writes nothing (R171). -/
theorem translate_disabled {s : State} (h : s.enable = false) (x : Access) : translate params x s = .go x.va s := by
  simp [translate, h]

theorem exec_translate_disabled {s : State} (hs : s.halted = false) (he : s.enable = false) (acc : AccessKind) (lvl : Level)
    (se : Bool) (va : Word) : exec (.translate acc lvl se va) s = .next (s.respond (.value va)) := by
  rw [exec_running _ hs]
  simp [requestBody, translate_disabled he]

/-- Settles O16: that no other request writes `enable` is read off `exec_performed`; a register read commutes with replacing it. -/
theorem enableIsWrittenOnlyByItsPorts : Obligations.EnableIsWrittenOnlyByItsPorts := by
  refine ⟨rfl, fun i s t h1 h2 h => ?_, fun v s hs => ?_, fun s => ?_, fun g b7 index b s t h => ?_, fun acc lvl se va s hs he => ?_⟩
  · obtain ⟨r, hr⟩ := exec_performed h
    exact hr.enable_eq h1 h2
  · rw [exec_setEnable hs, State.respond_of_not_refusal _ rfl]
    rfl
  · exact ⟨_, exec_reset s, rfl⟩
  · exact exec_rowRead_setEnable h b
  · rw [exec_translate_disabled hs he, State.respond_of_not_refusal _ rfl]

end Sys2Proof.Machine

/-! ### How a request ends before its last part

What `contract_kept` says of a request that a fault, a peek failure, an abort, a stop or a refusal ends, in terms of the translation it
makes; and from it the statement on the fault record. -/

namespace Sys2Proof.Machine

/-- A body that ends early does so by the contract of the translation it makes; one that makes none, by that of every translation. -/
theorem requestBody_ended {P : Params} {i : Instr} {x : Access} (hx : ∀ y, translationOf i = some y → y = x) {s u : State}
    {r : Response} (h : requestBody P i s = .ended r u) : Ended P x s r u := by
  by_cases hr : ∀ rest a v, i ≠ .reservedE rest a v ∧ i ≠ .reservedF rest a v
  · have h1 : ∀ v, i ≠ .setEnable v := by rintro v rfl; cases h
    have h2 : i ≠ .clearAlign := by rintro rfl; cases h
    have h3 : i ≠ .reset := by rintro rfl; cases h
    have hm := (contract_kept P x).requestBody i hx h1 h2 h3 hr s
    rwa [h] at hm
  · cases i with
    | reservedE | reservedF => cases h; constructor <;> simp
    | _ => simp at hr

/-- A request whose outcome is no completion and not the refusal of a halted block has run its body, and that ended early. -/
theorem exec_ended {i : Instr} {s t : State} {r : Response} (h : exec i s = .next t) (ha : Answers s t r) (hd : r ≠ .done)
    (hv : ∀ v, r ≠ .value v) (hh : r ≠ .refused .halted) : ∃ u, requestBody params i s = .ended r u ∧ t = u.respond r := by
  unfold Answers at ha
  rcases exec_cases i s with hb | ⟨-, -, hb⟩ <;> (rw [hb] at h; cases h)
  · cases hn : requestBody params i s with
    | go q u =>
      obtain ⟨rfl, -⟩ : q = r ∧ u.outcomes = s.outcomes := by simpa [hn] using ha
      rcases requestBody_eq_go hn with rfl | ⟨v, rfl⟩
      · exact absurd rfl hd
      · exact absurd rfl (hv v)
    | ended q u =>
      obtain ⟨rfl, -⟩ : q = r ∧ u.outcomes = s.outcomes := by simpa [hn] using ha
      exact ⟨u, rfl, rfl⟩
  · obtain rfl : r = .refused .halted := by simpa [eq_comm] using ha
    exact absurd rfl hh

/-- Only a body that makes a side-effect translation ends in a Fault, and then the fault is recorded (R305). -/
theorem requestBody_fault {P : Params} {i : Instr} {s u : State} {c : TransFault} (h : requestBody P i s = .ended (.fault c) u) :
    ∃ x, translationOf i = some x ∧ x.se = true ∧ u.fc = P.fcode c ∧ u.fa = x.va := by
  cases hx : translationOf i with
  | none =>
    have peek : Ended P ⟨0, .read, 0, false⟩ s (.fault c) u := requestBody_ended (by simp [hx]) h
    exact absurd (peek.fault c rfl).1 (by simp)
  | some x =>
    have ended : Ended P x s (.fault c) u := requestBody_ended (by simp [hx]) h
    exact ⟨x, rfl, ended.fault c rfl⟩

/-- Settles O44: a Fault is how the request's body ended, `requestBody_fault` says what that leaves in FC and FA, and recording the
outcome touches neither. -/
theorem translationFaultIsRecorded : Obligations.TranslationFaultIsRecorded := by
  intro i s t c h ha
  obtain ⟨u, hu, rfl⟩ := exec_ended h ha (by simp) (by simp) (by simp)
  simpa using requestBody_fault hu

end Sys2Proof.Machine

/-! ### The section bound

What a translated request does once its translation has failed, and that no part of a request after the check of R173 gives the code of
that check; from these the statement on it. -/

namespace Sys2Proof.Machine

/-! #### Parts that do not fail with a code -/

/-- The part does not end its request with the failure `c`, neither as a Fault nor as a Fail. -/
def Res.Avoids {α : Type} (c : TransFault) : Res α → Prop
  | .go _ _ => True
  | .ended r _ => r ≠ .fault c ∧ r ≠ .fail c

namespace Res.Avoids

variable {α β : Type} {c : TransFault}

theorem go {y : α} {s : State} : (Res.go y s).Avoids c := trivial

theorem bind {m : Res α} {k : α → State → Res β} (hm : m.Avoids c) (hk : ∀ y t, (k y t).Avoids c) : (m.bind k).Avoids c := by
  cases m with
  | go y t => exact hk y t
  | ended r t => exact hm

theorem ite {p : Prop} [Decidable p] {m n : Res α} (hm : m.Avoids c) (hn : n.Avoids c) : (if p then m else n).Avoids c := by
  split
  · exact hm
  · exact hn

/-- A failure with another code. -/
theorem failWith {P : Params} {x : Access} {d : TransFault} {s : State} (h : d ≠ c) : (failWith P x d s : Res α).Avoids c := by
  cases hse : x.se with
  | true => rw [failWith_se P hse]; exact ⟨by simpa using h, by simp⟩
  | false => rw [failWith_peek P hse]; exact ⟨by simp, by simpa using h⟩

theorem stopIndirect {s : State} : (stopIndirect s : Res α).Avoids c := ⟨by simp, by simp⟩

/-- A part that keeps the contract of every translation fails with no code: a Fault would be a peek's, a Fail one under side effects. -/
theorem of_meets_kept {P : Params} {m : Res α} {s : State} (h : ∀ x, m.Meets Kept (Ended P x) s) : m.Avoids c := by
  cases m with
  | go y t => exact go
  | ended r t =>
    have peek : Ended P ⟨0, .read, 0, false⟩ s r t := h _
    have effect : Ended P ⟨0, .read, 0, true⟩ s r t := h _
    exact ⟨fun hr => absurd (peek.fault c hr).1 (by simp), fun hr => absurd (effect.fail c hr) (by simp)⟩

theorem physRead (P : Params) (pa : Word) (w : Width) (s : State) : (physRead P pa w s).Avoids c :=
  of_meets_kept fun x => (contract_kept P x).physRead pa w s

theorem physWrite (P : Params) (pa : Word) (w : Width) (v : Word) (s : State) : (physWrite P pa w v s).Avoids c :=
  of_meets_kept fun x => (contract_kept P x).physWrite pa w v s

end Res.Avoids

/-! #### The walk after the bound check -/

section
variable (P : Params) (x : Access) (g : SegInHand) (q : PageInHand) (s : State)

theorem resolveSegment_avoids (c : TransFault) : (resolveSegment P x s).Avoids c := by
  unfold resolveSegment
  dsimp only
  split
  · exact .go
  · exact .bind (.physRead ..) fun _ _ => .bind (.physRead ..) fun _ _ => .go

theorem checkSegment_avoids_sdtlen : (checkSegment P x g s).Avoids .sdtlen :=
  .ite (.failWith (by decide)) (.ite .stopIndirect (.ite (.failWith (by split <;> decide)) .go))

theorem writeBackSegment_avoids (c : TransFault) (w : Word) : (writeBackSegment P x g w s).Avoids c :=
  .bind (.physWrite ..) fun _ _ => .go

theorem writeBackPage_avoids (c : TransFault) (w : Word) : (writeBackPage P x q w s).Avoids c :=
  .bind (.physWrite ..) fun _ _ => .go

theorem translateContiguous_avoids_sdtlen : (translateContiguous P x g s).Avoids .sdtlen :=
  .ite (.failWith (by decide)) (.ite (.failWith (by decide)) .go)

theorem resolvePage_avoids_sdtlen : (resolvePage P x g s).Avoids .sdtlen := by
  unfold resolvePage
  dsimp only
  split
  · exact .go
  · exact .ite (.failWith (by decide)) (.bind (.physRead ..) fun _ _ => .ite (writeBackPage_avoids ..) .go)

theorem checkPage_avoids_sdtlen : (checkPage P x g q s).Avoids .sdtlen :=
  .ite (.failWith (by decide)) (.ite (.failWith (by decide)) (.ite (.failWith (by decide)) (.ite (.failWith (by decide)) .go)))

theorem translatePaged_avoids_sdtlen : (translatePaged P x g s).Avoids .sdtlen :=
  .bind (resolvePage_avoids_sdtlen ..) fun _ _ => .bind (checkPage_avoids_sdtlen ..) fun _ _ =>
    .bind (.ite (writeBackPage_avoids ..) .go) fun _ _ => .go

theorem translateSegment_avoids_sdtlen : (translateSegment P x g s).Avoids .sdtlen :=
  .bind (.ite (writeBackSegment_avoids ..) .go) fun _ _ => .bind (.ite (.failWith (by decide)) .go) fun _ _ =>
    .bind (.ite (writeBackSegment_avoids ..) .go) fun _ _ =>
      .ite (translateContiguous_avoids_sdtlen ..) (translatePaged_avoids_sdtlen ..)

variable {P x s}

/-- Beyond the section bound nothing is looked up or fetched (R173). -/
theorem translateEnabled_beyond_bound (h : P.sectLen (s.sramb.get (P.sid x.va)) < P.ssl x.va) :
    translateEnabled P x s = failWith P x .sdtlen s :=
  if_pos h

theorem translateEnabled_avoids_sdtlen (h : ¬ P.sectLen (s.sramb.get (P.sid x.va)) < P.ssl x.va) :
    (translateEnabled P x s).Avoids .sdtlen := by
  unfold translateEnabled
  rw [if_neg h]
  exact .bind (resolveSegment_avoids ..) fun _ _ => .bind (checkSegment_avoids_sdtlen ..) fun _ _ =>
    translateSegment_avoids_sdtlen ..

end

/-- An enabled translation writes VAR under side effects, and then walks (R172). -/
theorem translate_enabled {s : State} (h : s.enable = true) (x : Access) :
    translate params x s = translateEnabled params x (if x.se then s.setVar x.va else s) := by
  simp [translate, h]

/-- Within the section bound a translation does not fail with SDTLEN: the bound reads SRAMB alone, which VAR's write leaves. -/
theorem translate_avoids_sdtlen {s : State} {x : Access} (he : s.enable = true)
    (h : ¬ params.sectLen (s.sramb.get (params.sid x.va)) < params.ssl x.va) : (translate params x s).Avoids .sdtlen := by
  rw [translate_enabled he]
  split <;> exact translateEnabled_avoids_sdtlen h

/-! #### Requests that translate -/

/-- The body makes the translation `x`, and what it does with the address answered fails with no code. -/
def TranslatesFirst (P : Params) (x : Access) (body : State → Res Response) : Prop :=
  ∃ k : Word → State → Res Response, (∀ s, body s = (translate P x s).bind k) ∧ ∀ c pa t, (k pa t).Avoids c

theorem readVirtual_translatesFirst (P : Params) (x : Access) (w : Width) : TranslatesFirst P x (readVirtual P x w) :=
  ⟨_, fun _ => Res.bind_assoc .., fun _ _ _ => .bind (.physRead ..) fun _ _ => .go⟩

theorem writeVirtual_translatesFirst (P : Params) (x : Access) (w : Width) (v : Word) :
    TranslatesFirst P x (writeVirtual P x w v) :=
  ⟨_, fun _ => Res.bind_assoc .., fun _ _ _ => .bind (.physWrite ..) fun _ _ => .go⟩

theorem requestBody_translatesFirst (P : Params) {i : Instr} {x : Access} (hx : translationOf i = some x) :
    TranslatesFirst P x (requestBody P i) := by
  cases i with
  | translate => cases hx; exact ⟨_, fun _ => rfl, fun _ _ _ => .go⟩
  | read8 | read16 | read32 | examine => cases hx; exact readVirtual_translatesFirst ..
  | write8 | write16 | write32 | deposit => cases hx; exact writeVirtual_translatesFirst ..
  | _ => cases hx

/-- The end of its translation is the end of a request. -/
theorem exec_of_translate_ended {i : Instr} {x : Access} {s t : State} {r : Response} (hx : translationOf i = some x)
    (hs : s.halted = false) (h : translate params x s = .ended r t) : exec i s = .next (t.respond r) := by
  obtain ⟨k, hk, -⟩ := requestBody_translatesFirst params hx
  rw [exec_running i hs, hk, h]
  rfl

/-- A request whose translation does not fail with `c` does not answer that failure. -/
theorem exec_not_answers_of_avoids {i : Instr} {x : Access} {s t : State} {c : TransFault} (hx : translationOf i = some x)
    (hc : (translate params x s).Avoids c) (h : exec i s = .next t) : ¬ Answers s t (.fault c) ∧ ¬ Answers s t (.fail c) := by
  obtain ⟨k, hk, hkc⟩ := requestBody_translatesFirst params hx
  have body : (requestBody params i s).Avoids c := by rw [hk]; exact .bind hc (hkc c)
  refine ⟨fun ha => ?_, fun ha => ?_⟩
  · obtain ⟨u, hu, -⟩ := exec_ended h ha (by simp) (by simp) (by simp)
    rw [hu] at body
    exact body.1 rfl
  · obtain ⟨u, hu, -⟩ := exec_ended h ha (by simp) (by simp) (by simp)
    rw [hu] at body
    exact body.2 rfl

/-- Settles O42: beyond the bound the walk ends at its first check, in the state that VAR's write and the fault record leave; within it
no part of the request fails with SDTLEN. -/
theorem sectionBoundFault : Obligations.SectionBoundFault := by
  intro i x s hx hs he
  refine ⟨fun h => ⟨fun hse => ?_, fun hse => ?_⟩, fun h t ht => ?_⟩
  · have walk : translate params x s = .ended (.fault .sdtlen) (recordFault params .sdtlen x.va (s.setVar x.va)) := by
      rw [translate_enabled he, if_pos hse, translateEnabled_beyond_bound (s := s.setVar x.va) h, failWith_se params hse]
    rw [exec_of_translate_ended hx hs walk, State.respond_of_not_refusal _ rfl]
    rfl
  · have walk : translate params x s = .ended (.fail .sdtlen) s := by
      rw [translate_enabled he, if_neg (by simp [hse]), translateEnabled_beyond_bound h, failWith_peek params hse]
    rw [exec_of_translate_ended hx hs walk, State.respond_of_not_refusal _ rfl]
  · exact exec_not_answers_of_avoids hx (translate_avoids_sdtlen he (Nat.not_lt.mpr h)) ht

end Sys2Proof.Machine

/-! ### The router's port requests

What `physRead` and `physWrite` do in each region (R223 to R227), what a port request answers when they go on, and `bigEndian` as the
number that the wide accesses of memory read and store. -/

namespace Sys2Proof.Machine

/-! #### An aligned access of each region -/

theorem Width.aligned_eq_true {w : Width} {pa : Word} (h : pa.toNat % w.bytes = 0) : w.aligned pa = true := by
  simpa [Width.aligned] using h

section
variable {P : Params} {w : Width} {pa : Word}

theorem physRead_rom (ha : w.aligned pa = true) (hr : regionOf P pa = .rom) (s : State) :
    physRead P pa w s = .go (Memory.readWide s.rom pa.toNat w P.romImage) s := by
  simp [physRead, ha, hr]

theorem physRead_ram (ha : w.aligned pa = true) (hr : regionOf P pa = .ram) (s : State) :
    physRead P pa w s = .go (Memory.readWide s.ram pa.toNat w) s := by
  simp [physRead, ha, hr]

theorem physRead_unmapped (ha : w.aligned pa = true) (hr : regionOf P pa = .unmapped) (s : State) : physRead P pa w s = .go 0 s := by
  simp [physRead, ha, hr]

theorem physWrite_rom (ha : w.aligned pa = true) (hr : regionOf P pa = .rom) (v : Word) (s : State) :
    physWrite P pa w v s = .go () s := by
  simp [physWrite, ha, hr]

theorem physWrite_ram (ha : w.aligned pa = true) (hr : regionOf P pa = .ram) (v : Word) (s : State) :
    physWrite P pa w v s = .go () (s.setRam (Memory.writeWide s.ram pa.toNat w v)) := by
  simp [physWrite, ha, hr]

theorem physWrite_unmapped (ha : w.aligned pa = true) (hr : regionOf P pa = .unmapped) (v : Word) (s : State) :
    physWrite P pa w v s = .go () s := by
  simp [physWrite, ha, hr]

end

/-! #### A port request whose access goes on -/

theorem exec_requestPread_of_go {w : Width} {pa x : Word} {s t : State} (hs : s.halted = false)
    (h : physRead params pa w s = .go x t) : exec (requestPread w pa) s = .next { t with outcomes := .value x :: t.outcomes } := by
  rw [exec_running _ hs, requestBody_requestPread, h, ← State.respond_of_not_refusal _ rfl]
  rfl

theorem exec_requestPwrite_of_go {w : Width} {pa v : Word} {s t : State} (hs : s.halted = false)
    (h : physWrite params pa w v s = .go () t) : exec (requestPwrite w pa v) s = .next { t with outcomes := .done :: t.outcomes } := by
  rw [exec_running _ hs, requestBody_requestPwrite, h, ← State.respond_of_not_refusal _ rfl]
  rfl

/-! #### `bigEndian` and the wide accesses of memory -/

/-- Appending puts the first operand above the second. -/
theorem toNat_append_eq_mul_add {m n : Nat} (x : BitVec m) (y : BitVec n) : (x ++ y).toNat = x.toNat * 2 ^ n + y.toNat := by
  rw [BitVec.toNat_append, ← Nat.shiftLeft_add_eq_or_of_lt y.isLt, Nat.shiftLeft_eq]

/-- The datum a wide read gives, as a number (R73, R220). -/
theorem toNat_readWide (m : Memory) (a : Nat) (w : Width) (fill : Nat → Byte) :
    (Memory.readWide m a w fill).toNat = bigEndian m a w fill := by
  cases w with
  | byte => exact BitVec.toNat_setWidth_of_le (by decide)
  | half =>
    rw [Memory.readWide, BitVec.toNat_setWidth_of_le (by decide), toNat_append_eq_mul_add]
    rfl
  | word =>
    simp only [Memory.readWide, bigEndian, toNat_append_eq_mul_add]
    omega

/-- A wide write stores the low n bytes of the value (R225). -/
theorem bigEndian_writeWide (m : Memory) (a : Nat) (w : Width) (v : Word) :
    bigEndian (Memory.writeWide m a w v) a w = v.toNat % 2 ^ (8 * w.bytes) := by
  cases w with
  | byte =>
    simp only [bigEndian, Memory.read_writeWide_byte, BitVec.extractLsb'_toNat, Width.bytes]
    omega
  | half =>
    obtain ⟨hhi, hlo⟩ := Memory.read_writeWide_half m a v Config.powerOnByte
    simp only [bigEndian, hhi, hlo, BitVec.extractLsb'_toNat, Width.bytes]
    omega
  | word =>
    rw [bigEndian_word, Memory.readWide_writeWide]
    exact (Nat.mod_eq_of_lt v.isLt).symm

/-! #### The statements -/

/-- Settles O35: the access goes on in the same state with the wide read, whose number is `toNat_readWide`. -/
theorem physicalReadOfMemory : Obligations.PhysicalReadOfMemory := by
  intro w pa s hs hp
  have ha := Width.aligned_eq_true hp
  refine ⟨fun hr => ⟨_, exec_requestPread_of_go hs (physRead_rom ha hr s), ?_⟩,
    fun hr => ⟨_, exec_requestPread_of_go hs (physRead_ram ha hr s), ?_⟩⟩
  · exact toNat_readWide s.rom pa.toNat w params.romImage
  · exact toNat_readWide s.ram pa.toNat w Config.powerOnByte

/-- Settles O36: the new RAM is the wide write's, whose bytes and frame are `bigEndian_writeWide` and `Memory.read_writeWide_other`. -/
theorem physicalWriteToRam : Obligations.PhysicalWriteToRam := by
  intro w pa v s hs hp hr _
  exact ⟨Memory.writeWide s.ram pa.toNat w v, exec_requestPwrite_of_go hs (physWrite_ram (Width.aligned_eq_true hp) hr v s),
    bigEndian_writeWide s.ram pa.toNat w v, fun _ ha => Memory.read_writeWide_other s.ram w v _ ha⟩

/-- Settles O37: in each of the three cases the access goes on in the same state. -/
theorem romWritesAndUnmappedAccesses : Obligations.RomWritesAndUnmappedAccesses := by
  intro w pa v s hs hp
  have ha := Width.aligned_eq_true hp
  exact ⟨fun hr => exec_requestPwrite_of_go hs (physWrite_rom ha hr v s),
    fun hr => ⟨exec_requestPread_of_go hs (physRead_unmapped ha hr s), exec_requestPwrite_of_go hs (physWrite_unmapped ha hr v s)⟩⟩

/-- Settles O38: the alignment test comes before the region's, for every caller, and the port requests record its outcome. -/
theorem misalignedAccessAborts : Obligations.MisalignedAccessAborts := by
  refine ⟨fun P w pa v s h => ⟨?_, ?_, rfl⟩, fun w pa v s hs h => ⟨?_, ?_⟩⟩
  · exact physRead_misaligned P (Width.aligned_eq_false h) s
  · exact physWrite_misaligned P (Width.aligned_eq_false h) v s
  · rw [exec_requestPread_misaligned hs h, State.respond_of_not_refusal _ rfl]
    rfl
  · rw [exec_requestPwrite_misaligned hs h, State.respond_of_not_refusal _ rfl]
    rfl

end Sys2Proof.Machine

/-! ### The register rows

A register row answers what the one reader and the one writer of its group do (`readRegister`, `writeRegister`); with the entries that the
two flushes leave and the four section registers by index, the statements on registers (R254 to R260). -/

namespace Sys2Proof.Machine

/-! #### The section registers -/

/-- The section of an index is its low two bits, so indexes 4 to 31 alias 0 to 3. -/
theorem sectionOfIndex_eq {index : BitVec 5} {q : Fin 4} (h : index.toNat % 4 = q.val) : sectionOfIndex index = q := by
  have low : (index &&& 3).toNat = index.toNat % 4 := by
    rw [BitVec.toNat_and]
    exact Nat.and_two_pow_sub_one_eq_mod _ 2
  apply Fin.ext
  rw [sectionOfIndex, low, h]
  exact Nat.mod_eq_of_lt q.isLt

@[simp] theorem SectRegs.get_set_same (r : SectRegs) (q : Fin 4) (v : Word) : (r.set q v).get q = v := by
  match q with
  | 0 | 1 | 2 | 3 => rfl

theorem SectRegs.get_set_of_ne (r : SectRegs) {p q : Fin 4} (h : p ≠ q) (v : Word) : (r.set q v).get p = r.get p := by
  match q, p with
  | 0, 0 | 1, 1 | 2, 2 | 3, 3 => exact absurd rfl h
  | 0, 1 | 0, 2 | 0, 3 | 1, 0 | 1, 2 | 1, 3 | 2, 0 | 2, 1 | 2, 3 | 3, 0 | 3, 1 | 3, 2 => rfl

/-! #### What a flush leaves -/

theorem mem_sdc_flushSection {q : Fin 4} {s : State} {e : SegEntry} : e ∈ (flushSection q s).sdc ↔ e ∈ s.sdc ∧ e.key.sid ≠ q := by
  simp [flushSection]

theorem mem_pdc_flushSection {q : Fin 4} {s : State} {e : PageEntry} : e ∈ (flushSection q s).pdc ↔ e ∈ s.pdc ∧ e.key.sid ≠ q := by
  simp [flushSection]

theorem mem_sdc_flushMatching {P : Params} {v : Word} {s : State} {e : SegEntry} :
    e ∈ (flushMatching P v s).sdc ↔ e ∈ s.sdc ∧ e.key ≠ sdcKey P v := by
  simp [flushMatching]

theorem mem_pdc_flushMatching {P : Params} {v : Word} {s : State} {e : PageEntry} :
    e ∈ (flushMatching P v s).pdc ↔ e ∈ s.pdc ∧ e.key ≠ pdcKey P v := by
  simp [flushMatching]

/-- By default a write of SRAMB is the register's alone (R257). -/
theorem writeSramb_default (index : BitVec 5) (v : Word) (s : State) :
    writeSramb params index v s = s.setSramb (s.sramb.set (sectionOfIndex index) v) := rfl

/-- Under FLUSH_ON_SRAMB a write of SRAMB is, as one of SRAMA, the register's and the section's flush (R257). -/
theorem writeSramb_of_flush {P : Params} (h : P.flushOnSramb = true) (index : BitVec 5) (v : Word) (s : State) :
    writeSramb P index v s = flushSection (sectionOfIndex index) (s.setSramb (s.sramb.set (sectionOfIndex index) v)) :=
  if_pos h

/-! #### A row as its reader and writer -/

section
variable {s : State} (hs : s.halted = false)
include hs

theorem exec_rowRead_running (g : RegGroup) (b7 : BitVec 1) (index : BitVec 5) :
    exec (rowRead g b7 index) s =
      .next { (readRegister g index s).2 with
        outcomes := .value (readRegister g index s).1 :: (readRegister g index s).2.outcomes } := by
  rw [exec_rowRead, perform_running hs, answerRead_eq, Res.close_go, State.respond_of_not_refusal _ rfl]

theorem execWith_rowWrite_running (C : Setup) (g : RegGroup) (b7 : BitVec 1) (index : BitVec 5) (v : Word) :
    execWith C (rowWrite g b7 index v) s =
      .next { writeRegister (C.under s.conf) g index v s with
        outcomes := .done :: (writeRegister (C.under s.conf) g index v s).outcomes } := by
  have row : execWith C (rowWrite g b7 index v) s = perform s fun s => answerWrite (writeRegister (C.under s.conf) g index v s) := by
    cases g <;> rfl
  rw [row, perform_running hs, answerWrite_eq, Res.close_go, State.respond_of_not_refusal _ rfl]

theorem exec_rowWrite_running (g : RegGroup) (b7 : BitVec 1) (index : BitVec 5) (v : Word) :
    exec (rowWrite g b7 index v) s =
      .next { writeRegister params g index v s with outcomes := .done :: (writeRegister params g index v s).outcomes } := by
  rw [exec_eq_execWith, execWith_rowWrite_running hs, setup_under]

end

/-! #### The statements -/

/-- Settles O31: the write is SRAMA's and the flush of its section. -/
theorem sectionBaseWriteFlushesItsSection : Obligations.SectionBaseWriteFlushesItsSection := by
  intro b7 index v q s hs hq
  obtain rfl := sectionOfIndex_eq hq
  exact ⟨_, exec_rowWrite_running hs .srama b7 index v, rfl, SectRegs.get_set_same .., fun _ hp => SectRegs.get_set_of_ne _ hp v,
    fun _ => mem_sdc_flushSection, fun _ => mem_pdc_flushSection⟩

/-- Settles O32: by default the write is SRAMB's alone, and under FLUSH_ON_SRAMB the flush of its section follows. -/
theorem sectionLengthWriteFlushesNothing : Obligations.SectionLengthWriteFlushesNothing := by
  refine ⟨fun b7 index v q s hs hq => ?_, fun C b7 index v q s hf hs hq => ?_⟩ <;> obtain rfl := sectionOfIndex_eq hq
  · have row := exec_rowWrite_running hs .sramb b7 index v
    rw [writeRegister, writeSramb_default] at row
    exact ⟨_, row, rfl, SectRegs.get_set_same .., fun _ hp => SectRegs.get_set_of_ne _ hp v⟩
  · have row := execWith_rowWrite_running hs C .sramb b7 index v
    rw [writeRegister, writeSramb_of_flush hf] at row
    exact ⟨_, row, rfl, SectRegs.get_set_same .., fun _ hp => SectRegs.get_set_of_ne _ hp v,
      fun _ => mem_sdc_flushSection, fun _ => mem_pdc_flushSection⟩

/-- Settles O33: the write is VAR's and the flush of the two keys of the value. -/
theorem varWriteFlushesMatchingEntries : Obligations.VarWriteFlushesMatchingEntries := by
  intro b7 index v s hs
  exact ⟨_, exec_rowWrite_running hs .var b7 index v, rfl, fun _ => mem_sdc_flushMatching, fun _ => mem_pdc_flushMatching⟩

/-- Settles O25: both reads answer the register of the index's section in the same state. -/
theorem sectionRegisterReads : Obligations.SectionRegisterReads := by
  intro b7 index q s hs hq
  obtain rfl := sectionOfIndex_eq hq
  exact ⟨exec_rowRead_running hs .srama b7 index, exec_rowRead_running hs .sramb b7 index⟩

/-- Settles O26: no reader or writer of the three groups looks at the index. -/
theorem faultRegisterAccesses : Obligations.FaultRegisterAccesses := by
  intro b7 index v s hs
  exact ⟨exec_rowRead_running hs .fc b7 index, exec_rowRead_running hs .fa b7 index, exec_rowRead_running hs .var b7 index,
    exec_rowWrite_running hs .fc b7 index v, exec_rowWrite_running hs .fa b7 index v⟩

end Sys2Proof.Machine

/-! ### Translated accesses by their parts

A request that makes a translation and then a port access composes the two requests TRANSLATE and PREAD or PWRITE (R280, R281), whatever
the outcome; from this the statement on READ and WRITE. -/

namespace Sys2Proof.Machine

/-- TRANSLATE has the translation as its body. -/
theorem exec_translate_running (x : Access) {s : State} (hs : s.halted = false) :
    exec (.translate x.acc x.lvl x.se x.va) s = .next (answerValue (translate params x s)).close :=
  exec_running _ hs

/-- The state in which a part goes on is the one its recorded value leaves, but for the record. -/
theorem Kept.respond_value_forget {s u : State} (h : Kept s u) (v : Word) :
    { u.respond (.value v) with outcomes := s.outcomes } = u := by
  rw [State.respond_of_not_refusal _ rfl, ← h.outcomes]

/-- The body translates `x`, then runs the body of the port request for the address. -/
def TranslatesThen (P : Params) (x : Access) (port : Word → Instr) (body : State → Res Response) : Prop :=
  ∀ s, body s = (translate P x s).bind fun pa u => requestBody P (port pa) u

theorem requestRead_translatesThen (P : Params) (w : Width) (acc : AccessKind) (lvl : Level) (va : Word) :
    TranslatesThen P ⟨va, acc, lvl, true⟩ (requestPread w) (requestBody P (requestRead w acc lvl va)) := by
  intro s
  cases w with
  | byte | half | word => exact Res.bind_assoc ..

theorem requestWrite_translatesThen (P : Params) (w : Width) (lvl : Level) (va v : Word) :
    TranslatesThen P ⟨va, .write, lvl, true⟩ (fun pa => requestPwrite w pa v) (requestBody P (requestWrite w lvl va v)) := by
  intro s
  cases w with
  | byte | half | word => exact Res.bind_assoc ..

theorem translationOf_requestRead (w : Width) (acc : AccessKind) (lvl : Level) (va : Word) :
    translationOf (requestRead w acc lvl va) = some ⟨va, acc, lvl, true⟩ := by
  cases w <;> rfl

theorem translationOf_requestWrite (w : Width) (lvl : Level) (va v : Word) :
    translationOf (requestWrite w lvl va v) = some ⟨va, .write, lvl, true⟩ := by
  cases w <;> rfl

/-- A request that translates, then makes a port access, is TRANSLATE, then the port request in the state TRANSLATE leaves; where
TRANSLATE answers no address it is TRANSLATE alone. -/
theorem exec_of_translatesThen {i : Instr} {x : Access} {port : Word → Instr} (hx : translationOf i = some x)
    (hi : TranslatesThen params x port (requestBody params i)) {s t : State} {r : Response}
    (h : exec (.translate x.acc x.lvl x.se x.va) s = .next t) (ha : Answers s t r) :
    (∀ pa, r = .value pa → exec i s = exec (port pa) { t with outcomes := s.outcomes }) ∧
      ((∀ pa, r ≠ .value pa) → exec i s = .next t) := by
  have outcome {q : Response} (hq : Answers s t q) : r = q := (ha.iff_eq q).mp hq
  cases hs : s.halted with
  | true =>
    rw [exec_halted (by simp) hs] at h
    cases h
    obtain rfl : r = .refused .halted := outcome rfl
    exact ⟨by simp, fun _ => exec_halted (by rintro rfl; cases hx) hs⟩
  | false =>
    have meets := (contract_kept params x).translate s
    rw [exec_translate_running x hs] at h
    cases hm : translate params x s with
    | go pa u =>
      rw [hm] at meets h
      have kept : Kept s u := meets
      cases h
      obtain rfl : r = .value pa := outcome (by simp [Answers, kept.outcomes])
      refine ⟨fun qa hq => ?_, fun hv => absurd rfl (hv pa)⟩
      cases hq
      have running : u.halted = false := kept.halted.trans hs
      simp only [answerValue_go, Res.close_go, kept.respond_value_forget]
      rw [exec_running i hs, exec_running _ running, hi, hm, Res.bind_go]
    | ended q u =>
      rw [hm] at meets h
      have ended : Ended params x s q u := meets
      cases h
      obtain rfl : r = q := outcome (by simp [Answers, ended.outcomes])
      exact ⟨fun pa hv => absurd hv (ended.noValue pa), fun _ => exec_of_translate_ended hx hs hm⟩

/-- Settles O56: READ and WRITE of every width translate with side effects, then make the port access of their width. -/
theorem accessIsTranslateThenPhysical : Obligations.AccessIsTranslateThenPhysical := by
  intro w lvl va v s
  exact ⟨fun acc _ _ h ha =>
      exec_of_translatesThen (translationOf_requestRead w acc lvl va) (requestRead_translatesThen params w acc lvl va) h ha,
    fun _ _ h ha =>
      exec_of_translatesThen (translationOf_requestWrite w lvl va v) (requestWrite_translatesThen params w lvl va v) h ha⟩

end Sys2Proof.Machine

/-! ### The record of a request

The command word by its fields, the register rows by group, and from these that decoding and encoding are inverse to each other under
every lawful register layout, and which records the decoder rejects (R111, R116). -/

namespace Sys2Proof.Machine

/-! #### The command word -/

/-- The fields of R116 as one number: each field above the ones after it. -/
theorem toNat_commandWord (se : Bool) (lvl : Level) (acc : BitVec 2) (op : BitVec 4) :
    (commandWord se lvl acc op).toNat = ((BitVec.ofBool se).toNat * 2 ^ 2 + lvl.toNat) * 2 ^ 6 + acc.toNat * 2 ^ 4 + op.toNat := by
  simp only [commandWord, toNat_append_eq_mul_add, BitVec.toNat_ofNat]
  omega

theorem Request.toNat_se (r : Request) : r.se.toNat = r.cmd.toNat / 2 ^ 8 % 2 := Nat.toNat_testBit ..

section
variable (se : Bool) (lvl : Level) (acc : BitVec 2) (op : BitVec 4) (a v : Word)

@[simp] theorem Request.op_commandWord : (Request.mk (commandWord se lvl acc op) a v).op = op := by
  apply BitVec.eq_of_toNat_eq
  rw [Request.op, BitVec.extractLsb'_toNat, toNat_commandWord, Nat.shiftRight_eq_div_pow]
  omega

@[simp] theorem Request.accBits_commandWord : (Request.mk (commandWord se lvl acc op) a v).accBits = acc := by
  apply BitVec.eq_of_toNat_eq
  rw [Request.accBits, BitVec.extractLsb'_toNat, toNat_commandWord, Nat.shiftRight_eq_div_pow]
  omega

@[simp] theorem Request.lvl_commandWord : (Request.mk (commandWord se lvl acc op) a v).lvl = lvl := by
  apply BitVec.eq_of_toNat_eq
  rw [Request.lvl, BitVec.extractLsb'_toNat, toNat_commandWord, Nat.shiftRight_eq_div_pow]
  omega

@[simp] theorem Request.se_commandWord : (Request.mk (commandWord se lvl acc op) a v).se = se := by
  have bit : (Request.mk (commandWord se lvl acc op) a v).se.toNat = se.toNat := by
    rw [Request.toNat_se, toNat_commandWord, BitVec.toNat_ofBool]
    have := se.toNat_lt
    omega
  cases se <;> simpa using bit

@[simp] theorem Request.high_commandWord : (Request.mk (commandWord se lvl acc op) a v).high = 0 := by
  apply BitVec.eq_of_toNat_eq
  rw [Request.high, BitVec.extractLsb'_toNat, toNat_commandWord, Nat.shiftRight_eq_div_pow]
  have := (BitVec.ofBool se).isLt
  change _ = 0
  omega

end

/-- A command word with `cmd[15:9] = 0` is that of its fields. -/
theorem Request.cmd_eq_commandWord {r : Request} (h : r.high = 0) : r.cmd = commandWord r.se r.lvl r.accBits r.op := by
  have high : r.cmd.toNat / 2 ^ 9 % 2 ^ 7 = 0 := by
    have h := congrArg BitVec.toNat h
    rwa [Request.high, BitVec.extractLsb'_toNat, Nat.shiftRight_eq_div_pow] at h
  apply BitVec.eq_of_toNat_eq
  rw [toNat_commandWord, BitVec.toNat_ofBool, Request.toNat_se]
  simp only [Request.lvl, Request.accBits, Request.op, BitVec.extractLsb'_toNat, Nat.shiftRight_eq_div_pow]
  have := r.cmd.isLt
  omega

/-! #### Register rows by group -/

/-- The row of a register word under a layout is that of its group (R117). -/
theorem registerReadRow_eq_rowRead (P : Params) (pa : Word) :
    registerReadRow P pa = rowRead (P.regGroup (pa - P.mmuBase)) (P.regFree (pa - P.mmuBase)) (P.regIndex (pa - P.mmuBase)) := by
  simp only [registerReadRow]
  cases P.regGroup (pa - P.mmuBase) <;> rfl

theorem registerWriteRow_eq_rowWrite (P : Params) (pa v : Word) :
    registerWriteRow P pa v =
      rowWrite (P.regGroup (pa - P.mmuBase)) (P.regFree (pa - P.mmuBase)) (P.regIndex (pa - P.mmuBase)) v := by
  simp only [registerWriteRow]
  cases P.regGroup (pa - P.mmuBase) <;> rfl

theorem encode_rowRead (P : Params) (g : RegGroup) (b7 : BitVec 1) (index : BitVec 5) :
    encode P (rowRead g b7 index) = registerReadRequest P g b7 index := by
  cases g <;> rfl

theorem encode_rowWrite (P : Params) (g : RegGroup) (b7 : BitVec 1) (index : BitVec 5) (v : Word) :
    encode P (rowWrite g b7 index v) = registerWriteRequest P g b7 index v := by
  cases g <;> rfl

theorem wellFormed_rowRead (P : Params) (g : RegGroup) (b7 : BitVec 1) (index : BitVec 5) :
    (rowRead g b7 index).wellFormed P = true := by
  cases g <;> rfl

theorem wellFormed_rowWrite (P : Params) (g : RegGroup) (b7 : BitVec 1) (index : BitVec 5) (v : Word) :
    (rowWrite g b7 index v).wellFormed P = true := by
  cases g <;> rfl

/-- A register word lies at the address of the register its offset decodes to. -/
theorem registerAddress_of_isRegisterWord {P : Params} (h : RegisterLayoutLaws P) {pa : Word} (hw : isRegisterWord P pa = true) :
    registerAddress P (P.regGroup (pa - P.mmuBase)) (P.regFree (pa - P.mmuBase)) (P.regIndex (pa - P.mmuBase)) = pa := by
  obtain ⟨-, back, aligned, -⟩ := h
  simp only [isRegisterWord, inMmuWindow, Bool.and_eq_true, decide_eq_true_eq, beq_iff_eq] at hw
  obtain ⟨⟨lower, upper⟩, word⟩ := hw
  have off : (pa - P.mmuBase).toNat = pa.toNat - P.mmuBase.toNat := BitVec.toNat_sub_of_le lower
  rw [registerAddress, back _ (by omega) (by omega), BitVec.add_comm, BitVec.sub_add_cancel]

/-! #### Decoding what was encoded -/

theorem AccessKind.ofCode_code (acc : AccessKind) : AccessKind.ofCode acc.code = acc := by
  cases acc <;> rfl

theorem AccessKind.code_ofCode (c : BitVec 2) : (AccessKind.ofCode c).code = c := by
  revert c
  decide

/-- The record of a reserved operation keeps the operation and the other twelve bits of the command word. -/
theorem reserved_fields (rest : BitVec 12) (op : BitVec 4) :
    (rest ++ op).extractLsb' 0 4 = op ∧ (rest ++ op).extractLsb' 4 12 = rest := by
  constructor <;> apply BitVec.eq_of_toNat_eq <;>
    rw [BitVec.extractLsb'_toNat, Nat.shiftRight_eq_div_pow, toNat_append_eq_mul_add] <;> omega

/-- Under every lawful register layout the decoder undoes the encoder (R111, R116). -/
theorem decode_encode {P : Params} (h : RegisterLayoutLaws P) {i : Instr} (hi : i.wellFormed P = true) :
    decode P (encode P i) = .ok i := by
  cases i with
  | pread32 pa =>
    simp only [Instr.wellFormed, Bool.not_eq_true'] at hi
    rw [encode, (by decide : commandWord false 0 2 9 = 0x0029#16), decode_pread32, physicalRead32, if_neg (by simp [hi])]
  | pwrite32 pa v =>
    simp only [Instr.wellFormed, Bool.not_eq_true'] at hi
    rw [encode, (by decide : commandWord false 0 2 10 = 0x002A#16), decode_pwrite32, physicalWrite32, if_neg (by simp [hi])]
  | reservedE rest a v => simp [encode, decode, Request.op, reserved_fields]
  | reservedF rest a v => simp [encode, decode, Request.op, reserved_fields]
  | mmurSdcl | mmurSdch | mmurPdcrl | mmurPdcrh | mmurPdcll | mmurPdclh | mmurSrama | mmurSramb | mmurFc | mmurFa | mmurConf
  | mmurVar | mmurUndef12 | mmurUndef13 | mmurUndef14 | mmurUndef15 => exact decode_registerReadRequest h ..
  | mmuwSdcl | mmuwSdch | mmuwPdcrl | mmuwPdcrh | mmuwPdcll | mmuwPdclh | mmuwSrama | mmuwSramb | mmuwFc | mmuwFa | mmuwConf
  | mmuwVar | mmuwUndef12 | mmuwUndef13 | mmuwUndef14 | mmuwUndef15 => exact decode_registerWriteRequest h ..
  | _ =>
    simp [encode, decode, decodePread, decodePwrite, accepted, Request.noSe, Request.noCmdFields, Request.onlyWidth,
      AccessKind.ofCode_code]

/-! #### Encoding what was decoded -/

theorem accepted_eq_ok {r : Request} {unusedZero : Bool} {i j : Instr} (h : accepted r unusedZero i = .ok j) :
    r.high = 0 ∧ unusedZero = true ∧ i = j := by
  unfold accepted at h
  split at h
  · cases h
  · split at h
    · cases h
      exact ⟨by simp_all, by assumption, rfl⟩
    · cases h

theorem Request.eq_of_high {r : Request} (h : r.high = 0) : ⟨commandWord r.se r.lvl r.accBits r.op, r.a, r.v⟩ = r := by
  rw [← Request.cmd_eq_commandWord h]

/-- The record of a PREAD that the decoder takes (R229). -/
theorem encode_of_decodePread {P : Params} (h : RegisterLayoutLaws P) {r : Request} {i : Instr} (ho : r.op = 9)
    (hd : decodePread P r = .ok i) : encode P i = r ∧ i.wellFormed P = true := by
  have done {acc : BitVec 2} (ha : r.accBits.toNat = acc.toNat) {j : Instr} (hj : accepted r (r.onlyWidth && r.v == 0) j = .ok i) :
      ⟨commandWord false 0 acc 9, r.a, 0⟩ = r ∧ j = i := by
    obtain ⟨hh, hu, rfl⟩ := accepted_eq_ok hj
    simp only [Request.onlyWidth, Request.noSe, Bool.and_eq_true, beq_iff_eq] at hu
    obtain ⟨⟨hl, hs⟩, hv⟩ := hu
    refine ⟨Eq.trans ?_ (Request.eq_of_high hh), rfl⟩
    rw [hl, hs, hv, ho, BitVec.eq_of_toNat_eq ha]
  unfold decodePread at hd
  split at hd
  case h_1 ha => obtain ⟨hr, rfl⟩ := done (acc := 0) ha hd; exact ⟨hr, rfl⟩
  case h_2 ha => obtain ⟨hr, rfl⟩ := done (acc := 1) ha hd; exact ⟨hr, rfl⟩
  case h_3 ha =>
    obtain ⟨hr, rfl⟩ := done (acc := 2) ha hd
    unfold physicalRead32
    split
    · rename_i hw
      rw [registerReadRow_eq_rowRead, encode_rowRead, registerReadRequest, registerAddress_of_isRegisterWord h hw]
      exact ⟨hr, wellFormed_rowRead ..⟩
    · rename_i hw
      exact ⟨hr, by simpa [Instr.wellFormed] using hw⟩
  case h_4 => cases hd

/-- The record of a PWRITE that the decoder takes (R230). -/
theorem encode_of_decodePwrite {P : Params} (h : RegisterLayoutLaws P) {r : Request} {i : Instr} (ho : r.op = 10)
    (hd : decodePwrite P r = .ok i) : encode P i = r ∧ i.wellFormed P = true := by
  have done {acc : BitVec 2} (ha : r.accBits.toNat = acc.toNat) {j : Instr} (hj : accepted r r.onlyWidth j = .ok i) :
      ⟨commandWord false 0 acc 10, r.a, r.v⟩ = r ∧ j = i := by
    obtain ⟨hh, hu, rfl⟩ := accepted_eq_ok hj
    simp only [Request.onlyWidth, Request.noSe, Bool.and_eq_true, beq_iff_eq] at hu
    obtain ⟨hl, hs⟩ := hu
    refine ⟨Eq.trans ?_ (Request.eq_of_high hh), rfl⟩
    rw [hl, hs, ho, BitVec.eq_of_toNat_eq ha]
  unfold decodePwrite at hd
  split at hd
  case h_1 ha => obtain ⟨hr, rfl⟩ := done (acc := 0) ha hd; exact ⟨hr, rfl⟩
  case h_2 ha => obtain ⟨hr, rfl⟩ := done (acc := 1) ha hd; exact ⟨hr, rfl⟩
  case h_3 ha =>
    obtain ⟨hr, rfl⟩ := done (acc := 2) ha hd
    unfold physicalWrite32
    split
    · rename_i hw
      rw [registerWriteRow_eq_rowWrite, encode_rowWrite, registerWriteRequest, registerAddress_of_isRegisterWord h hw]
      exact ⟨hr, wellFormed_rowWrite ..⟩
    · rename_i hw
      exact ⟨hr, by simpa [Instr.wellFormed] using hw⟩
  case h_4 => cases hd

/-- The command word of a reserved operation is its upper twelve bits and the operation. -/
theorem Request.cmd_eq_append (r : Request) : r.cmd.extractLsb' 4 12 ++ r.op = r.cmd := by
  apply BitVec.eq_of_toNat_eq
  rw [toNat_append_eq_mul_add, Request.op]
  simp only [BitVec.extractLsb'_toNat, Nat.shiftRight_eq_div_pow]
  have := r.cmd.isLt
  omega

/-- Under every lawful register layout the encoder undoes the decoder, and what the decoder answers is well-formed (R111, R116). -/
theorem encode_of_decode {P : Params} (h : RegisterLayoutLaws P) {r : Request} {i : Instr} (hd : decode P r = .ok i) :
    encode P i = r ∧ i.wellFormed P = true := by
  have op {n : Nat} (hn : r.op.toNat = n) : r.op = BitVec.ofNat 4 n := by rw [← hn, BitVec.ofNat_toNat, BitVec.setWidth_eq]
  unfold decode at hd
  split at hd
  case h_10 ho => exact encode_of_decodePread h (op ho) hd
  case h_11 ho => exact encode_of_decodePwrite h (op ho) hd
  case h_15 ho =>
    cases hd
    refine ⟨?_, rfl⟩
    rw [encode, ← op ho, Request.cmd_eq_append]
  case h_16 =>
    cases hd
    have ho : r.op.toNat = 15 := by
      have := r.op.isLt
      simp only [imp_false] at *
      omega
    refine ⟨?_, rfl⟩
    rw [encode, ← op ho, Request.cmd_eq_append]
  all_goals
    obtain ⟨hh, hu, rfl⟩ := accepted_eq_ok hd
    refine ⟨Eq.trans ?_ (Request.eq_of_high hh), rfl⟩
    simp only [Request.noCmdFields, Request.noSe, Bool.and_eq_true, beq_iff_eq] at hu
    simp [encode, AccessKind.code_ofCode, op ‹_›, hu]

/-- Settles O1: the register decode of L0 is lawful. -/
theorem decodeOfEncodeIsTheInstruction : Obligations.DecodeOfEncodeIsTheInstruction :=
  fun _ hi => decode_encode registerLayout_lawful hi

/-- Settles O2: the register decode of L0 is lawful. -/
theorem encodeOfDecodeIsTheRecord : Obligations.EncodeOfDecodeIsTheRecord :=
  fun _ _ hd => encode_of_decode registerLayout_lawful hd

/-! #### Rejected records -/

theorem accepted_rejects_iff {r : Request} {unusedZero : Bool} {i : Instr} :
    (∃ e, accepted r unusedZero i = .rejected e) ↔ r.high ≠ 0 ∨ unusedZero = false := by
  unfold accepted
  by_cases hh : r.high = 0
  · cases unusedZero <;> simp [hh]
  · rw [if_pos hh]
    simpa using .inl hh

/-- The width code 3 is no width (R116). -/
theorem Request.accBits_eq_three {r : Request} (h0 : r.accBits.toNat ≠ 0) (h1 : r.accBits.toNat ≠ 1) (h2 : r.accBits.toNat ≠ 2) :
    r.accBits = 3 :=
  BitVec.eq_of_toNat_eq (by have := r.accBits.isLt; change _ = 3; omega)

theorem decodePread_rejects_iff {P : Params} {r : Request} :
    (∃ e, decodePread P r = .rejected e) ↔ r.high ≠ 0 ∨ r.lvl ≠ 0 ∨ r.se = true ∨ r.v ≠ 0 ∨ r.accBits = 3 := by
  unfold decodePread
  split
  case h_4 h0 h1 h2 => simp [Request.accBits_eq_three h0 h1 h2]
  all_goals
    have code : r.accBits ≠ 3 := by rintro ha; simp_all
    simp only [accepted_rejects_iff, Request.onlyWidth, Request.noSe, Bool.and_eq_false_iff, beq_eq_false_iff_ne, ne_eq,
      Bool.not_eq_false, code, or_false, or_assoc]

theorem decodePwrite_rejects_iff {P : Params} {r : Request} :
    (∃ e, decodePwrite P r = .rejected e) ↔ r.high ≠ 0 ∨ r.lvl ≠ 0 ∨ r.se = true ∨ r.accBits = 3 := by
  unfold decodePwrite
  split
  case h_4 h0 h1 h2 => simp [Request.accBits_eq_three h0 h1 h2]
  all_goals
    have code : r.accBits ≠ 3 := by rintro ha; simp_all
    simp only [accepted_rejects_iff, Request.onlyWidth, Request.noSe, Bool.and_eq_false_iff, beq_eq_false_iff_ne, ne_eq,
      Bool.not_eq_false, code, or_false]

/-- Settles O3: the operation decides which fields are unused. -/
theorem recordRejectedExactlyWhenMalformed : Obligations.RecordRejectedExactlyWhenMalformed := by
  intro r
  unfold decode Malformed
  split
  case h_10 ho => simp [decodePread_rejects_iff, ho, usesAcc, usesLvl, usesSe, usesA, usesV]
  case h_11 ho => simp [decodePwrite_rejects_iff, ho, usesAcc, usesLvl, usesSe, usesA, usesV]
  case h_15 ho => simp [ho]
  case h_16 =>
    have := r.op.isLt
    simp only [imp_false] at *
    simp
    omega
  all_goals
    rename_i ho
    simp only [accepted_rejects_iff, Request.noCmdFields, Request.noSe, Bool.and_eq_false_iff, beq_eq_false_iff_ne, ne_eq,
      Bool.not_eq_false, or_assoc]
    simp [ho, usesAcc, usesLvl, usesSe, usesA, usesV]

end Sys2Proof.Machine

/-! ### The fields of the default layout

Each field, mask and setter of L0 as a number (R100 to R109), and the statements on them. -/

namespace Sys2Proof.Machine

/-- `v[hi:lo]` as a number (R11). -/
theorem toNat_field (v : Word) {hi lo : Nat} (h : hi < 32) : (field v hi lo).toNat = v.toNat / 2 ^ lo % 2 ^ (hi + 1 - lo) := by
  have fits : 2 ^ (hi + 1 - lo) ≤ 2 ^ 32 := Nat.pow_le_pow_right (by omega) (by omega)
  rw [field, BitVec.toNat_and, BitVec.toNat_ushiftRight, BitVec.toNat_ofNat, Nat.mod_eq_of_lt (by omega),
    Nat.and_two_pow_sub_one_eq_mod, Nat.shiftRight_eq_div_pow]

/-- Masking off the bits below `k`, as a number. -/
theorem toNat_and_mask {mask : Word} {k : Nat} (hm : ∀ i : Fin 32, mask.getLsbD i = decide (k ≤ i.val)) (w : Word) :
    (w &&& mask).toNat = w.toNat / 2 ^ k * 2 ^ k := by
  rw [← Nat.shiftRight_eq_div_pow, ← Nat.shiftLeft_eq, BitVec.toNat_and]
  refine Nat.eq_of_testBit_eq fun i => ?_
  rw [Nat.testBit_and, Nat.testBit_shiftLeft, Nat.testBit_shiftRight]
  by_cases hi : i < 32
  · have bit : mask.toNat.testBit i = decide (k ≤ i) := hm ⟨i, hi⟩
    by_cases hk : k ≤ i
    · simp [bit, hk, Nat.add_sub_cancel' hk]
    · simp [bit, hk]
  · have top : w.toNat.testBit i = false := BitVec.getLsbD_of_ge w i (by omega)
    by_cases hk : k ≤ i
    · simp [top, Nat.add_sub_cancel' hk]
    · simp [top, hk]

/-- Bit `i` after setting bit `k`, of the word as a number. -/
theorem testBit_withBit (w : Word) {k : Nat} (hk : k < 32) (i : Nat) :
    (withBit w k).toNat.testBit i = (decide (i = k) || w.toNat.testBit i) :=
  (bit_withBit w hk i).trans (Bool.or_comm ..)

/-! #### Virtual addresses -/

section
variable (va : Word)

theorem sid_val : (params.sid va).val = va.toNat / 2 ^ 30 := by
  have := va.isLt
  show (field va 31 30).toNat % 4 = _
  rw [toNat_field va (by omega)]
  omega

theorem toNat_ssl : (params.ssl va).toNat = va.toNat / 2 ^ 17 % 2 ^ 13 := toNat_field va (by omega)

theorem toNat_sot : (params.sot va).toNat = va.toNat % 2 ^ 17 := by
  show (field va 16 0).toNat = _
  rw [toNat_field va (by omega), Nat.pow_zero, Nat.div_one]

theorem toNat_psl : (params.psl va).toNat = va.toNat / 2 ^ 11 % 2 ^ 6 := toNat_field va (by omega)

theorem toNat_pot : (params.pot va).toNat = va.toNat % 2 ^ 11 := by
  show (field va 10 0).toNat = _
  rw [toNat_field va (by omega), Nat.pow_zero, Nat.div_one]

end

/-- R100's laws for L0. -/
theorem vaLayout_lawful : VaLayoutLaws params := by
  refine ⟨fun va => ⟨BitVec.eq_of_toNat_eq ?_, ?_⟩, fun va vb hsid hssl hsot => BitVec.eq_of_toNat_eq ?_⟩
  · have page : (BitVec.ofNat 32 (2 ^ params.pageShift)).toNat = 2 ^ 11 := rfl
    rw [BitVec.toNat_add, BitVec.toNat_mul, toNat_sot, toNat_psl, toNat_pot, page]
    omega
  · rw [toNat_pot]
    exact Nat.mod_lt _ (by decide)
  · have sid := congrArg Fin.val hsid
    have ssl := congrArg BitVec.toNat hssl
    have sot := congrArg BitVec.toNat hsot
    rw [sid_val, sid_val] at sid
    rw [toNat_ssl, toNat_ssl] at ssl
    rw [toNat_sot, toNat_sot] at sot
    omega

/-- Settles O5: the fields by `toNat_field`, and the three that name an address give it back. -/
theorem virtualAddressFieldsAreLawful : Obligations.VirtualAddressFieldsAreLawful :=
  ⟨fun va => ⟨sid_val va, toNat_ssl va, toNat_sot va, toNat_psl va, toNat_pot va⟩, rfl, vaLayout_lawful⟩

/-! #### Descriptors and section registers -/

section
variable (w : Word)

theorem toNat_rights : (params.rights w).toNat = w.toNat / 2 ^ 24 := by
  have := w.isLt
  show (field w 31 24).toNat = _
  rw [toNat_field w (by omega)]
  omega

theorem toNat_maxOff : (params.maxOff w).toNat = w.toNat / 2 ^ 10 % 2 ^ 14 * 8 + 7 := by
  show ((field w 23 10 <<< 3) ||| 7#32).toNat = _
  have units : (field w 23 10 <<< 3).toNat = (w.toNat / 2 ^ 10 % 2 ^ 14) <<< 3 := by
    rw [BitVec.toNat_shiftLeft, toNat_field w (by omega), Nat.shiftLeft_eq]
    omega
  rw [BitVec.toNat_or, units, BitVec.toNat_ofNat, ← Nat.shiftLeft_add_eq_or_of_lt (by decide), Nat.shiftLeft_eq]

/-- The mask of SRAMA, SD1 and the page table base. -/
theorem toNat_and_mask_five : (w &&& 0xFFFFFFE0#32).toNat = w.toNat / 2 ^ 5 * 2 ^ 5 := toNat_and_mask (by decide) w

theorem toNat_pageBase : (params.pageBase w).toNat = w.toNat / 2 ^ 11 * 2 ^ 11 := toNat_and_mask (by decide) w

theorem toNat_sectLen : (params.sectLen w).toNat = w.toNat / 2 ^ 10 % 2 ^ 13 := toNat_field w (by omega)

end

/-- Settles O6: flags are bits by definition, the other fields are masks and shifts, and a setter is `withBit`. -/
theorem descriptorFieldsAreTheLayouts : Obligations.DescriptorFieldsAreTheLayouts := by
  intro w
  refine ⟨⟨toNat_rights w, toNat_maxOff w, rfl, rfl, rfl, rfl, rfl, rfl, rfl, rfl⟩, ⟨toNat_and_mask_five w, toNat_and_mask_five w⟩,
    ⟨toNat_pageBase w, rfl, rfl, rfl, rfl, rfl⟩, ⟨toNat_and_mask_five w, toNat_sectLen w⟩, ?_⟩
  exact ⟨testBit_withBit w (by omega), testBit_withBit w (by omega), testBit_withBit w (by omega), testBit_withBit w (by omega)⟩

/-- Settles O7: the two bits of the level, by their four values. -/
theorem permissionsFollowTheLevelCode : Obligations.PermissionsFollowTheLevelCode := by
  intro rights acc lvl
  have code : ((rights >>> (2 * (3 - lvl.toNat))) &&& 3#32).toNat = rights.toNat / 2 ^ (2 * (3 - lvl.toNat)) % 4 := by
    rw [BitVec.toNat_and, BitVec.toNat_ushiftRight, Nat.shiftRight_eq_div_pow]
    exact Nat.and_two_pow_sub_one_eq_mod _ 2
  show L0.permits rights acc lvl = true ↔ _
  rw [L0.permits, code]
  have four := Nat.mod_lt (rights.toNat / 2 ^ (2 * (3 - lvl.toNat))) (by decide : 0 < 4)
  generalize rights.toNat / 2 ^ (2 * (3 - lvl.toNat)) % 4 = n at four
  interval_cases n <;> simp

/-- Settles O8: the ten codes are ten numbers. -/
theorem faultCodesAreDistinct : Obligations.FaultCodesAreDistinct := by
  refine ⟨⟨rfl, rfl, rfl, rfl, rfl, rfl, rfl, rfl, rfl, rfl⟩, fun c d => ?_⟩
  cases c <;> cases d <;> simp [params, L0.fcode]

/-- Settles O4: twelve records and table words, decoded. -/
theorem vectorWordsDecode : Obligations.VectorWordsDecode := by
  unfold Obligations.VectorWordsDecode
  decide

end Sys2Proof.Machine

/-! ### The caches

What an insertion and a raw window write leave of a cache, as lists of entries (R141, R144, R145, R146, R150), the draws that reach each
of these outcomes, and the statements on them. -/

namespace Sys2Proof.Machine

/-! #### Capacity and keys -/

/-- A cache holds at most `cap` entries and one per key (R141). -/
def CacheOk {α κ : Type} (key : α → κ) (cap : Nat) (l : List α) : Prop := l.length ≤ cap ∧ (l.map key).Nodup

section
variable {α κ : Type} {key : α → κ} {cap : Nat} {l l' : List α}

theorem CacheOk.sublist (h : CacheOk key cap l) (hl : l'.Sublist l) : CacheOk key cap l' :=
  ⟨hl.length_le.trans h.1, h.2.sublist (hl.map key)⟩

theorem CacheOk.cons {e : α} (h : CacheOk key cap l) (hl : l.length < cap) (he : ∀ d ∈ l, key d ≠ key e) :
    CacheOk key cap (e :: l) :=
  ⟨hl, List.nodup_cons.mpr ⟨by simpa using he, h.2⟩⟩

/-- Where the others are within the capacity, an insertion leaves room for its entry (R144). -/
theorem length_evict_lt (d : Nat) (hc : 0 < cap) (h : l.length ≤ cap) : (evict cap d l).length < cap := by
  have hk := (dropDrawn_sublist d l).length_le
  unfold evict
  dsimp only
  split
  · rw [List.length_eraseIdx_of_lt (Nat.mod_lt _ (by omega))]
    omega
  · omega

/-- A part of the others that leaves room is what some draw makes survive (R144). -/
theorem exists_evict {kept : List α} (h : kept.Sublist l) (hk : kept.length < cap) : ∃ d, evict cap d l = kept := by
  obtain ⟨d, rfl⟩ := exists_dropDrawn h
  exact ⟨d, if_neg (by omega)⟩

theorem CacheOk.havocOne (h : CacheOk key cap l) (hh : HavocOne key cap l l') : CacheOk key cap l' := by
  obtain ⟨left, hleft, hl'⟩ := hh
  have ok : CacheOk key cap left := by
    rcases hleft with rfl | ⟨n, -, rfl⟩
    · exact h
    · exact h.sublist (List.eraseIdx_sublist ..)
  rcases hl' with rfl | ⟨e, he, hroom, rfl⟩
  · exact ok
  · exact ok.cons hroom he

end

theorem lookupSegment_eq_none {k : SegKey} {l : List SegEntry} : lookupSegment k l = none ↔ ∀ e ∈ l, e.key ≠ k := by
  simp [lookupSegment]

theorem lookupPage_eq_none {k : PageKey} {l : List PageEntry} : lookupPage k l = none ↔ ∀ e ∈ l, e.key ≠ k := by
  simp [lookupPage]

theorem CacheOk.insertSegment {s : State} (h : CacheOk SegEntry.key Config.sdcCap s.sdc) (k : SegKey) (a b : Word) :
    CacheOk SegEntry.key Config.sdcCap (insertSegment k a b s).sdc := by
  have others := h.sublist (List.filter_sublist (p := fun e => e.key ≠ k))
  have part := evict_sublist Config.sdcCap s.draw.1 (s.sdc.filter fun e => e.key ≠ k)
  exact (others.sublist part).cons (length_evict_lt _ (by decide) others.1) fun d hd => by
    simpa using (List.mem_filter.mp (part.subset hd)).2

theorem CacheOk.insertPage {s : State} (h : CacheOk PageEntry.key Config.pdcCap s.pdc) (k : PageKey) (pd r : Word) :
    CacheOk PageEntry.key Config.pdcCap (insertPage k pd r s).pdc := by
  have others := h.sublist (List.filter_sublist (p := fun e => e.key ≠ k))
  have part := evict_sublist Config.pdcCap s.draw.1 (s.pdc.filter fun e => e.key ≠ k)
  exact (others.sublist part).cons (length_evict_lt _ (by decide) others.1) fun d hd => by
    simpa using (List.mem_filter.mp (part.subset hd)).2

/-! #### Insertion -/

/-- Two states that agree on everything but the free inputs left. -/
def DrawsOnly (s t : State) : Prop := t = { s with draws := t.draws, drawCount := t.drawCount }

theorem insertSegment_eq (k : SegKey) (a b : Word) (s : State) :
    insertSegment k a b s =
      { s with sdc := (insertSegment k a b s).sdc, draws := s.draw.2.draws, drawCount := s.draw.2.drawCount } := by
  conv_lhs => rw [insertSegment, State.draw_eq s]
  rfl

theorem insertPage_eq (k : PageKey) (pd r : Word) (s : State) :
    insertPage k pd r s = { s with pdc := (insertPage k pd r s).pdc, draws := s.draw.2.draws, drawCount := s.draw.2.drawCount } := by
  conv_lhs => rw [insertPage, State.draw_eq s]
  rfl

/-- Settles O40: `evict_sublist` and `length_evict_lt` bound what survives, `exists_evict` reaches each such part. -/
theorem evictionIsADraw : Obligations.EvictionIsADraw := by
  refine ⟨fun k a b s => ⟨fun h => ?_, fun kept hk hl => ?_⟩, fun k pd r s => ⟨fun h => ?_, fun kept hk hl => ?_⟩⟩
  · exact ⟨_, evict_sublist .., length_evict_lt _ (by decide) h, rfl⟩
  · obtain ⟨d, rfl⟩ := exists_evict hk hl
    exact ⟨d, fun ds => by rw [insertSegment, State.draw_cons _ d ds rfl]; rfl⟩
  · exact ⟨_, evict_sublist .., length_evict_lt _ (by decide) h, rfl⟩
  · obtain ⟨d, rfl⟩ := exists_evict hk hl
    exact ⟨d, fun ds => by rw [insertPage, State.draw_cons _ d ds rfl]; rfl⟩

/-- Looking a key up in a part of a list with one entry per key finds what the list shows, or nothing. -/
theorem find?_sublist_of_nodup {α κ : Type} [DecidableEq κ] {key : α → κ} {l l' : List α} (hn : (l.map key).Nodup)
    (hs : l'.Sublist l) (k : κ) :
    l'.find? (fun e => key e = k) = l.find? (fun e => key e = k) ∨ l'.find? (fun e => key e = k) = none := by
  cases h' : l'.find? (fun e => key e = k) with
  | none => exact .inr rfl
  | some d =>
    refine .inl ?_
    have hd : key d = k := by simpa using List.find?_some h'
    cases h : l.find? (fun e => key e = k) with
    | none => exact absurd hd (by simpa using List.find?_eq_none.mp h d (hs.subset (List.mem_of_find?_eq_some h')))
    | some e =>
      have he : key e = k := by simpa using List.find?_some h
      rw [List.inj_on_of_nodup_map hn (hs.subset (List.mem_of_find?_eq_some h')) (List.mem_of_find?_eq_some h) (hd.trans he.symm)]

theorem lookupSegment_cons_self (k : SegKey) (a b : Word) (l : List SegEntry) : lookupSegment k (⟨k, a, b⟩ :: l) = some ⟨k, a, b⟩ := by
  simp [lookupSegment]

theorem lookupPage_cons_self (k : PageKey) (pd r : Word) (l : List PageEntry) : lookupPage k (⟨k, pd, r⟩ :: l) = some ⟨k, pd, r⟩ := by
  simp [lookupPage]

/-- Settles O41: the entry stands first, and what follows is a part of the cache before. -/
theorem insertedDescriptorIsVisible : Obligations.InsertedDescriptorIsVisible := by
  refine ⟨fun k a b s hn => ?_, fun k pd r s hn => ?_⟩
  · obtain ⟨kept, hs, he⟩ := insertSegment_sdc k a b s
    refine ⟨by rw [he, lookupSegment_cons_self], fun k' hk => ?_, _, _, _, insertSegment_eq k a b s⟩
    have skip : lookupSegment k' (⟨k, a, b⟩ :: kept) = lookupSegment k' kept := by simp [lookupSegment, Ne.symm hk]
    rw [he, skip]
    exact find?_sublist_of_nodup hn hs k'
  · obtain ⟨kept, hs, he⟩ := insertPage_pdc k pd r s
    refine ⟨by rw [he, lookupPage_cons_self], fun k' hk => ?_, _, _, _, insertPage_eq k pd r s⟩
    have skip : lookupPage k' (⟨k, pd, r⟩ :: kept) = lookupPage k' kept := by simp [lookupPage, Ne.symm hk]
    rw [he, skip]
    exact find?_sublist_of_nodup hn hs k'

/-! #### Raw window writes -/

/-- Erasing at a drawn place removes one entry or, past the end, none. -/
theorem eraseIdx_one_or_none {α : Type} (l : List α) (n : Nat) : l.eraseIdx n = l ∨ ∃ m, m < l.length ∧ l.eraseIdx n = l.eraseIdx m := by
  rcases Nat.lt_or_ge n l.length with h | h
  · exact .inr ⟨n, h, rfl⟩
  · exact .inl (List.eraseIdx_of_length_le h)

theorem havocSegment_sdc (P : Params) (s : State) : HavocOne SegEntry.key Config.sdcCap s.sdc (havocSegment P s).sdc := by
  refine ⟨s.sdc.eraseIdx s.draw.1, eraseIdx_one_or_none .., ?_⟩
  simp only [havocSegment, State.setSdc_sdc]
  split
  · rename_i h
    exact .inr ⟨_, lookupSegment_eq_none.mp h.2.2, h.2.1, rfl⟩
  · exact .inl rfl

theorem havocPage_pdc (P : Params) (s : State) : HavocOne PageEntry.key Config.pdcCap s.pdc (havocPage P s).pdc := by
  refine ⟨s.pdc.eraseIdx s.draw.1, eraseIdx_one_or_none .., ?_⟩
  simp only [havocPage, State.setPdc_pdc]
  split
  · rename_i h
    exact .inr ⟨_, lookupPage_eq_none.mp h.2.2, h.2.1, rfl⟩
  · exact .inl rfl

theorem DrawsOnly.draw {s t : State} (h : DrawsOnly s t) : DrawsOnly s t.draw.2 := by
  unfold DrawsOnly at h ⊢
  rw [State.draw_eq t, h]

theorem DrawsOnly.refl (s : State) : DrawsOnly s s := rfl

theorem havocSegment_eq (P : Params) (s : State) :
    havocSegment P s = { s with sdc := (havocSegment P s).sdc, draws := (havocSegment P s).draws,
                                drawCount := (havocSegment P s).drawCount } := by
  have drawn : DrawsOnly s s.draw.2.draw.2.draw.2.draw.2.draw.2 := (DrawsOnly.refl s).draw.draw.draw.draw.draw
  simp only [havocSegment, State.drawWord_snd]
  generalize s.draw.2.draw.2.draw.2.draw.2.draw.2 = t at drawn
  rw [drawn]
  rfl

theorem havocPage_eq (P : Params) (s : State) :
    havocPage P s = { s with pdc := (havocPage P s).pdc, draws := (havocPage P s).draws, drawCount := (havocPage P s).drawCount } := by
  have drawn : DrawsOnly s s.draw.2.draw.2.draw.2.draw.2.draw.2 := (DrawsOnly.refl s).draw.draw.draw.draw.draw
  simp only [havocPage, State.drawWord_snd]
  generalize s.draw.2.draw.2.draw.2.draw.2.draw.2 = t at drawn
  rw [drawn]
  rfl

/-- Settles O29: groups 0 and 1 write by `havocSegment`, groups 2 to 5 by `havocPage`. -/
theorem rawWindowWriteChangesAtMostOneEntry : Obligations.RawWindowWriteChangesAtMostOneEntry := by
  intro b7 index v s hs
  refine ⟨fun g hg => ⟨_, (havocSegment params s).draws, (havocSegment params s).drawCount, ?_, havocSegment_sdc params s⟩,
    fun g hg => ⟨_, (havocPage params s).draws, (havocPage params s).drawCount, ?_, havocPage_pdc params s⟩⟩
  · have write : writeRegister params g index v s = havocSegment params s := by rcases hg with rfl | rfl <;> rfl
    rw [exec_rowWrite_running hs, write, havocSegment_eq]
  · have write : writeRegister params g index v s = havocPage params s := by rcases hg with rfl | rfl | rfl | rfl <;> rfl
    rw [exec_rowWrite_running hs, write, havocPage_eq]

/-- A raw window write of the SDC, by its five draws: place, coming, address, SD0, SD1 (log 9). -/
theorem havocSegment_of_draws (P : Params) (n c : Nat) (va sd0 sd1 : Word) (ds : List Nat) (s : State) :
    havocSegment P { s with draws := n :: c :: va.toNat :: sd0.toNat :: sd1.toNat :: ds } =
      { s with
        sdc := if c % 2 = 1 ∧ (s.sdc.eraseIdx n).length < 32 ∧ lookupSegment (sdcKey P va) (s.sdc.eraseIdx n) = none then
            ⟨sdcKey P va, sd0, sd1⟩ :: s.sdc.eraseIdx n else s.sdc.eraseIdx n
        draws := ds } := by
  simp only [havocSegment, State.drawWord, State.draw, BitVec.ofNat_toNat, BitVec.setWidth_eq]
  rfl

/-- A raw window write of the PDC, by its five draws: place, coming, address, PD, SD0 (log 9). -/
theorem havocPage_of_draws (P : Params) (n c : Nat) (va pd sd0 : Word) (ds : List Nat) (s : State) :
    havocPage P { s with draws := n :: c :: va.toNat :: pd.toNat :: sd0.toNat :: ds } =
      { s with
        pdc := if c % 2 = 1 ∧ (s.pdc.eraseIdx n).length < 32 ∧ lookupPage (pdcKey P va) (s.pdc.eraseIdx n) = none then
            ⟨pdcKey P va, pd, P.rights sd0⟩ :: s.pdc.eraseIdx n else s.pdc.eraseIdx n
        draws := ds } := by
  simp only [havocPage, State.drawWord, State.draw, BitVec.ofNat_toNat, BitVec.setWidth_eq]
  rfl

/-- One entry gone or none is the erasure at some place. -/
theorem exists_eraseIdx {α : Type} {l left : List α} (h : left = l ∨ ∃ n, n < l.length ∧ left = l.eraseIdx n) :
    ∃ n, l.eraseIdx n = left := by
  rcases h with rfl | ⟨n, -, rfl⟩
  · exact ⟨left.length, List.eraseIdx_of_length_le (Nat.le_refl _)⟩
  · exact ⟨n, rfl⟩

/-- Every byte is the rights of some SD0 under L0. -/
theorem exists_rights {rights : Word} (h : rights.toNat < 256) : ∃ sd0, params.rights sd0 = rights := by
  refine ⟨rights <<< 24, BitVec.eq_of_toNat_eq ?_⟩
  rw [toNat_rights, BitVec.toNat_shiftLeft, Nat.shiftLeft_eq]
  omega

/-- Settles O30: the first draw names the place, an odd second one brings the entry. -/
theorem rawWindowWriteReachesEveryEntry : Obligations.RawWindowWriteReachesEveryEntry := by
  intro b7 index v s hs
  refine ⟨fun g hg left hleft => ?_, fun g hg left hleft => ?_⟩ <;> obtain ⟨n, rfl⟩ := exists_eraseIdx hleft
  · have row (f : List Nat) : exec (rowWrite g b7 index v) { s with draws := f } =
        .next { havocSegment params { s with draws := f } with
          outcomes := .done :: (havocSegment params { s with draws := f }).outcomes } := by
      rcases hg with rfl | rfl <;> exact exec_rowWrite_running (s := { s with draws := f }) hs ..
    refine ⟨⟨[n, 0, (0 : Word).toNat, (0 : Word).toNat, (0 : Word).toNat], fun ds => ?_⟩,
      fun va sd0 sd1 room absent => ⟨[n, 1, va.toNat, sd0.toNat, sd1.toNat], fun ds => ?_⟩⟩
    · rw [row]
      simp only [List.cons_append, List.nil_append, havocSegment_of_draws]
      rfl
    · rw [row]
      simp only [List.cons_append, List.nil_append, havocSegment_of_draws]
      rw [if_pos ⟨trivial, room, lookupSegment_eq_none.mpr absent⟩]
  · have row (f : List Nat) : exec (rowWrite g b7 index v) { s with draws := f } =
        .next { havocPage params { s with draws := f } with outcomes := .done :: (havocPage params { s with draws := f }).outcomes } := by
      rcases hg with rfl | rfl | rfl | rfl <;> exact exec_rowWrite_running (s := { s with draws := f }) hs ..
    refine ⟨⟨[n, 0, (0 : Word).toNat, (0 : Word).toNat, (0 : Word).toNat], fun ds => ?_⟩,
      fun va pd rights hr room absent => ?_⟩
    · rw [row]
      simp only [List.cons_append, List.nil_append, havocPage_of_draws]
      rfl
    · obtain ⟨sd0, rfl⟩ := exists_rights hr
      refine ⟨[n, 1, va.toNat, pd.toNat, sd0.toNat], fun ds => ?_⟩
      rw [row]
      simp only [List.cons_append, List.nil_append, havocPage_of_draws]
      rw [if_pos ⟨trivial, room, lookupPage_eq_none.mpr absent⟩]

end Sys2Proof.Machine

/-! ### The invariant

Under a lawful map every primitive update of a request keeps `State.Inv`, so every request does (`Contract.requestBody`), and so does
every step; the launch states meet it (R41, R42, R141, R222). -/

namespace Sys2Proof.Machine

/-! #### The map -/

/-- The map of TC is lawful (D23, R222). -/
theorem physMap_lawful : PhysMapLaws params := by
  unfold PhysMapLaws
  decide

/-- The bytes of an aligned access have consecutive numbers, which do not wrap. -/
theorem toNat_add_of_aligned {w : Width} {pa : Word} {k : Nat} (ha : pa.toNat % w.bytes = 0) (hk : k < w.bytes) :
    (pa + BitVec.ofNat 32 k).toNat = pa.toNat + k := by
  have := pa.isLt
  rw [BitVec.toNat_add, BitVec.toNat_ofNat]
  cases w <;> simp only [Width.bytes] at ha hk <;> omega

/-- An aligned access that begins below a multiple of 4 ends below it, and one that begins at or above it stays there. -/
theorem aligned_lt_iff {w : Width} {a k b : Nat} (ha : a % w.bytes = 0) (hk : k < w.bytes) (hb : b % 4 = 0) : a + k < b ↔ a < b := by
  cases w <;> simp only [Width.bytes] at ha hk <;> omega

/-- Under a lawful map an aligned access lies in the region of its first byte (R222). -/
theorem regionOf_add {P : Params} (h : PhysMapLaws P) {w : Width} {pa : Word} {k : Nat} (ha : pa.toNat % w.bytes = 0)
    (hk : k < w.bytes) : regionOf P (pa + BitVec.ofNat 32 k) = regionOf P pa := by
  obtain ⟨rom, ramLo, ramHi, ioLo, ioHi, -⟩ := h
  have below {b : Nat} (hb : b % 4 = 0) := aligned_lt_iff ha hk hb
  unfold regionOf
  simp only [toNat_add_of_aligned ha hk, ← Nat.not_lt, below rom, below ramLo, below ramHi, below ioLo, below ioHi]

/-- Settles O9: TC's map is lawful, and its boundaries are multiples of 4. -/
theorem alignedAccessStaysInOneRegion : Obligations.AlignedAccessStaysInOneRegion := by
  refine ⟨physMap_lawful, fun w pa k ha hk => ⟨?_, regionOf_add physMap_lawful ha hk⟩⟩
  rw [← toNat_add_of_aligned ha hk]
  exact (pa + BitVec.ofNat 32 k).isLt

/-! #### The memories -/

theorem Memory.within_write {lo hi a : Nat} {m : Memory} (b : Byte) (h : Memory.within lo hi m = true) (hlo : lo ≤ a) (hhi : a < hi) :
    Memory.within lo hi (Memory.write m a b) = true := by
  simp only [Memory.within, List.all_eq_true, Bool.and_eq_true, decide_eq_true_eq] at h ⊢
  induction m with
  | nil => simp [Memory.write, hlo, hhi]
  | cons c m ih =>
    obtain ⟨k, c⟩ := c
    simp only [List.forall_mem_cons] at h
    obtain ⟨first, rest⟩ := h
    simp only [Memory.write]
    split
    · simpa [hlo, hhi, first] using rest
    · split
      · simpa [hlo, hhi] using rest
      · simpa [first] using ih rest

theorem Memory.within_writeWide {lo hi a : Nat} {m : Memory} (w : Width) (v : Word) (h : Memory.within lo hi m = true) (hlo : lo ≤ a)
    (hhi : a + w.bytes ≤ hi) : Memory.within lo hi (Memory.writeWide m a w v) = true := by
  cases w <;> simp only [Memory.writeWide, Width.bytes] at hhi ⊢
  · exact within_write _ h hlo (by omega)
  · exact within_write _ (within_write _ h hlo (by omega)) (by omega) (by omega)
  · exact within_write _ (within_write _ (within_write _ (within_write _ h hlo (by omega)) (by omega) (by omega)) (by omega) (by omega))
      (by omega) (by omega)

/-! #### The primitive updates -/

section
variable {P : Params} {s : State}

theorem State.Inv.iff_of_same {t : State} (hram : t.ram = s.ram) (hrom : t.rom = s.rom) (hconf : t.conf = s.conf) (hsdc : t.sdc = s.sdc)
    (hpdc : t.pdc = s.pdc) : t.Inv P ↔ s.Inv P := by
  unfold State.Inv
  rw [hram, hrom, hconf, hsdc, hpdc]

theorem State.Inv.sdcOk (h : s.Inv P) : CacheOk SegEntry.key Config.sdcCap s.sdc := by
  obtain ⟨-, -, -, -, -, len, nodup, -⟩ := h
  exact ⟨len, nodup⟩

theorem State.Inv.pdcOk (h : s.Inv P) : CacheOk PageEntry.key Config.pdcCap s.pdc := by
  obtain ⟨-, -, -, -, -, -, -, len, nodup⟩ := h
  exact ⟨len, nodup⟩

/-- New caches within capacity and with one entry per key, and everything else of the invariant as before. -/
theorem State.Inv.caches {t : State} (h : s.Inv P) (hram : t.ram = s.ram) (hrom : t.rom = s.rom) (hconf : t.conf = s.conf)
    (hsdc : CacheOk SegEntry.key Config.sdcCap t.sdc) (hpdc : CacheOk PageEntry.key Config.pdcCap t.pdc) : t.Inv P := by
  obtain ⟨ramWf, ramIn, romWf, romIn, conf, -⟩ := h
  refine ⟨?_, ?_, ?_, ?_, ?_, hsdc.1, hsdc.2, hpdc.1, hpdc.2⟩ <;> simp only [hram, hrom, hconf] <;> assumption

theorem State.Inv.setConf (h : s.Inv P) {w : Word} (hw : w.toNat < 8) : (s.setConf w).Inv P := by
  obtain ⟨ramWf, ramIn, romWf, romIn, -, caches⟩ := h
  exact ⟨ramWf, ramIn, romWf, romIn, hw, caches⟩

theorem State.Inv.setRam (h : s.Inv P) {m : Memory} (hm : Memory.wf m = true)
    (hw : Memory.within P.ramBase (P.ramBase + P.ramSize) m = true) : (s.setRam m).Inv P := by
  obtain ⟨-, -, rest⟩ := h
  exact ⟨hm, hw, rest⟩

theorem toNat_and_seven_lt (v : Word) : (v &&& 7#32).toNat < 8 := by
  rw [BitVec.toNat_and]
  exact Nat.lt_of_le_of_lt Nat.and_le_right (by decide)

theorem State.Inv.ramWrite (hP : PhysMapLaws P) (h : s.Inv P) {pa : Word} {w : Width} (v : Word) (hr : regionOf P pa = .ram)
    (ha : w.aligned pa = true) : (s.setRam (Memory.writeWide s.ram pa.toNat w v)).Inv P := by
  have ⟨ramWf, ramIn, _⟩ := h
  obtain ⟨-, -, hi, -⟩ := hP
  have inside : P.ramBase ≤ pa.toNat ∧ pa.toNat < P.ramBase + P.ramSize := by
    unfold regionOf at hr
    split at hr
    · cases hr
    · split at hr
      · assumption
      · split at hr <;> cases hr
  refine h.setRam (Memory.wf_writeWide _ _ _ ramWf) (Memory.within_writeWide w v ramIn inside.1 ?_)
  cases w <;> simp only [Width.aligned, Width.bytes, beq_iff_eq] at ha ⊢ <;> omega

theorem State.Inv.flushSection (h : s.Inv P) (q : Fin 4) : (flushSection q s).Inv P :=
  h.caches rfl rfl rfl (h.sdcOk.sublist List.filter_sublist) (h.pdcOk.sublist List.filter_sublist)

theorem State.Inv.writeRegister (h : s.Inv P) (g : RegGroup) (i : BitVec 5) (v : Word) : (writeRegister P g i v s).Inv P := by
  cases g with
  | sdcl | sdch =>
    exact h.caches (by simp [Machine.writeRegister, havocSegment]) (by simp [Machine.writeRegister, havocSegment])
      (by simp [Machine.writeRegister, havocSegment]) (h.sdcOk.havocOne (havocSegment_sdc P s))
      (by simpa [Machine.writeRegister, havocSegment] using h.pdcOk)
  | pdcrl | pdcrh | pdcll | pdclh =>
    exact h.caches (by simp [Machine.writeRegister, havocPage]) (by simp [Machine.writeRegister, havocPage])
      (by simp [Machine.writeRegister, havocPage]) (by simpa [Machine.writeRegister, havocPage] using h.sdcOk)
      (h.pdcOk.havocOne (havocPage_pdc P s))
  | srama => exact State.Inv.flushSection (s := s.setSrama _) h _
  | sramb =>
    simp only [Machine.writeRegister, writeSramb]
    split
    · exact State.Inv.flushSection (s := s.setSramb _) h _
    · exact h
  | conf => exact h.setConf (toNat_and_seven_lt v)
  | var => exact h.caches rfl rfl rfl (h.sdcOk.sublist List.filter_sublist) (h.pdcOk.sublist List.filter_sublist)
  | fc | fa | undef12 | undef13 | undef14 | undef15 => exact h

theorem State.Inv.reflectSegment (h : s.Inv P) (va w : Word) : (reflectSegment P va w s).Inv P := by
  unfold Machine.reflectSegment
  split
  · refine h.caches rfl rfl rfl ?_ h.pdcOk
    have keys : (s.sdc.map fun e => if e.key = sdcKey P va then { e with sd0 := w } else e).map SegEntry.key = s.sdc.map SegEntry.key := by
      rw [List.map_map]
      exact List.map_congr_left fun e _ => by dsimp; split <;> rfl
    exact ⟨by simpa using h.sdcOk.1, by rw [State.setSdc_sdc, keys]; exact h.sdcOk.2⟩
  · exact h

theorem State.Inv.reflectPage (h : s.Inv P) (va w : Word) : (reflectPage P va w s).Inv P := by
  unfold Machine.reflectPage
  split
  · refine h.caches rfl rfl rfl h.sdcOk ?_
    have keys : (s.pdc.map fun e => if e.key = pdcKey P va then { e with pd := w } else e).map PageEntry.key = s.pdc.map PageEntry.key := by
      rw [List.map_map]
      exact List.map_congr_left fun e _ => by dsimp; split <;> rfl
    exact ⟨by simpa using h.pdcOk.1, by rw [State.setPdc_pdc, keys]; exact h.pdcOk.2⟩
  · exact h

end

/-- Under a lawful map every primitive update keeps the invariant, where a part goes on and where it ends the request. -/
theorem contract_inv {P : Params} (hP : PhysMapLaws P) (x : Access) :
    Contract P x (fun s t => s.Inv P → t.Inv P) (fun s _ t => s.Inv P → t.Inv P) where
  refl _ h := h
  trans h k := k ∘ h
  after h k := k ∘ h
  fault _ _ _ h := h
  fail _ _ _ h := h
  abort _ h := h
  stop _ h := h
  subword _ h := h
  var _ _ h := h
  draw _ h := (State.Inv.iff_of_same (by simp) (by simp) (by simp) (by simp) (by simp)).mpr h
  ioWrite _ _ h := h
  ramWrite _ _ _ v hr ha h := h.ramWrite hP v hr ha
  register g i v _ h := h.writeRegister g i v
  insertSegment a b s _ h := by
    refine h.caches ?_ ?_ ?_ (h.sdcOk.insertSegment ..) ?_ <;> rw [insertSegment_eq]
    exact h.pdcOk
  insertPage pd r s _ h := by
    refine h.caches ?_ ?_ ?_ ?_ (h.pdcOk.insertPage ..) <;> rw [insertPage_eq]
    exact h.sdcOk
  reflectSegment w _ h := h.reflectSegment x.va w
  reflectPage w _ h := h.reflectPage x.va w

theorem State.Inv.resetBlock {P : Params} {s : State} (h : s.Inv P) : (resetBlock s).Inv P := by
  obtain ⟨ramWf, ramIn, romWf, romIn, -⟩ := h
  exact ⟨ramWf, ramIn, romWf, romIn, (by decide : (0 : Word).toNat < 8), Nat.zero_le _, List.nodup_nil, Nat.zero_le _, List.nodup_nil⟩

/-- A request makes at most one translation. -/
theorem exists_translation (i : Instr) : ∃ x, ∀ y, translationOf i = some y → y = x := by
  cases translationOf i with
  | none => exact ⟨⟨0, .read, 0, false⟩, by simp⟩
  | some x => exact ⟨x, by simp⟩

/-- The body of every request keeps the invariant. -/
theorem State.Inv.requestBody {P : Params} (hP : PhysMapLaws P) {s : State} (h : s.Inv P) (i : Instr) :
    (requestBody P i s).state.Inv P := by
  by_cases hi : (∀ v, i ≠ .setEnable v) ∧ i ≠ .clearAlign ∧ i ≠ .reset ∧ ∀ r a v, i ≠ .reservedE r a v ∧ i ≠ .reservedF r a v
  · obtain ⟨h1, h2, h3, h4⟩ := hi
    obtain ⟨x, hx⟩ := exists_translation i
    have meets := (contract_inv hP x).requestBody i hx h1 h2 h3 h4 s
    cases hb : Machine.requestBody P i s <;> rw [hb] at meets <;> exact meets h
  · cases i with
    | reset => exact h.resetBlock
    | setEnable | clearAlign | reservedE | reservedF => exact h
    | _ => simp at hi

/-- A request keeps the invariant: its body does, and recording an outcome is no part of it. -/
theorem State.Inv.execWith {C : Setup} {s t : State} (hP : PhysMapLaws (C.under s.conf)) (h : s.Inv (C.under s.conf)) {i : Instr}
    (ht : execWith C i s = .next t) : t.Inv (C.under s.conf) := by
  by_cases hi : i = .reset
  · subst hi
    cases ht
    exact h.resetBlock
  · rw [execWith_eq_perform C hi] at ht
    cases hs : s.halted with
    | true =>
      rw [perform_halted hs] at ht
      cases ht
      exact h
    | false =>
      rw [perform_running hs, Res.close_eq] at ht
      cases ht
      exact h.requestBody hP i

/-- A step keeps the invariant: taking the request and refusing a malformed one are no part of it. -/
theorem State.Inv.stepWith {C : Setup} {s t : State} (hP : PhysMapLaws (C.under s.conf)) (h : s.Inv (C.under s.conf))
    (ht : stepWith C s = .next t) : t.Inv (C.under s.conf) := by
  unfold Machine.stepWith nextRequest at ht
  cases hr : s.requests with
  | nil => rw [hr] at ht; cases ht
  | cons r rest =>
    rw [hr] at ht
    dsimp only at ht
    split at ht
    · exact State.Inv.execWith (s := s.setRequests rest) hP h ht
    · cases ht
      exact h

/-- Settles O19: the first part is the second at the default instantiation, whose map is lawful. -/
theorem stepKeepsTheInvariant : Obligations.StepKeepsTheInvariant :=
  ⟨fun s _ h ht => State.Inv.stepWith (C := setup) physMap_lawful h (step_eq_stepWith s ▸ ht), fun _ _ _ hP h ht => h.stepWith hP ht⟩

/-! #### Reset and launch -/

/-- Settles O20: nothing is listed after reset, and CONF is 0. -/
theorem resetMeetsTheInvariant : Obligations.ResetMeetsTheInvariant := by
  unfold Obligations.ResetMeetsTheInvariant
  decide

/-- Settles O21: a launch state is the reset state but for the memories, the requests and the free inputs. -/
theorem launchStatesHaveTheResetValues : Obligations.LaunchStatesHaveTheResetValues := by
  refine ⟨fun s h => ?_, ⟨resetMeetsTheInvariant, rfl⟩, fun ram rom ramWf ramIn romWf romIn => ?_⟩
  · obtain ⟨-, h⟩ := h
    rw [h]
    refine ⟨rfl, rfl, rfl, rfl, rfl, fun q => ?_, rfl, rfl, rfl, rfl, rfl, rfl, rfl⟩
    match q with
    | 0 | 1 | 2 | 3 => exact ⟨rfl, rfl⟩
  · refine ⟨{ State.reset with ram := ram, rom := rom }, ⟨?_, rfl⟩, rfl, rfl⟩
    exact ⟨ramWf, ramIn, romWf, romIn, (by decide : (0 : Word).toNat < 8), Nat.zero_le _, List.nodup_nil, Nat.zero_le _, List.nodup_nil⟩

end Sys2Proof.Machine

/-! ### Steps, control requests and the end of a run

What one step does, as one inversion lemma (`step_cases`) over `exec_performed`; the exact next states of the control requests; and what
every run carries along (R14, R44, R309, R310, R340, R361). -/

namespace Sys2Proof.Machine

/-! #### One step -/

/-- A refusal sets the mark (R310). -/
theorem State.respond_of_refusal (s : State) {r : Response} (h : r.isRefusal = true) :
    s.respond r = { s with outcomes := r :: s.outcomes, refusedMark := true } := by
  simp [State.respond, h]

/-- Settles O10: `step_of_decode`, the taken record written out. -/
theorem stepPerformsTheDecodedRequest : Obligations.StepPerformsTheDecodedRequest :=
  fun _ _ _ _ hr hd => step_of_decode hr hd

/-- A step on a record that is no request refuses it (R116). -/
theorem step_of_rejected {s : State} {r : Request} {rest : List Request} {e : DecodeReject} (hr : s.requests = r :: rest)
    (hd : decode params r = .rejected e) : step s = .next (refuseMalformed (s.setRequests rest)) := by
  unfold step nextRequest
  rw [hr]
  simp only [hd]

/-- Settles O11: the reason is the only thing that depends on `halted`. -/
theorem stepRefusesMalformedRecords : Obligations.StepRefusesMalformedRecords := by
  intro s r rest e hr hd
  refine ⟨fun hs => ?_, fun hs => ?_⟩ <;> rw [step_of_rejected hr hd, refuseMalformed, State.respond_of_refusal _ rfl]
  · rw [if_neg (by simp [hs])]
    rfl
  · rw [if_pos (by simp [hs])]
    rfl

theorem step_of_nil {s : State} (h : s.requests = []) : step s = .fault .noRequest := by
  unfold step nextRequest
  rw [h]

/-- Settles O12. -/
theorem stepWithoutRequestStops : Obligations.StepWithoutRequestStops := fun _ h => step_of_nil h

/-- A step takes the first record, and performs its request or refuses it. -/
theorem step_cases {s t : State} (h : step s = .next t) :
    ∃ r rest, s.requests = r :: rest ∧
      ((∃ i, decode params r = .ok i ∧ exec i (s.setRequests rest) = .next t) ∨
        (∃ e, decode params r = .rejected e) ∧ t = refuseMalformed (s.setRequests rest)) := by
  cases hr : s.requests with
  | nil => rw [step_of_nil hr] at h; cases h
  | cons r rest =>
    refine ⟨r, rest, rfl, ?_⟩
    cases hd : decode params r with
    | ok i => exact .inl ⟨i, rfl, (step_of_decode hr hd).symm.trans h⟩
    | rejected e =>
      rw [step_of_rejected hr hd] at h
      cases h
      exact .inr ⟨⟨e, rfl⟩, rfl⟩

/-- What a step with the outcome `r` leaves of what a run carries. -/
structure Stepped (s : State) (r : Response) (t : State) : Prop where
  answers : Answers s t r
  rom : t.rom = s.rom
  refusedMark : t.refusedMark = (s.refusedMark || r.isRefusal)
  halted : t.halted = true → s.halted = true ∨ r = .stop .indirectSd

theorem step_stepped {s t : State} (h : step s = .next t) : ∃ r, Stepped s r t := by
  obtain ⟨q, rest, -, ⟨i, -, hi⟩ | ⟨-, rfl⟩⟩ := step_cases h
  · obtain ⟨r, hr⟩ := exec_performed hi
    refine ⟨r, hr.answers, hr.rom, hr.refusedMark, fun ht => ?_⟩
    rcases hr.halted with hh | ⟨-, hh, -⟩
    · simpa [ht] using hh
    · simp [ht] at hh
  · exact ⟨_, by simp [refuseMalformed, Answers], rfl, rfl, .inl⟩

/-- Settles O17: no outcome comes with another ROM. -/
theorem stepNeverChangesRom : Obligations.StepNeverChangesRom := by
  intro s t h
  obtain ⟨r, hr⟩ := step_stepped h
  exact hr.rom

theorem Response.isRefusal_iff {r : Response} : r.isRefusal = true ↔ ∃ why, r = .refused why := by
  cases r <;> simp [Response.isRefusal]

/-- Settles O18: the mark is the old one or the outcome's. -/
theorem refusalMarkIsKept : Obligations.RefusalMarkIsKept := by
  intro s t h
  obtain ⟨r, hr⟩ := step_stepped h
  simp only [hr.refusedMark, Bool.or_eq_true, Response.isRefusal_iff, hr.answers.iff_eq]

theorem exec_next (i : Instr) (s : State) : ∃ t, exec i s = .next t := by
  rcases exec_cases i s with h | ⟨-, -, h⟩ <;> exact ⟨_, h⟩

/-- Settles O13: every request has a next state, and `exec_performed` says what that records. -/
theorem everyRequestHasOneOutcome : Obligations.EveryRequestHasOneOutcome := by
  intro i s
  obtain ⟨t, ht⟩ := exec_next i s
  obtain ⟨r, hr⟩ := exec_performed ht
  exact ⟨t, r, ht, hr.answers, hr.requests⟩

theorem Performed.halted_iff_stop {i : Instr} {s t : State} {r : Response} (h : Performed i s r t) (hs : s.halted = false) :
    t.halted = true ↔ Answers s t (.stop .indirectSd) := by
  rw [h.answers.iff_eq]
  rcases h.halted with hh | ⟨-, hh, hr⟩
  · simp [hh, hs]
  · simp [hh, hr]

/-- Settles O14: the flag is read off `exec_performed`, the refusal of a halted block is `exec_halted`. -/
theorem haltedBlockAcceptsOnlyReset : Obligations.HaltedBlockAcceptsOnlyReset := by
  refine ⟨rfl, fun i s t hs h => ?_, fun i s hs hi => ?_, fun s => ⟨_, exec_reset s, rfl, rfl⟩⟩
  · obtain ⟨r, hr⟩ := exec_performed h
    exact hr.halted_iff_stop hs
  · rw [exec_halted hi hs, State.respond_of_refusal _ rfl]

/-! #### Control requests -/

/-- Settles O22: the assignments of R340, and the outcome. -/
theorem resetClearsTheBlock : Obligations.ResetClearsTheBlock := by
  intro s
  rw [exec_reset, State.respond_of_not_refusal _ rfl]
  rfl

/-- Settles O23: both bodies are the refusal. -/
theorem reservedOperationsAreRefused : Obligations.ReservedOperationsAreRefused := by
  intro rest a v s hs
  refine ⟨?_, ?_⟩ <;> rw [exec_running _ hs, ← State.respond_of_refusal _ rfl] <;> rfl

/-! #### The end of a run -/

/-- What every step keeps, every run keeps. -/
theorem run_induction {M : Host.Core} {p : M.State → Prop} (hp : ∀ s t, M.step s = .next t → p s → p t) {k : Nat} {s t : M.State}
    (h : M.run k s = .next t) (hs : p s) : p t := by
  induction k generalizing s with
  | zero => cases h; exact hs
  | succ k ih =>
    unfold Host.Core.run at h
    split at h
    · rename_i u hu
      exact ih h (hp s u hu hs)
    · cases h
    · cases h

/-- The outcomes of a run account for its refusal mark and for a halted block. -/
def OutcomesTell (s : State) : Prop :=
  (s.refusedMark = true ↔ ∃ r ∈ s.outcomes, r.isRefusal = true) ∧ (s.halted = true → ∃ r ∈ s.outcomes, r.isStop = true)

theorem Stepped.outcomesTell {s t : State} {r : Response} (h : Stepped s r t) (hs : OutcomesTell s) : OutcomesTell t := by
  obtain ⟨mark, halt⟩ := hs
  have outcomes : t.outcomes = r :: s.outcomes := h.answers
  refine ⟨?_, fun ht => ?_⟩
  · simp only [h.refusedMark, outcomes, Bool.or_eq_true, mark, List.exists_mem_cons_iff]
    exact Or.comm
  · rw [outcomes, List.exists_mem_cons_iff]
    rcases h.halted ht with hh | rfl
    · exact .inr (halt hh)
    · exact .inl rfl

theorem Response.isStop_iff {r : Response} : r.isStop = true ↔ r = .stop .indirectSd := by
  cases r with
  | stop why => cases why; simp [Response.isStop]
  | _ => simp [Response.isStop]

/-- A run that the outcomes account for has ended normally exactly when they are no Stop and no refusal (R309, R361). -/
theorem OutcomesTell.endsNormally_iff {s : State} (h : OutcomesTell s) :
    s.EndsNormally ↔ s.requests = [] ∧ ∀ r ∈ s.outcomes, r ≠ .stop .indirectSd ∧ ∀ why, r ≠ .refused why := by
  obtain ⟨mark, halt⟩ := h
  refine ⟨fun ⟨requests, unmarked, noStop, _⟩ => ⟨requests, fun r hr => ⟨?_, ?_⟩⟩, fun ⟨requests, ok⟩ => ⟨requests, ?_, ?_, ?_⟩⟩
  · rintro rfl
    exact absurd (noStop _ hr) (by simp [Response.isStop])
  · rintro why rfl
    exact absurd (mark.mpr ⟨_, hr, rfl⟩) (by simp [unmarked])
  · refine Bool.eq_false_iff.mpr fun marked => ?_
    obtain ⟨r, hr, refused⟩ := mark.mp marked
    obtain ⟨why, rfl⟩ := Response.isRefusal_iff.mp refused
    exact (ok _ hr).2 why rfl
  · exact fun r hr => Bool.eq_false_iff.mpr fun stop => (ok r hr).1 (Response.isStop_iff.mp stop)
  · refine Bool.eq_false_iff.mpr fun halted => ?_
    obtain ⟨r, hr, stop⟩ := halt halted
    exact (ok r hr).1 (Response.isStop_iff.mp stop)

/-- A Stop among the outcomes, or the refusal mark: what keeps a run from ending normally. -/
def EndSpoiled (s : State) : Prop := .stop .indirectSd ∈ s.outcomes ∨ s.refusedMark = true

theorem Stepped.endSpoiled {s t : State} {r : Response} (h : Stepped s r t) (hs : EndSpoiled s) : EndSpoiled t := by
  have outcomes : t.outcomes = r :: s.outcomes := h.answers
  rcases hs with stop | marked
  · exact .inl (by rw [outcomes]; exact List.mem_cons_of_mem _ stop)
  · exact .inr (by rw [h.refusedMark, marked, Bool.true_or])

theorem EndSpoiled.not_endsNormally {s : State} (h : EndSpoiled s) : ¬ s.EndsNormally := by
  rintro ⟨-, unmarked, noStop, -⟩
  rcases h with stop | marked
  · exact absurd (noStop _ stop) (by simp [Response.isStop])
  · simp [unmarked] at marked

/-- Settles O59: every run from a launch state is accounted for by its outcomes, and every run after a Stop or a refusal is spoiled. -/
theorem stopIsNeverFinal : Obligations.StopIsNeverFinal := by
  refine ⟨fun s k t hs h => ?_, fun s t r h ha hr k u hu => ?_⟩
  · refine OutcomesTell.endsNormally_iff (run_induction (M := core) (fun u v huv hu => ?_) h ?_)
    · obtain ⟨r, hr⟩ := step_stepped huv
      exact hr.outcomesTell hu
    · rw [hs.2]
      exact ⟨by simp [State.reset], by simp [State.reset]⟩
  · obtain ⟨q, hq⟩ := step_stepped h
    obtain rfl : q = r := (hq.answers.iff_eq r).mp ha
    have spoiled : EndSpoiled t := by
      have outcomes : t.outcomes = q :: s.outcomes := ha
      rcases hr with rfl | ⟨why, rfl⟩
      · exact .inl (by rw [outcomes]; exact List.mem_cons_self)
      · exact .inr (by rw [hq.refusedMark]; exact Bool.or_true _)
    refine (run_induction (M := core) (fun u v huv hu => ?_) hu spoiled).not_endsNormally
    obtain ⟨p, hp⟩ := step_stepped huv
    exact hp.endSpoiled hu

end Sys2Proof.Machine

/-! ### Registers and the router

Reads that answer a draw (R115, R228, R252), the MMU window through the router (R228, R250), a register row as the physical access of its
word under every lawful map, and the two steps of a SETSECT line (R117). -/

namespace Sys2Proof.Machine

/-! #### Draws -/

theorem State.drawWord_of_draws {s : State} {x : Word} {ds : List Nat} (h : s.draws = x.toNat :: ds) :
    s.drawWord = (x, { s with draws := ds }) := by
  rw [State.drawWord, State.draw_cons s _ ds h, BitVec.ofNat_toNat, BitVec.setWidth_eq]

theorem State.drawWord_drawsOnly (s : State) : DrawsOnly s s.drawWord.2 := State.draw_eq s

/-- A register row that answers a draw: some word, and every word for some draw. -/
theorem exec_rowRead_drawn {g : RegGroup} {index : BitVec 5} (hg : ∀ s, readRegister g index s = s.drawWord) (b7 : BitVec 1)
    {s : State} (hs : s.halted = false) :
    (∃ (x : Word) (ds : List Nat) (n : Nat),
      exec (rowRead g b7 index) s = .next { s with draws := ds, drawCount := n, outcomes := .value x :: s.outcomes }) ∧
    ∀ (x : Word) (ds : List Nat), s.draws = x.toNat :: ds →
      exec (rowRead g b7 index) s = .next { s with draws := ds, outcomes := .value x :: s.outcomes } := by
  refine ⟨⟨s.drawWord.1, s.drawWord.2.draws, s.drawWord.2.drawCount, ?_⟩, fun x ds hx => ?_⟩
  · rw [exec_rowRead_running hs, hg]
    conv_lhs => rw [s.drawWord_drawsOnly]
  · rw [exec_rowRead_running hs, hg, State.drawWord_of_draws hx]

/-- Settles O28: the six groups read by `readRawWindow`, a draw. -/
theorem rawWindowReadIsAnyWord : Obligations.RawWindowReadIsAnyWord := by
  intro g b7 index s hg hs
  refine exec_rowRead_drawn (fun u => ?_) b7 hs
  cases g with
  | sdcl | sdch | pdcrl | pdcrh | pdcll | pdclh => rfl
  | _ => cases hg

/-- The low three bits, as a number. -/
theorem toNat_and_seven (v : Word) : (v &&& 7#32).toNat = v.toNat % 8 := by
  rw [BitVec.toNat_and]
  exact Nat.and_two_pow_sub_one_eq_mod _ 3

/-- Settles O27: the reader and the writer of CONF mask with 7. -/
theorem confKeepsThreeBits : Obligations.ConfKeepsThreeBits := by
  intro b7 index v s hs
  exact ⟨⟨_, exec_rowRead_running hs .conf b7 index, toNat_and_seven s.conf⟩,
    ⟨_, exec_rowWrite_running hs .conf b7 index v, toNat_and_seven v⟩⟩

/-! #### The MMU window -/

section
variable {P : Params} {pa : Word} {w : Width}

/-- Under a lawful map the MMU window lies in the I/O region (D23). -/
theorem regionOf_of_inMmuWindow (h : PhysMapLaws P) (hw : inMmuWindow P pa = true) : regionOf P pa = .io := by
  obtain ⟨-, -, -, -, -, ⟨-, rom⟩, ram, lo, hi⟩ := h
  simp only [inMmuWindow, Bool.and_eq_true, decide_eq_true_eq] at hw
  rw [regionOf, if_neg (by omega), if_neg (by omega), if_pos (by omega)]

theorem physRead_window (ha : w.aligned pa = true) (hr : regionOf P pa = .io) (hw : inMmuWindow P pa = true) (s : State) :
    physRead P pa w s = regRead P (pa - P.mmuBase) w s := by
  simp [physRead, ha, hr, hw]

theorem physWrite_window (ha : w.aligned pa = true) (hr : regionOf P pa = .io) (hw : inMmuWindow P pa = true) (v : Word) (s : State) :
    physWrite P pa w v s = regWrite P (pa - P.mmuBase) w v s := by
  simp [physWrite, ha, hr, hw]

theorem physRead_device (ha : w.aligned pa = true) (hr : regionOf P pa = .io) (hw : inMmuWindow P pa = false) (s : State) :
    physRead P pa w s = ioRead w s := by
  simp [physRead, ha, hr, hw]

theorem physWrite_device (ha : w.aligned pa = true) (hr : regionOf P pa = .io) (hw : inMmuWindow P pa = false) (v : Word) (s : State) :
    physWrite P pa w v s = ioWrite pa w v s := by
  simp [physWrite, ha, hr, hw]

end

theorem exec_requestPread_of_ended {w : Width} {pa : Word} {s t : State} {r : Response} (hs : s.halted = false)
    (h : physRead params pa w s = .ended r t) : exec (requestPread w pa) s = .next (t.respond r) := by
  rw [exec_running _ hs, requestBody_requestPread, h]
  rfl

theorem exec_requestPwrite_of_ended {w : Width} {pa v : Word} {s t : State} {r : Response} (hs : s.halted = false)
    (h : physWrite params pa w v s = .ended r t) : exec (requestPwrite w pa v) s = .next (t.respond r) := by
  rw [exec_running _ hs, requestBody_requestPwrite, h]
  rfl

/-- Settles O34: groups 12 to 15 read a draw and write nothing, the register interface refuses all but words (R250), and the alignment
test comes before it (R221). -/
theorem undefinedGroupsAndSubwordAccesses : Obligations.UndefinedGroupsAndSubwordAccesses := by
  refine ⟨fun g b7 index v s hg hs => ?_, fun w pa v s hs hw hn hp => ?_, fun w pa v s hs _ hp => misalignedAccessAborts.2 w pa v s hs hp⟩
  · have drawn : ∀ u, readRegister g index u = u.drawWord := by
      intro u
      cases g with
      | undef12 | undef13 | undef14 | undef15 => rfl
      | _ => cases hg
    have write : writeRegister params g index v s = s := by
      cases g with
      | undef12 | undef13 | undef14 | undef15 => rfl
      | _ => cases hg
    obtain ⟨some, every⟩ := exec_rowRead_drawn drawn b7 hs
    exact ⟨some, every, by rw [exec_rowWrite_running hs, write]⟩
  · have ha := Width.aligned_eq_true hp
    have hr := regionOf_of_inMmuWindow physMap_lawful hw
    have read : physRead params pa w s = .ended (.refused .mmuSubword) s := by
      rw [physRead_window ha hr hw]
      cases w with
      | byte | half => rfl
      | word => exact absurd rfl hn
    have write : physWrite params pa w v s = .ended (.refused .mmuSubword) s := by
      rw [physWrite_window ha hr hw]
      cases w with
      | byte | half => rfl
      | word => exact absurd rfl hn
    rw [exec_requestPread_of_ended hs read, exec_requestPwrite_of_ended hs write, State.respond_of_refusal _ rfl]
    exact ⟨rfl, rfl⟩

/-! #### The rest of the I/O region -/

theorem Width.toNat_truncate (w : Width) (v : Word) : (w.truncate v).toNat = v.toNat % 2 ^ (8 * w.bytes) := by
  cases w with
  | byte => rw [Width.truncate, BitVec.toNat_and]; exact Nat.and_two_pow_sub_one_eq_mod _ 8
  | half => rw [Width.truncate, BitVec.toNat_and]; exact Nat.and_two_pow_sub_one_eq_mod _ 16
  | word => exact (Nat.mod_eq_of_lt v.isLt).symm

theorem Width.truncate_eq_self {w : Width} {v : Word} (h : v.toNat < 2 ^ (8 * w.bytes)) : w.truncate v = v :=
  BitVec.eq_of_toNat_eq (by rw [Width.toNat_truncate, Nat.mod_eq_of_lt h])

/-- Settles O39: in the window the router hands over to the register interface; outside it a read truncates a draw, and a write
is logged. -/
theorem ioRegionAccesses : Obligations.IoRegionAccesses := by
  refine ⟨fun P w pa v s hp hr hw => ?_, fun w pa v s hs hp hr hw => ?_⟩ <;> have ha := Width.aligned_eq_true hp
  · exact ⟨physRead_window ha hr hw s, physWrite_window ha hr hw v s⟩
  · have read := physRead_device ha hr hw s
    refine ⟨⟨w.truncate s.drawWord.1, s.drawWord.2.draws, s.drawWord.2.drawCount, ?_, ?_⟩, fun x ds hx hd => ?_,
      w.truncate v, w.toNat_truncate v, exec_requestPwrite_of_go hs (physWrite_device ha hr hw v s)⟩
    · rw [exec_requestPread_of_go hs read]
      conv_lhs => rw [s.drawWord_drawsOnly]
    · rw [Width.toNat_truncate]
      exact Nat.mod_lt _ (Nat.two_pow_pos _)
    · rw [ioRead, State.drawWord_of_draws hd, Width.truncate_eq_self hx] at read
      exact exec_requestPread_of_go hs read

/-! #### Register rows through the router -/

/-- What a request answers depends on its body in the state it is performed in. -/
theorem perform_congr {s : State} {body body' : State → Res Response} (h : body s = body' s) : perform s body = perform s body' := by
  rw [perform, h, perform]

section
variable {P : Params} {pa : Word}

theorem physRead_registerWord (h : PhysMapLaws P) (hw : isRegisterWord P pa = true) (s : State) :
    physRead P pa .word s = regRead P (pa - P.mmuBase) .word s := by
  simp only [isRegisterWord, Bool.and_eq_true] at hw
  exact physRead_window (w := .word) hw.2 (regionOf_of_inMmuWindow h hw.1) hw.1 s

theorem physWrite_registerWord (h : PhysMapLaws P) (hw : isRegisterWord P pa = true) (v : Word) (s : State) :
    physWrite P pa .word v s = regWrite P (pa - P.mmuBase) .word v s := by
  simp only [isRegisterWord, Bool.and_eq_true] at hw
  exact physWrite_window (w := .word) hw.2 (regionOf_of_inMmuWindow h hw.1) hw.1 v s

end

/-- Under a lawful map a register row is the physical access of its word (R117, R228). -/
theorem execWith_registerRow {C : Setup} {pa : Word} {s : State} (h : PhysMapLaws (C.under s.conf))
    (hw : isRegisterWord (C.under s.conf) pa = true) (v : Word) :
    execWith C (registerReadRow (C.under s.conf) pa) s = execWith C (.pread32 pa) s ∧
      execWith C (registerWriteRow (C.under s.conf) pa v) s = execWith C (.pwrite32 pa v) s := by
  constructor
  · have row (g : RegGroup) (b7 : BitVec 1) (index : BitVec 5) :
        execWith C (rowRead g b7 index) s = perform s fun s => answerRead (readRegister g index s) := by
      cases g <;> rfl
    rw [registerReadRow_eq_rowRead, row]
    refine perform_congr (body' := fun s => answerValue (physRead (C.under s.conf) pa .word s)) ?_
    rw [physRead_registerWord h hw]
    rfl
  · have row (g : RegGroup) (b7 : BitVec 1) (index : BitVec 5) :
        execWith C (rowWrite g b7 index v) s = perform s fun s => answerWrite (writeRegister (C.under s.conf) g index v s) := by
      cases g <;> rfl
    rw [registerWriteRow_eq_rowWrite, row]
    refine perform_congr (body' := fun s => answerDone (physWrite (C.under s.conf) pa .word v s)) ?_
    rw [physWrite_registerWord h hw]
    rfl

/-! #### Lines -/

/-- The groups in the order of their numbers (R112). -/
theorem numberOfGroup_of_getElem? {n : Nat} {g : RegGroup}
    (h : [RegGroup.sdcl, .sdch, .pdcrl, .pdcrh, .pdcll, .pdclh, .srama, .sramb, .fc, .fa, .conf, .var,
      .undef12, .undef13, .undef14, .undef15][n]? = some g) : (L0.numberOfGroup g).toNat = n := by
  have hn : n < 16 := (List.getElem?_eq_some_iff.mp h).1
  interval_cases n <;> cases h <;> rfl

/-- The address of a register of L0 (R111, R117). -/
theorem toNat_registerAddress (g : RegGroup) (i : BitVec 5) :
    (registerAddress params g 0 i).toNat = 0x00040000 + (L0.numberOfGroup g).toNat * 2 ^ 8 + i.toNat * 2 ^ 2 := by
  have offset : (params.regOffset g 0 i).toNat = _ := L0.regOffset_toNat g 0 i
  have base : params.mmuBase.toNat = 0x00040000 := rfl
  have free : (0 : BitVec 1).toNat = 0 := rfl
  rw [registerAddress_toNat registerLayout_lawful, offset, base, free]
  omega

/-- The step that performs an MMUW line first in the queue. -/
theorem step_registerWriteRequest {g : RegGroup} {i : BitVec 5} {v : Word} {s : State} {rest : List Request}
    (hr : s.requests = registerWriteRequest params g 0 i v :: rest) (hs : s.halted = false) :
    step s = .next { writeRegister params g i v (s.setRequests rest) with
      outcomes := .done :: (writeRegister params g i v (s.setRequests rest)).outcomes } := by
  rw [step_of_decode hr (decode_registerWriteRequest registerLayout_lawful g 0 i v)]
  exact exec_rowWrite_running (s := s.setRequests rest) hs ..

theorem sectionOfIndex_ofNat (q : Fin 4) : sectionOfIndex (BitVec.ofNat 5 q.val) = q :=
  sectionOfIndex_eq (by rw [BitVec.toNat_ofNat]; omega)

/-- Settles O24: the rows by `execWith_registerRow`, the lines by `decode_registerReadRequest` and `decode_registerWriteRequest`, and
SETSECT by the two register writes it issues. -/
theorem registerRowsArePhysicalAccesses : Obligations.RegisterRowsArePhysicalAccesses := by
  refine ⟨fun pa v s hw => ?_, fun n g i v hg => ?_, fun va => rfl, fun q base len s wf hs hr => ?_⟩
  · simp only [exec_eq_execWith]
    exact execWith_registerRow (C := setup) physMap_lawful hw v
  · have read : commandWord false 0 2 9 = 0x0029#16 := by decide
    have write : commandWord false 0 2 10 = 0x002A#16 := by decide
    refine ⟨registerAddress params g 0 i, by rw [toNat_registerAddress, numberOfGroup_of_getElem? hg], rfl, rfl, ?_, ?_, ?_, ?_⟩
    · rw [← read]; rfl
    · rw [← write]; rfl
    · rw [← read]; exact decode_registerReadRequest registerLayout_lawful g 0 i
    · rw [← write]; exact decode_registerWriteRequest registerLayout_lawful g 0 i v
  · simp only [Line.wellFormed, Bool.and_eq_true, beq_iff_eq] at wf
    obtain ⟨hbase, hlen⟩ := wf
    have queue : (issue params [.setSect q base len] s).requests =
        [registerWriteRequest params .sramb 0 (BitVec.ofNat 5 q.val) (params.srambOf len),
          registerWriteRequest params .srama 0 (BitVec.ofNat 5 q.val) (params.sramaOf base)] := by
      simp only [issue, State.setRequests_requests, hr, List.nil_append]
      rfl
    refine ⟨_, _, step_registerWriteRequest queue hs, step_registerWriteRequest rfl hs, rfl, ?_, ?_, fun r hne => ⟨?_, ?_⟩⟩
    · show params.sectBase ((s.srama.set (sectionOfIndex _) _).get q) = base
      rw [sectionOfIndex_ofNat, SectRegs.get_set_same, hbase]
    · show params.sectLen ((s.sramb.set (sectionOfIndex _) _).get q) = len
      rw [sectionOfIndex_ofNat, SectRegs.get_set_same, hlen]
    · show (s.srama.set (sectionOfIndex _) _).get r = _
      rw [sectionOfIndex_ofNat, SectRegs.get_set_of_ne _ hne]
    · show (s.sramb.set (sectionOfIndex _) _).get r = _
      rw [sectionOfIndex_ofNat, SectRegs.get_set_of_ne _ hne]

end Sys2Proof.Machine

/-! ### The open parameters, and TRANSLATE by its translation

`execWith` depends on the parameters in force alone, and on CONF only through them (log 18); what a TRANSLATE answers and leaves is its
translation's (`exec_translate_cases`), and the diagnostic accesses compose as READ and WRITE do (R283, R284). -/

namespace Sys2Proof.Machine

/-! #### The open parameters -/

/-- A request depends on the parameters in force alone. -/
theorem execWith_congr {C D : Setup} {s : State} (h : C.under s.conf = D.under s.conf) (i : Instr) : execWith C i s = execWith D i s := by
  by_cases hi : i = .reset
  · subst hi; rfl
  · rw [execWith_eq_perform C hi, execWith_eq_perform D hi]
    exact perform_congr (by rw [h])

theorem stepWith_congr {C D : Setup} {s : State} (h : C.under s.conf = D.under s.conf) : stepWith C s = stepWith D s := by
  unfold stepWith nextRequest
  cases s.requests with
  | nil => rfl
  | cons r rest =>
    simp only [State.setRequests_conf, h]
    split
    · exact execWith_congr (s := s.setRequests rest) h _
    · rfl

/-- Where the parameters say that the MMU does not translate, TRANSLATE answers its address (C4). -/
theorem execWith_translate_identity {C : Setup} {s : State} (hs : s.halted = false) (he : (C.under s.conf).enabled s.enable = false)
    (acc : AccessKind) (lvl : Level) (se : Bool) (va : Word) :
    execWith C (.translate acc lvl se va) s = .next (s.respond (.value va)) := by
  rw [execWith_eq_perform C (by simp), perform_running hs]
  simp [requestBody, translate, he]

theorem close_answerValue_withConf (c : Word) (m : Res Word) : (answerValue (m.withConf c)).close = (answerValue m).close.setConf c := by
  cases m <;> rfl

/-- With the same parameters in force TRANSLATE is blind to CONF (R32, R261). -/
theorem execWith_translate_setConf {C : Setup} {x : Access} {s t : State} {conf : Word} (hc : C.under conf = C.under s.conf)
    (hw : inMmuWindow (C.under s.conf) (sdAddr (C.under s.conf) s x.va) = false)
    (hw4 : inMmuWindow (C.under s.conf) (sdAddr (C.under s.conf) s x.va + 4) = false)
    (hp : ∀ g u, resolveSegment (C.under s.conf) x (if x.se then s.setVar x.va else s) = .go g u →
      inMmuWindow (C.under s.conf) (pdAddr (C.under s.conf) x.va g.sd1) = false)
    (h : execWith C (.translate x.acc x.lvl x.se x.va) s = .next t) :
    execWith C (.translate x.acc x.lvl x.se x.va) (s.setConf conf) = .next (t.setConf conf) := by
  rw [execWith_eq_perform C (by simp)] at h ⊢
  cases hs : s.halted with
  | true =>
    rw [perform_halted hs] at h
    cases h
    exact perform_halted (s := s.setConf conf) hs _
  | false =>
    rw [perform_running hs] at h
    cases h
    rw [perform_running (s := s.setConf conf) hs]
    simp only [requestBody, State.setConf_conf, hc]
    rw [translate_setConf (x := x) hw hw4 hp, close_answerValue_withConf]

/-- Settles O60: each clause by its lemma, the state of the CONF clause with VAR written or not. -/
theorem openParametersAreArguments : Obligations.OpenParametersAreArguments := by
  refine ⟨exec_eq_execWith, step_eq_stepWith, setup_under, fun C D s h => stepWith_congr h, fun C acc lvl se va s hs he => ?_,
    fun C acc lvl se va conf s t hc hw hw4 hp h => ?_, fun P hP => ⟨fun i hi => decode_encode hP hi, fun r i hd => encode_of_decode hP hd⟩,
    fun C pa v s hP hw => execWith_registerRow hP hw v⟩
  · rw [execWith_translate_identity hs he, State.respond_of_not_refusal _ rfl]
  · refine execWith_translate_setConf (x := ⟨va, acc, lvl, se⟩) hc hw hw4 ?_ h
    cases se <;> exact hp

/-! #### TRANSLATE by its translation -/

/-- A TRANSLATE is refused while halted; else it answers what its translation goes on with or ends with, and leaves that state. -/
theorem exec_translate_cases {x : Access} {s t : State} {r : Response} (h : exec (.translate x.acc x.lvl x.se x.va) s = .next t)
    (ha : Answers s t r) :
    (s.halted = true ∧ r = .refused .halted ∧ t = s.respond r) ∨
      s.halted = false ∧ ((∃ pa u, translate params x s = .go pa u ∧ Kept s u ∧ r = .value pa ∧ t = u.respond r) ∨
        ∃ u, translate params x s = .ended r u ∧ Ended params x s r u ∧ t = u.respond r) := by
  have outcome {q : Response} (hq : Answers s t q) : r = q := (ha.iff_eq q).mp hq
  cases hs : s.halted with
  | true =>
    rw [exec_halted (by simp) hs] at h
    cases h
    obtain rfl := outcome rfl
    exact .inl ⟨rfl, rfl, rfl⟩
  | false =>
    have meets := (contract_kept params x).translate s
    rw [exec_translate_running x hs] at h
    cases h
    refine .inr ⟨rfl, ?_⟩
    cases hm : translate params x s with
    | go pa u =>
      rw [hm] at meets outcome
      have kept : Kept s u := meets
      obtain rfl : r = .value pa := outcome (by simp [Answers, kept.outcomes])
      exact .inl ⟨pa, u, rfl, kept, rfl, rfl⟩
    | ended q u =>
      rw [hm] at meets outcome
      have ended : Ended params x s q u := meets
      obtain rfl : r = q := outcome (by simp [Answers, ended.outcomes])
      exact .inr ⟨u, rfl, ended, rfl⟩

/-- The request answers something. -/
theorem exists_answers {i : Instr} {s t : State} (h : exec i s = .next t) : ∃ r, Answers s t r := by
  obtain ⟨r, hr⟩ := exec_performed h
  exact ⟨r, hr.answers⟩

/-! #### EXAMINE and DEPOSIT -/

theorem examine_translatesThen (P : Params) (va : Word) : TranslatesThen P ⟨va, .read, 0, false⟩ .pread8 (requestBody P (.examine va)) :=
  fun _ => Res.bind_assoc ..

theorem deposit_translatesThen (P : Params) (va v : Word) :
    TranslatesThen P ⟨va, .write, 0, false⟩ (fun pa => .pwrite8 pa v) (requestBody P (.deposit va v)) :=
  fun _ => Res.bind_assoc ..

/-- Settles O57: both translate without side effects at level 0, then make a byte access. -/
theorem diagnosticAccessIsPeekThenPhysical : Obligations.DiagnosticAccessIsPeekThenPhysical :=
  fun va v _ _ _ => ⟨exec_of_translatesThen rfl (examine_translatesThen params va),
    exec_of_translatesThen rfl (deposit_translatesThen params va v)⟩

/-- While disabled a translated access is the port request at its own address (R171). -/
theorem exec_of_translatesThen_disabled {i : Instr} {x : Access} {port : Word → Instr} (hx : translationOf i = some x)
    (hi : TranslatesThen params x port (requestBody params i)) {s : State} (hs : s.halted = false) (he : s.enable = false) :
    exec i s = exec (port x.va) s := by
  have translated := exec_translate_disabled hs he x.acc x.lvl x.se x.va
  rw [(exec_of_translatesThen hx hi translated rfl).1 x.va rfl, ((contract_kept params x).refl s).respond_value_forget]

/-- Settles O55: each of the four is its port request, O35 and O36 say what those do. -/
theorem disabledAccessesReachRam : Obligations.DisabledAccessesReachRam := by
  intro w acc lvl va v s hs he hp hr wf
  have byte : va.toNat % Width.byte.bytes = 0 := Nat.mod_one _
  refine ⟨?_, ?_, ?_, ?_⟩
  · rw [exec_of_translatesThen_disabled (translationOf_requestRead w acc lvl va) (requestRead_translatesThen params w acc lvl va) hs he]
    exact (physicalReadOfMemory w va s hs hp).2 hr
  · rw [exec_of_translatesThen_disabled (translationOf_requestWrite w lvl va v) (requestWrite_translatesThen params w lvl va v) hs he]
    exact physicalWriteToRam w va v s hs hp hr wf
  · rw [exec_of_translatesThen_disabled rfl (examine_translatesThen params va) hs he]
    exact (physicalReadOfMemory .byte va s hs byte).2 hr
  · rw [exec_of_translatesThen_disabled rfl (deposit_translatesThen params va v) hs he]
    obtain ⟨m, hm, stored, frame⟩ := physicalWriteToRam .byte va v s hs byte hr wf
    exact ⟨m, hm, stored, fun a ha => frame a (by simp only [Width.bytes]; omega)⟩

/-! #### Alignment and the bus abort -/

/-- The part ends in no bus abort, and what it goes on with satisfies `R`. -/
def Res.Unaborted {α : Type} (R : α → Prop) : Res α → Prop
  | .go y _ => R y
  | .ended r _ => r ≠ .abort .emf

namespace Res.Unaborted

variable {α β : Type} {R : α → Prop} {x : Access} {s : State}

theorem go {y : α} (h : R y) : (Res.go y s).Unaborted R := h

theorem bind {R : β → Prop} {m : Res α} {k : α → State → Res β} (hm : m.Unaborted fun _ => True)
    (hk : ∀ y t, m = .go y t → (k y t).Unaborted R) : (m.bind k).Unaborted R := by
  cases m with
  | go y t => exact hk y t rfl
  | ended r t => exact hm

theorem ite {p : Prop} [Decidable p] {m n : Res α} (hm : m.Unaborted R) (hn : n.Unaborted R) : (if p then m else n).Unaborted R := by
  split
  · exact hm
  · exact hn

theorem failWith {c : TransFault} : (failWith params x c s : Res α).Unaborted R := by
  cases hse : x.se with
  | true => rw [failWith_se params hse]; exact Response.noConfusion
  | false => rw [failWith_peek params hse]; exact Response.noConfusion

theorem stopIndirect : (stopIndirect s : Res α).Unaborted R := Response.noConfusion

theorem physRead {pa : Word} {w : Width} (ha : w.aligned pa = true) : (physRead params pa w s).Unaborted fun _ => True := by
  unfold Machine.physRead
  rw [if_pos ha]
  cases regionOf params pa with
  | rom | ram | unmapped => exact trivial
  | io =>
    refine ite ?_ trivial
    cases w with
    | word => exact trivial
    | byte | half => exact Response.noConfusion

theorem physWrite {pa : Word} {w : Width} {v : Word} (ha : w.aligned pa = true) :
    (physWrite params pa w v s).Unaborted fun _ => True := by
  unfold Machine.physWrite
  rw [if_pos ha]
  cases regionOf params pa with
  | rom | ram | unmapped => exact trivial
  | io =>
    refine ite ?_ trivial
    cases w with
    | word => exact trivial
    | byte | half => exact Response.noConfusion

end Res.Unaborted

section
variable {x : Access} {s : State}

theorem resolveSegment_unaborted : (resolveSegment params x s).Unaborted fun _ => True := by
  unfold resolveSegment
  dsimp only
  split
  · exact trivial
  · exact .bind (.physRead (sdAddr_aligned s x.va)) fun _ _ _ => .bind (.physRead (sdAddr_add_four_aligned s x.va)) fun _ _ _ => trivial

theorem checkSegment_unaborted {g : SegInHand} : (checkSegment params x g s).Unaborted fun _ => True :=
  .ite .failWith (.ite .stopIndirect (.ite .failWith (.go trivial)))

theorem writeBackSegment_unaborted {g : SegInHand} {w : Word} (ha : Width.word.aligned g.sda = true) :
    (writeBackSegment params x g w s).Unaborted fun _ => True :=
  .bind (.physWrite ha) fun _ _ _ => trivial

theorem writeBackPage_unaborted {q : PageInHand} {w : Word} (ha : Width.word.aligned q.pda = true) :
    (writeBackPage params x q w s).Unaborted fun _ => True :=
  .bind (.physWrite ha) fun _ _ _ => trivial

theorem resolvePage_unaborted {g : SegInHand} : (resolvePage params x g s).Unaborted fun _ => True := by
  have ha := pdAddr_aligned x.va g.sd1
  unfold resolvePage
  dsimp only
  split
  · exact trivial
  · exact .ite .failWith (.bind (.physRead ha) fun _ _ _ => .ite (writeBackPage_unaborted ha) trivial)

theorem checkPage_unaborted {g : SegInHand} {q : PageInHand} : (checkPage params x g q s).Unaborted fun _ => True :=
  .ite .failWith (.ite .failWith (.ite .failWith (.ite .failWith (.go trivial))))

/-- A page or segment base with its low bits zero, plus an offset of the same low bits as the address, keeps these (R282). -/
theorem add_mod_four {base off va : Word} (hb : base.toNat % 4 = 0) (ho : off.toNat % 4 = va.toNat % 4) :
    (base + off).toNat % 4 = va.toNat % 4 := by
  rw [BitVec.toNat_add]
  omega

theorem translateContiguous_unaborted {g : SegInHand} :
    (translateContiguous params x g s).Unaborted fun pa => pa.toNat % 4 = x.va.toNat % 4 := by
  refine .ite .failWith (.ite .failWith (.go (add_mod_four ?_ ?_)))
  · rw [show params.segBase g.sd1 = g.sd1 &&& 0xFFFFFFE0#32 from rfl, toNat_and_mask_five]
    omega
  · rw [toNat_sot]
    omega

theorem translatePaged_unaborted {g : SegInHand} :
    (translatePaged params x g s).Unaborted fun pa => pa.toNat % 4 = x.va.toNat % 4 := by
  refine .bind resolvePage_unaborted fun q t hq => .bind checkPage_unaborted fun _ u _ => .bind (.ite ?_ trivial) fun q v _ => ?_
  · refine writeBackPage_unaborted ?_
    rw [resolvePage_pda hq]
    exact pdAddr_aligned ..
  · refine add_mod_four ?_ ?_
    · rw [toNat_pageBase]
      omega
    · rw [toNat_pot]
      omega

theorem translateSegment_unaborted {g : SegInHand} (ha : Width.word.aligned g.sda = true) :
    (translateSegment params x g s).Unaborted fun pa => pa.toNat % 4 = x.va.toNat % 4 := by
  refine .bind (.ite (writeBackSegment_unaborted ha) trivial) fun g1 t h1 => .bind (.ite .failWith (.go trivial)) fun _ u _ =>
    .bind (.ite (writeBackSegment_unaborted ?_) trivial) fun _ _ _ => .ite translateContiguous_unaborted translatePaged_unaborted
  rw [(referSegment_same h1).1]
  exact ha

/-- Descriptor accesses are aligned, so no translation aborts, and the address it gives has the low two bits of the virtual one (R282,
R303). -/
theorem translate_unaborted : (translate params x s).Unaborted fun pa => pa.toNat % 4 = x.va.toNat % 4 := by
  refine .ite (.ite .failWith (.bind resolveSegment_unaborted fun g t hg => .bind checkSegment_unaborted fun _ u _ => ?_)) (.go rfl)
  refine translateSegment_unaborted ?_
  rw [resolveSegment_sda hg]
  exact sdAddr_aligned ..

theorem exec_translate_unaborted {t : State} {r : Response} (h : exec (.translate x.acc x.lvl x.se x.va) s = .next t)
    (ha : Answers s t r) : r ≠ .abort .emf ∧ ∀ pa, r = .value pa → pa.toNat % 4 = x.va.toNat % 4 := by
  have unaborted := translate_unaborted (x := x) (s := s)
  rcases exec_translate_cases h ha with ⟨-, rfl, -⟩ | ⟨-, ⟨pa, u, hm, -, rfl, -⟩ | ⟨u, hm, ended, -⟩⟩
  · simp
  · rw [hm] at unaborted
    exact ⟨by simp, fun qa hq => by cases hq; exact unaborted⟩
  · rw [hm] at unaborted
    exact ⟨unaborted, fun pa hv => absurd hv (ended.noValue pa)⟩

end

/-- Settles O52: the addresses by arithmetic, and `translate_unaborted`. -/
theorem descriptorAccessesNeverAbort : Obligations.DescriptorAccessesNeverAbort := by
  refine ⟨fun va sd1 s => ⟨?_, ?_⟩, fun acc lvl se va s t h ha => ?_⟩
  · rw [sdAddr, BitVec.toNat_add, BitVec.toNat_mul, show params.sectBase _ = _ &&& 0xFFFFFFE0#32 from rfl, toNat_and_mask_five,
      show (8 : Word).toNat = 8 from rfl]
    omega
  · simpa [Width.aligned, Width.bytes] using pdAddr_aligned va sd1
  · exact (exec_translate_unaborted (x := ⟨va, acc, lvl, se⟩) h ha).1 rfl

/-- An access misaligned at one of two addresses with the same low two bits is so at the other. -/
theorem misaligned_of_mod_four {w : Width} {pa va : Word} (h : pa.toNat % 4 = va.toNat % 4) (hv : va.toNat % w.bytes ≠ 0) :
    pa.toNat % w.bytes ≠ 0 := by
  cases w <;> simp only [Width.bytes] at hv ⊢ <;> omega

/-- Settles O53: the port access at the translated address is as misaligned as the virtual one, and the translation itself never aborts. -/
theorem misalignedDataAbortsAfterTranslation : Obligations.MisalignedDataAbortsAfterTranslation := by
  intro acc lvl va pa s t h
  obtain ⟨r, ha⟩ := exists_answers h
  obtain ⟨noAbort, low⟩ := exec_translate_unaborted (x := ⟨va, acc, lvl, true⟩) h ha
  have aborts {i : Instr} {port : Word → Instr} {w : Width} {u : State} (hw : va.toNat % w.bytes ≠ 0)
      (hport : ∀ pa (v : State), v.halted = false → pa.toNat % w.bytes ≠ 0 →
        exec (port pa) v = .next ((v.setAlignErr true).respond (.abort .emf)))
      (parts : (∀ pa, r = .value pa → exec i s = exec (port pa) { t with outcomes := s.outcomes }) ∧
        ((∀ pa, r ≠ .value pa) → exec i s = .next t))
      (hu : exec i s = .next u) : Answers s u (.abort .emf) ↔ ∃ pa, Answers s t (.value pa) := by
    simp only [ha.iff_eq]
    by_cases hv : ∃ pa, r = .value pa
    · obtain ⟨pa, rfl⟩ := hv
      have running : t.halted = false := by
        rcases exec_translate_cases (x := ⟨va, acc, lvl, true⟩) h ha with ⟨-, hr, -⟩ | ⟨hs, ⟨_, _, -, kept, -, rfl⟩ | ⟨_, -, ended, -⟩⟩
        · cases hr
        · exact kept.halted.trans hs
        · exact absurd rfl (ended.noValue pa)
      have misaligned := misaligned_of_mod_four (low pa rfl) hw
      rw [parts.1 pa rfl, hport pa { t with outcomes := s.outcomes } running misaligned] at hu
      cases hu
      exact iff_of_true rfl ⟨pa, rfl⟩
    · rw [parts.2 fun pa hr => hv ⟨pa, hr⟩] at hu
      cases hu
      rw [ha.iff_eq]
      exact iff_of_false noAbort hv
  refine ⟨fun hv => low pa ((ha.iff_eq _).mp hv), fun w u hw => ⟨fun hu => ?_, fun v hacc hu => ?_⟩⟩
  · exact aborts hw (fun pa v hv hp => exec_requestPread_misaligned hv hp) ((accessIsTranslateThenPhysical w lvl va 0 s).1 acc t r h ha) hu
  · subst hacc
    exact aborts hw (fun pa u hu hp => exec_requestPwrite_misaligned hu hp v) ((accessIsTranslateThenPhysical w lvl va v s).2 t r h ha) hu

end Sys2Proof.Machine

/-! ### The walk of a translation

One inversion lemma for every enabled translation under the default layout, wherever its descriptors lie (`translateEnabled_walk`): how it
ends, apart from the record of that, and what its two halves (Laws/Walk.lean) have done before. Descriptors it may write back lie clear of
the MMU window; reading one there or in the rest of the I/O region draws a word and no more. -/

namespace Sys2Proof.Machine

/-! #### How a translation ends -/

/-- How a translation ends: with an address, with a failure, or with the stop of R177. -/
inductive Ending where
  | gives (pa : Word)
  | fails (c : TransFault)
  | stops

theorem failure_ne_value (x : Access) (c : TransFault) (pa : Word) : failure x c ≠ .value pa := by
  cases hse : x.se <;> simp [failure, hse]

theorem failure_inj {x : Access} {c d : TransFault} : failure x c = failure x d ↔ c = d := by
  cases hse : x.se <;> simp [failure, hse]

namespace Ending

/-- The ending in the state that the walk has left. -/
def result (x : Access) (s : State) : Ending → Res Word
  | gives pa => .go pa s
  | fails c => failWith params x c s
  | stops => stopIndirect s

/-- The outcome of a TRANSLATE that ends so. -/
def answer (x : Access) : Ending → Response
  | gives pa => .value pa
  | fails c => failure x c
  | stops => .stop .indirectSd

/-- The state with the record of the ending: the fault record under side effects (R305), `halted` of a Stop (R309). -/
def record (x : Access) (s : State) : Ending → State
  | gives _ => s
  | fails c => if x.se then recordFault params c x.va s else s
  | stops => s.setHalted true

variable (x : Access) (e : Ending) (s : State)

/-- The word of the page descriptor in hand when the translation has ended: with the modified bit on success alone (R190, R195). -/
def pageWord (q : PageInHand) : Word :=
  match e with
  | gives _ => Machine.pageWord params x q
  | fails _ | stops => referredPageWord params x q

theorem close_result : (answerValue (e.result x s)).close = (e.record x s).respond (e.answer x) := by
  cases e with
  | gives | stops => rfl
  | fails c => cases h : x.se <;> simp [result, record, answer, failWith, failure, h]

@[simp] theorem record_sdc : (e.record x s).sdc = s.sdc := by
  cases e with
  | gives | stops => rfl
  | fails c => rw [record]; split <;> rfl

@[simp] theorem record_pdc : (e.record x s).pdc = s.pdc := by
  cases e with
  | gives | stops => rfl
  | fails c => rw [record]; split <;> rfl

@[simp] theorem record_ram : (e.record x s).ram = s.ram := by
  cases e with
  | gives | stops => rfl
  | fails c => rw [record]; split <;> rfl

@[simp] theorem record_ioLog : (e.record x s).ioLog = s.ioLog := by
  cases e with
  | gives | stops => rfl
  | fails c => rw [record]; split <;> rfl

variable {x e}

theorem answer_eq_value {pa : Word} (h : e.answer x = .value pa) : e = gives pa := by
  cases e with
  | gives qa => cases h; rfl
  | fails c => exact (failure_ne_value _ _ _ h).elim
  | stops => cases h

theorem answer_eq_failure {c : TransFault} (h : e.answer x = failure x c) : e = fails c := by
  cases e with
  | gives pa => exact (failure_ne_value _ _ _ h.symm).elim
  | fails d => rw [failure_inj.mp h]
  | stops => cases hse : x.se <;> simp [answer, failure, hse] at h

theorem answer_eq_stop (h : e.answer x = .stop .indirectSd) : e = stops := by
  cases e with
  | gives pa => cases h
  | fails c => cases hse : x.se <;> simp [answer, failure, hse] at h
  | stops => rfl

end Ending

/-! #### Reading a descriptor -/

theorem readRegister_drawsOnly (g : RegGroup) (i : BitVec 5) (s : State) : DrawsOnly s (readRegister g i s).2 := by
  cases g with
  | sdcl | sdch | pdcrl | pdcrh | pdcll | pdclh | undef12 | undef13 | undef14 | undef15 => exact s.drawWord_drawsOnly
  | srama | sramb | fc | fa | conf | var => exact .refl s

/-- An aligned word read goes on, wherever it is made, and changes no more than the free inputs left. -/
theorem physRead_word {pa : Word} (ha : Width.word.aligned pa = true) (s : State) :
    ∃ v u, physRead params pa .word s = .go v u ∧ DrawsOnly s u := by
  cases hr : regionOf params pa with
  | rom => exact ⟨_, s, physRead_rom ha hr s, .refl s⟩
  | ram => exact ⟨_, s, physRead_ram ha hr s, .refl s⟩
  | unmapped => exact ⟨_, s, physRead_unmapped ha hr s, .refl s⟩
  | io =>
    cases hw : inMmuWindow params pa with
    | true => exact ⟨_, _, physRead_window ha hr hw s, readRegister_drawsOnly ..⟩
    | false => exact ⟨_, _, physRead_device ha hr hw s, s.drawWord_drawsOnly⟩

theorem DrawsOnly.trans {s t u : State} (h : DrawsOnly s t) (k : DrawsOnly t u) : DrawsOnly s u := by
  unfold DrawsOnly at h k ⊢
  rw [k, h]

/-- The segment descriptor `g` has been taken in hand (R174), in the state `u`. -/
structure SegmentRead (x : Access) (s : State) (g : SegInHand) (u : State) : Prop where
  eq : resolveSegment params x s = .go g u
  draws : DrawsOnly s u
  sda : g.sda = sdAddr params s x.va
  miss : g.hit = false → lookupSegment (sdcKey params x.va) s.sdc = none

/-- A segment descriptor can always be taken in hand: its words are aligned (R303). -/
theorem exists_segmentRead (x : Access) (s : State) : ∃ g u, SegmentRead x s g u := by
  cases hl : lookupSegment (sdcKey params x.va) s.sdc with
  | some e => exact ⟨_, s, by unfold resolveSegment; rw [hl], .refl s, rfl, by simp⟩
  | none =>
    obtain ⟨sd0, u, h0, d0⟩ := physRead_word (sdAddr_aligned s x.va) s
    obtain ⟨sd1, v, h1, d1⟩ := physRead_word (sdAddr_add_four_aligned s x.va) u
    refine ⟨⟨sdAddr params s x.va, sd0, sd1, false⟩, v, ?_, d0.trans d1, rfl, fun _ => hl⟩
    unfold resolveSegment
    simp only [hl, h0, h1, Res.bind_go]

theorem SegmentRead.unique {x : Access} {s u v : State} {g g' : SegInHand} (h : SegmentRead x s g u)
    (k : resolveSegment params x s = .go g' v) : g' = g ∧ v = u := by
  rw [h.eq] at k
  cases k
  exact ⟨rfl, rfl⟩

/-- The page descriptor `q` of the segment descriptor `g` has been taken in hand (R186 to R188), in the state `u`. -/
structure PageRead (x : Access) (g : SegInHand) (t : State) (q : PageInHand) (u : State) : Prop where
  pda : q.pda = pdAddr params x.va g.sd1
  draws : DrawsOnly t u
  miss : q.hit = false → lookupPage (pdcKey params x.va) t.pdc = none
  within : ¬ (lookupPage (pdcKey params x.va) t.pdc = none ∧ (lastPage params g.sd0).toNat < (params.psl x.va).toNat)
  unique : ∀ q', pageOf params t x.va g = some q' → q' = q

/-- The page half has run, or a part of it; in a peek it has done nothing. -/
structure PageHalf (x : Access) (g : SegInHand) (q : PageInHand) (w : Word) (s t : State) : Prop extends PageDone x g q w s t where
  idle : x.se = false → t = s

/-- The page descriptor is taken in hand and its referenced bit written back, or on a miss the bound is passed. -/
theorem resolvePage_cases {x : Access} {g : SegInHand} (hw : x.se = true → inMmuWindow params (pdAddr params x.va g.sd1) = false)
    (t : State) :
    (lookupPage (pdcKey params x.va) t.pdc = none ∧ (lastPage params g.sd0).toNat < (params.psl x.va).toNat) ∨
      ∃ q u v, PageRead x g t q u ∧ resolvePage params x g t = .go { q with pd := referredPageWord params x q } v ∧
        PageHalf x g q (referredPageWord params x q) u v := by
  have ha := pdAddr_aligned x.va g.sd1
  unfold resolvePage
  cases hl : lookupPage (pdcKey params x.va) t.pdc with
  | some e =>
    refine .inr ⟨⟨pdAddr params x.va g.sd1, e.pd, e.rights, true⟩, t, t, ⟨rfl, .refl t, by simp, by simp [hl], fun q' hq => ?_⟩,
      by simp [referredPageWord], ⟨by simpa [referredPageWord] using PageDone.hit x g rfl t, fun _ => rfl⟩⟩
    simpa [pageOf, hl, eq_comm] using hq
  | none =>
    by_cases hb : lastPage params g.sd0 < params.psl x.va
    · exact .inl ⟨rfl, hb⟩
    obtain ⟨pd, u, hpd, draws⟩ := physRead_word ha t
    simp only [if_neg hb, hpd, Res.bind_go]
    refine .inr ⟨⟨pdAddr params x.va g.sd1, pd, params.rights g.sd0, false⟩, u, ?_⟩
    have read : PageRead x g t ⟨pdAddr params x.va g.sd1, pd, params.rights g.sd0, false⟩ u := by
      refine ⟨rfl, draws, fun _ => hl, fun h => hb h.2, fun q' hq => ?_⟩
      simp only [pageOf, hl, Option.map_eq_some_iff] at hq
      obtain ⟨pd', plain, rfl⟩ := hq
      rw [physRead_plain ha plain] at hpd
      cases hpd
      rfl
    generalize hq : (⟨pdAddr params x.va g.sd1, pd, params.rights g.sd0, false⟩ : PageInHand) = q at read
    have hit : q.hit = false := by rw [← hq]
    have filled : PageHalf x g q q.pd u (fillPage params x g q u) := ⟨PageDone.fill x g hit u, fun hse => by simp [fillPage, hse]⟩
    generalize fillPage params x g q u = v at filled
    unfold referPage
    by_cases hc : (x.se && params.pagePresent q.pd && !params.pageReferenced q.pd) = true
    · have word : referredPageWord params x q = params.setPR q.pd := by
        unfold referredPageWord
        rw [if_pos (by simpa [hit] using hc)]
      have ⟨⟨hse, _⟩, hr⟩ : (x.se = true ∧ params.pagePresent q.pd = true) ∧ params.pageReferenced q.pd = false := by simpa using hc
      obtain ⟨w, e, done⟩ := filled.write (by rw [read.pda]; exact ha) (by rw [read.pda]; exact hw hse) _ (setPR_ne _ hr)
      exact ⟨w, read, by rw [if_pos hc, word]; exact e, by rw [word]; exact ⟨done, by simp [hse]⟩⟩
    · have word : referredPageWord params x q = q.pd := by
        unfold referredPageWord
        rw [if_neg (by simpa [hit] using hc)]
      exact ⟨v, read, by rw [if_neg hc, word], by rw [word]; exact filled⟩

/-! #### The segment half -/

/-- By default no write-back reaches the cached copy (R198). -/
theorem reflectSegment_default (va w : Word) (s : State) : reflectSegment params va w s = s := rfl

/-- The segment half has run; in a peek it has written the modified bit or nothing. -/
structure SegmentHalf (x : Access) (g : SegInHand) (s t : State) : Prop extends SegmentDone x g (segmentWord params x g) s t where
  peekRam : x.se = false → t.ram = s.ram ∨
    params.modified g.sd0 = false ∧ t.ram = Memory.writeWide s.ram g.sda.toNat .word (params.setM g.sd0)
  readOnly : x.se = false → params.mAccesses x.acc = false → t = s

theorem fillSegment_peek {x : Access} (h : x.se = false) (g : SegInHand) (s : State) : fillSegment params x g s = s := by
  simp [fillSegment, h]

/-- A peek makes one segment write-back at most (R182), and no object trap ends it. -/
theorem translateSegment_peek {x : Access} (h : x.se = false) (g : SegInHand) (s : State) :
    translateSegment params x g s = (modifySegment params x g s).bind fun g s =>
      if params.contiguous g.sd0 then translateContiguous params x g s else translatePaged params x g s := by
  simp [translateSegment, referSegment, checkObjectTrap, h]

theorem segmentWord_peek {x : Access} (h : x.se = false) (g : SegInHand) :
    segmentWord params x g = if params.mAccesses x.acc && !params.modified g.sd0 then params.setM g.sd0 else g.sd0 := by
  simp [segmentWord, h, show params.peekSegM = true from rfl]

theorem segmentHalf_peek {x : Access} {g : SegInHand} (hse : x.se = false) (hp : Width.word.aligned g.sda = true)
    (hw : params.mAccesses x.acc = true → inMmuWindow params g.sda = false) (s : State) :
    ∃ t, SegmentHalf x g s t ∧ modifySegment params x g s = .go { g with sd0 := segmentWord params x g } t := by
  have idle := SegmentDone.fill x g s
  rw [fillSegment_peek hse] at idle
  have word := segmentWord_peek hse g
  have modify : modifySegment params x g s = if params.mAccesses x.acc && !params.modified g.sd0 then
      writeBackSegment params x g (params.setM g.sd0) s else .go g s := by
    simp [modifySegment, show params.peekSegM = true from rfl]
  by_cases hm : (params.mAccesses x.acc && !params.modified g.sd0) = true
  · rw [if_pos hm] at word modify
    simp only [Bool.and_eq_true, Bool.not_eq_true'] at hm
    obtain ⟨macc, unmodified⟩ := hm
    obtain ⟨u, hu, written⟩ := physWrite_clear hp (hw macc) (params.setM g.sd0) s
    obtain ⟨v, hv, done⟩ := idle.write hp (hw macc) _ (setM_ne _ unmodified)
    have back : writeBackSegment params x g (params.setM g.sd0) s = .go { g with sd0 := params.setM g.sd0 } u := by
      rw [writeBackSegment, hu, Res.bind_go, reflectSegment_default]
    obtain rfl : v = u := by
      rw [back] at hv
      cases hv
      rfl
    rw [modify, word]
    refine ⟨v, ⟨by rw [word]; exact done, fun _ => ?_, fun _ h => by simp [h] at macc⟩, back⟩
    by_cases hr : regionOf params g.sda = .ram
    · exact .inr ⟨unmodified, by rw [written.ram, if_pos hr]⟩
    · exact .inl (by rw [written.ram, if_neg hr])
  · rw [if_neg hm] at word modify
    rw [modify, word]
    exact ⟨s, ⟨by rw [word]; exact idle, fun _ => .inl rfl, fun _ _ => rfl⟩, rfl⟩

/-- Steps 3e to 5: the half has run, then the object trap, the contiguous or the paged rest follows. -/
theorem translateSegment_half {x : Access} {g : SegInHand} (hp : Width.word.aligned g.sda = true)
    (hw : x.se = true ∨ params.mAccesses x.acc = true → inMmuWindow params g.sda = false) (s : State) :
    ∃ t, SegmentHalf x g s t ∧
      translateSegment params x g (fillSegment params x g s) =
        if x.se = true ∧ params.objectTrap g.sd0 = true then failWith params x .otrap t
        else if params.contiguous g.sd0 then translateContiguous params x { g with sd0 := segmentWord params x g } t
        else translatePaged params x { g with sd0 := segmentWord params x g } t := by
  cases hse : x.se with
  | true =>
    obtain ⟨t, done, rest⟩ := translateSegment_spec (s := s) (x := x) hp (hw (.inl hse))
    exact ⟨t, ⟨done, by simp [hse], by simp [hse]⟩, by simpa [hse] using rest⟩
  | false =>
    obtain ⟨t, half, modified⟩ := segmentHalf_peek hse hp (fun h => hw (.inr h)) s
    refine ⟨t, half, ?_⟩
    rw [fillSegment_peek hse, translateSegment_peek hse, modified, Res.bind_go]
    simp

/-! #### The page half -/

theorem verdictContiguous_cases (x : Access) (g : SegInHand) :
    (∃ c, verdictContiguous params x g = failure x c ∧ (c = .acc ∨ c = .segOffset)) ∨
      verdictContiguous params x g = .value (params.segBase g.sd1 + params.sot x.va) := by
  unfold verdictContiguous
  split
  · exact .inl ⟨_, rfl, .inl rfl⟩
  · split
    · exact .inl ⟨_, rfl, .inr rfl⟩
    · exact .inr rfl

theorem verdictPage_cases (x : Access) (g : SegInHand) (q : PageInHand) :
    (∃ c, verdictPage params x g q = failure x c ∧
        (c = .acc ∨ c = .segOffset ∨ (c = .pageNotPres ∧ params.pagePresent q.pd = false) ∨ c = .pw)) ∨
      (verdictPage params x g q = .value (params.pageBase q.pd + params.pot x.va) ∧ params.pagePresent q.pd = true) := by
  unfold verdictPage
  split
  · exact .inl ⟨_, rfl, .inl rfl⟩
  · split
    · exact .inl ⟨_, rfl, .inr (.inl rfl)⟩
    · split
      · exact .inl ⟨_, rfl, .inr (.inr (.inl ⟨rfl, by assumption⟩))⟩
      · split
        · exact .inl ⟨_, rfl, .inr (.inr (.inr rfl))⟩
        · exact .inr ⟨rfl, by simpa using ‹¬ params.pagePresent q.pd = false›⟩

/-- The contiguous rest ends with its verdict and writes nothing before. -/
theorem translateContiguous_ending (x : Access) (g : SegInHand) (t : State) :
    ∃ e : Ending, verdictContiguous params x g = e.answer x ∧ translateContiguous params x g t = e.result x t := by
  rw [translateContiguous_spec]
  rcases verdictContiguous_cases x g with ⟨c, hv, -⟩ | hv
  · refine ⟨.fails c, hv, ?_⟩
    rw [hv]
    cases hse : x.se <;> simp [failure, Ending.result, failWith, hse]
  · exact ⟨.gives _, hv, by rw [hv]; rfl⟩

/-- The page checks pass or fail with their verdict, and write nothing. -/
theorem checkPage_ending (x : Access) (g : SegInHand) (q : PageInHand) (u : State) :
    (∃ c, verdictPage params x g q = failure x c ∧
        checkPage params x g { q with pd := referredPageWord params x q } u = failWith params x c u) ∨
      (verdictPage params x g q = .value (params.pageBase q.pd + params.pot x.va) ∧
        checkPage params x g { q with pd := referredPageWord params x q } u = .go () u) := by
  rw [checkPage_spec]
  rcases verdictPage_cases x g q with ⟨c, hv, -⟩ | ⟨hv, -⟩
  · refine .inl ⟨c, hv, ?_⟩
    rw [hv]
    cases hse : x.se <;> simp [failure, failWith, hse]
  · exact .inr ⟨hv, by rw [hv]⟩

/-- The modified bit of a page, on success (R195). -/
theorem modifyPage_half {x : Access} {g : SegInHand} {q : PageInHand} {t u : State} (hp : Width.word.aligned q.pda = true)
    (hw : x.se = true → inMmuWindow params q.pda = false) (h : PageHalf x g q (referredPageWord params x q) t u) :
    ∃ v, modifyPage params x { q with pd := referredPageWord params x q } u = .go { q with pd := pageWord params x q } v ∧
      PageHalf x g q (pageWord params x q) t v := by
  unfold modifyPage pageWord
  by_cases hc : (x.se && params.mAccesses x.acc && !params.pageModified (referredPageWord params x q)) = true
  · simp only [if_pos hc]
    simp only [Bool.and_eq_true, Bool.not_eq_true'] at hc
    obtain ⟨⟨hse, -⟩, hm⟩ := hc
    have changed : params.setPM (referredPageWord params x q) ≠ q.pd := by
      intro e
      have set := pageModified_setPM (referredPageWord params x q)
      rw [e, ← referredPageWord_agrees params.pageModified pageModified_setPR x q, hm] at set
      cases set
    obtain ⟨v, e, done⟩ := h.write hp (hw hse) _ changed
    exact ⟨v, e, done, by simp [hse]⟩
  · simp only [if_neg hc]
    exact ⟨u, rfl, h⟩

theorem pageBase_pageWord (x : Access) (q : PageInHand) : params.pageBase (pageWord params x q) = params.pageBase q.pd := by
  rw [← referredPageWord_agrees params.pageBase pageBase_setPR x q]
  unfold pageWord
  dsimp only
  split
  · exact pageBase_setPM _
  · rfl

/-- From `t`, the segment half done, to `v` the rest of the walk has run and ends with `e`: nothing where no page is taken in hand, else
the page half. -/
inductive Rest (x : Access) (g : SegInHand) (t : State) : Ending → State → Prop where
  | trapped (trap : x.se = true ∧ params.objectTrap g.sd0 = true) : Rest x g t (.fails .otrap) t
  | contiguous {e : Ending} (noTrap : ¬ (x.se = true ∧ params.objectTrap g.sd0 = true)) (cont : params.contiguous g.sd0 = true)
      (verdict : verdictContiguous params x g = e.answer x) : Rest x g t e t
  | beyondPages (noTrap : ¬ (x.se = true ∧ params.objectTrap g.sd0 = true)) (paged : params.contiguous g.sd0 = false)
      (miss : lookupPage (pdcKey params x.va) t.pdc = none) (beyond : (lastPage params g.sd0).toNat < (params.psl x.va).toNat) :
      Rest x g t (.fails .pdtlen) t
  | page {e : Ending} {q : PageInHand} {u v : State} (noTrap : ¬ (x.se = true ∧ params.objectTrap g.sd0 = true))
      (paged : params.contiguous g.sd0 = false) (read : PageRead x g t q u) (verdict : verdictPage params x g q = e.answer x)
      (half : PageHalf x g q (e.pageWord x q) u v) : Rest x g t e v

/-- The paged rest. -/
theorem translatePaged_rest {x : Access} {g : SegInHand} (noTrap : ¬ (x.se = true ∧ params.objectTrap g.sd0 = true))
    (paged : params.contiguous g.sd0 = false) (hw : x.se = true → inMmuWindow params (pdAddr params x.va g.sd1) = false) (t : State) :
    ∃ e v, Rest x g t e v ∧ translatePaged params x g t = e.result x v := by
  rcases resolvePage_cases hw t with ⟨miss, beyond⟩ | ⟨q, u, v, read, resolved, half⟩
  · exact ⟨_, t, .beyondPages noTrap paged miss beyond, translatePaged_over miss beyond⟩
  have hp : Width.word.aligned q.pda = true := by rw [read.pda]; exact pdAddr_aligned ..
  rcases checkPage_ending x g q v with ⟨c, hv, check⟩ | ⟨hv, check⟩
  · refine ⟨.fails c, v, .page noTrap paged read hv half, ?_⟩
    rw [translatePaged, resolved, Res.bind_go, check, Ending.result]
    cases hse : x.se <;> simp [failWith, hse]
  · obtain ⟨w, modify, half⟩ := modifyPage_half hp (fun hse => by rw [read.pda]; exact hw hse) half
    refine ⟨.gives _, w, .page noTrap paged read hv half, ?_⟩
    rw [translatePaged, resolved, Res.bind_go, check, Res.bind_go, modify, Res.bind_go, pageBase_pageWord]
    rfl

section
variable (x : Access) (g : SegInHand)

@[simp] theorem objectTrap_segmentWord : params.objectTrap (segmentWord params x g) = params.objectTrap g.sd0 :=
  segmentWord_agrees _ objectTrap_setR objectTrap_setM x g

@[simp] theorem verdictContiguous_segmentWord :
    verdictContiguous params x { g with sd0 := segmentWord params x g } = verdictContiguous params x g := by
  simp [verdictContiguous]

@[simp] theorem verdictPage_segmentWord (q : PageInHand) :
    verdictPage params x { g with sd0 := segmentWord params x g } q = verdictPage params x g q := by
  simp [verdictPage]

@[simp] theorem pageOf_segmentWord (s : State) (va : Word) :
    pageOf params s va { g with sd0 := segmentWord params x g } = pageOf params s va g := by
  simp [pageOf]

end

/-- The bits that the segment half sets in SD0 make no difference to the rest. -/
theorem Rest.of_segmentWord {x : Access} {g : SegInHand} {t v : State} {e : Ending}
    (h : Rest x { g with sd0 := segmentWord params x g } t e v) : Rest x g t e v := by
  cases h with
  | trapped trap => exact .trapped (by simpa using trap)
  | contiguous noTrap cont verdict => exact .contiguous (by simpa using noTrap) (by simpa using cont) (by simpa using verdict)
  | beyondPages noTrap paged miss beyond =>
    exact .beyondPages (by simpa using noTrap) (by simpa using paged) miss (by simpa using beyond)
  | page noTrap paged read verdict half =>
    refine .page (by simpa using noTrap) (by simpa using paged) ⟨read.pda, read.draws, read.miss, by simpa using read.within,
      by simpa using read.unique⟩
      (by simpa using verdict) { half with filled := by simpa using half.filled }

/-! #### The whole walk -/

/-- How the checks of R176 to R178 end a walk whose segment descriptor is not usable. -/
def checkEnding (g : SegInHand) : Ending :=
  if params.valid g.sd0 = false then .fails .invSd
  else if params.indirect g.sd0 = true then .stops
  else .fails (if params.contiguous g.sd0 then .segNotPres else .pdtNotPres)

theorem checkEnding_ne_gives (g : SegInHand) (pa : Word) : checkEnding g ≠ .gives pa := by
  unfold checkEnding
  split
  · exact Ending.noConfusion
  · split <;> exact Ending.noConfusion

theorem checkSegment_unusable {g : SegInHand} (h : segmentUsable params g = false) (x : Access) (u : State) (k : Unit → State → Res Word) :
    (checkSegment params x g u).bind k = (checkEnding g).result x u := by
  have fails (c : TransFault) : (failWith params x c u : Res Unit).bind k = (Ending.fails c).result x u := by
    cases hse : x.se <;> simp [failWith, Ending.result, hse]
  unfold checkSegment checkEnding
  cases hv : params.valid g.sd0 with
  | false => simpa using fails .invSd
  | true =>
    cases hi : params.indirect g.sd0 with
    | true => rfl
    | false =>
      have hp : params.present g.sd0 = false := by simpa [segmentUsable, hv, hi] using h
      simpa [hp] using fails _

/-- From `s` to `v` an enabled translation has run, VAR written before, and ends with `e`: past the section bound, or with the segment
descriptor taken in hand past or not past its checks. -/
inductive Walk (x : Access) (s : State) : Ending → State → Prop where
  | beyondSection (beyond : (params.sectLen (s.sramb.get (params.sid x.va))).toNat < (params.ssl x.va).toNat) :
      Walk x s (.fails .sdtlen) s
  | unusable {g : SegInHand} {u : State}
      (bound : (params.ssl x.va).toNat ≤ (params.sectLen (s.sramb.get (params.sid x.va))).toNat) (read : SegmentRead x s g u)
      (unusable : segmentUsable params g = false) : Walk x s (checkEnding g) u
  | usable {e : Ending} {g : SegInHand} {u t v : State}
      (bound : (params.ssl x.va).toNat ≤ (params.sectLen (s.sramb.get (params.sid x.va))).toNat) (read : SegmentRead x s g u)
      (usable : segmentUsable params g = true) (half : SegmentHalf x g u t) (rest : Rest x g t e v) : Walk x s e v

/-- Every enabled translation is a walk, the descriptors that it may write back lying clear of the MMU window. -/
theorem translateEnabled_walk {x : Access} {s : State}
    (hs : x.se = true ∨ params.mAccesses x.acc = true → inMmuWindow params (sdAddr params s x.va) = false)
    (hp : x.se = true → (params.ssl x.va).toNat ≤ (params.sectLen (s.sramb.get (params.sid x.va))).toNat → ∀ g u, SegmentRead x s g u →
      params.contiguous g.sd0 = false → inMmuWindow params (pdAddr params x.va g.sd1) = false) :
    ∃ e v, Walk x s e v ∧ translateEnabled params x s = e.result x v := by
  by_cases hb : params.sectLen (s.sramb.get (params.sid x.va)) < params.ssl x.va
  · exact ⟨_, s, .beyondSection hb, translateEnabled_beyond_bound hb⟩
  have bound : (params.ssl x.va).toNat ≤ (params.sectLen (s.sramb.get (params.sid x.va))).toNat := by
    simpa [BitVec.lt_def] using hb
  obtain ⟨g, u, read⟩ := exists_segmentRead x s
  unfold translateEnabled
  rw [if_neg hb, read.eq, Res.bind_go]
  cases usable : segmentUsable params g with
  | false => exact ⟨_, u, .unusable bound read usable, checkSegment_unusable usable x u _⟩
  | true =>
    rw [checkSegment_usable usable, Res.bind_go]
    have aligned : Width.word.aligned g.sda = true := by rw [read.sda]; exact sdAddr_aligned ..
    obtain ⟨t, half, rest⟩ := translateSegment_half aligned (by rw [read.sda]; exact hs) u
    rw [rest]
    have walk {e : Ending} {v : State} (h : Rest x g t e v) : Walk x s e v := .usable bound read usable half h
    by_cases trap : x.se = true ∧ params.objectTrap g.sd0 = true
    · exact ⟨_, t, walk (.trapped trap), by rw [if_pos trap]; rfl⟩
    rw [if_neg trap]
    cases hc : params.contiguous g.sd0 with
    | true =>
      obtain ⟨e, verdict, ends⟩ := translateContiguous_ending x { g with sd0 := segmentWord params x g } t
      exact ⟨e, t, walk (.contiguous trap hc (by simpa using verdict)), ends⟩
    | false =>
      obtain ⟨e, v, h, ends⟩ := translatePaged_rest (g := { g with sd0 := segmentWord params x g }) (by simpa using trap)
        (by simpa using hc) (fun hse => hp hse bound g u read hc) t
      exact ⟨e, v, walk h.of_segmentWord, ends⟩

end Sys2Proof.Machine

/-! ### What a TRANSLATE answers

An enabled TRANSLATE is a walk (`Walk`), and ends with the verdict (R302). -/

namespace Sys2Proof.Machine

/-! #### TRANSLATE by its walk -/

/-- The state in which the walk of an enabled translation begins: VAR written under side effects (R172). -/
def begun (x : Access) (s : State) : State := if x.se then s.setVar x.va else s

section
variable (x : Access) (s : State)

theorem begun_eq : begun x s = { s with var := (begun x s).var } := by
  unfold begun
  split <;> rfl

@[simp] theorem begun_ram : (begun x s).ram = s.ram := by rw [begun_eq]
@[simp] theorem begun_enable : (begun x s).enable = s.enable := by rw [begun_eq]
@[simp] theorem begun_halted : (begun x s).halted = s.halted := by rw [begun_eq]
@[simp] theorem begun_sramb : (begun x s).sramb = s.sramb := by rw [begun_eq]
@[simp] theorem sdAddr_begun (va : Word) : sdAddr params (begun x s) va = sdAddr params s va := by rw [begun_eq]; rfl
@[simp] theorem segmentOf_begun (va : Word) : segmentOf params (begun x s) va = segmentOf params s va := by rw [begun_eq]; rfl
@[simp] theorem pageOf_begun (va : Word) (g : SegInHand) : pageOf params (begun x s) va g = pageOf params s va g := by rw [begun_eq]; rfl
@[simp] theorem verdict_begun : verdict params (begun x s) x = verdict params s x := by rw [begun_eq]; rfl
@[simp] theorem tablesApart_begun (va : Word) : tablesApart params (begun x s) va = tablesApart params s va := by rw [begun_eq]; rfl

end

@[simp] theorem Ending.record_outcomes (x : Access) (e : Ending) (v : State) : (e.record x v).outcomes = v.outcomes := by
  cases e with
  | gives | stops => rfl
  | fails c => rw [record]; split <;> rfl

/-- The rest of a walk changes the PDC, the free inputs, RAM and the I/O log at most. -/
theorem Rest.eq {x : Access} {g : SegInHand} {t v : State} {e : Ending} (h : Rest x g t e v) :
    v = { t with pdc := v.pdc, draws := v.draws, drawCount := v.drawCount, ram := v.ram, ioLog := v.ioLog } := by
  cases h with
  | trapped | contiguous | beyondPages => rfl
  | page _ _ read _ half =>
    conv_lhs => rw [half.eq, read.draws]

/-- A walk changes the two caches, the free inputs, RAM and the I/O log at most. -/
theorem Walk.eq {x : Access} {s v : State} {e : Ending} (w : Walk x s e v) :
    v = { s with sdc := v.sdc, pdc := v.pdc, draws := v.draws, drawCount := v.drawCount, ram := v.ram, ioLog := v.ioLog } := by
  cases w with
  | beyondSection => rfl
  | unusable _ read => rw [read.draws]
  | usable _ read _ half rest =>
    rw [rest.eq, half.eq]
    conv_lhs => rw [read.draws]

/-- An enabled TRANSLATE answers what its walk ends with, in the state that the walk leaves. -/
theorem exec_translate_of_walk {x : Access} {s t v : State} {e : Ending} (hs : s.halted = false) (he : s.enable = true)
    (walk : Walk x (begun x s) e v) (ends : translateEnabled params x (begun x s) = e.result x v)
    (h : exec (.translate x.acc x.lvl x.se x.va) s = .next t) :
    Walk x (begun x s) e v ∧ Answers s t (e.answer x) ∧ t = (e.record x v).respond (e.answer x) := by
  rw [exec_translate_running x hs, translate_enabled he, show (if x.se then s.setVar x.va else s) = begun x s from rfl, ends,
    Ending.close_result] at h
  cases h
  exact ⟨walk, by rw [Answers, State.respond_outcomes, Ending.record_outcomes, walk.eq, begun_eq], rfl⟩

/-- A segment descriptor at hand is the one read, and reading it changes nothing. -/
theorem SegmentRead.eq_of_segmentOf {x : Access} {s u : State} {g g' : SegInHand} (read : SegmentRead x s g u)
    (h : segmentOf params s x.va = some g') : g' = g ∧ s = u :=
  read.unique (resolveSegment_of_segmentOf h)

/-- An enabled TRANSLATE is a walk, where the descriptors it may write back lie clear of the MMU window (R201, R357). -/
theorem translate_walk {x : Access} {s t : State} (hs : s.halted = false) (he : s.enable = true)
    (ha : tablesApart params s x.va = true)
    (hg : (params.ssl x.va).toNat ≤ (params.sectLen (s.sramb.get (params.sid x.va))).toNat → ∃ g, segmentOf params s x.va = some g)
    (h : exec (.translate x.acc x.lvl x.se x.va) s = .next t) :
    ∃ e v, Walk x (begun x s) e v ∧ Answers s t (e.answer x) ∧ t = (e.record x v).respond (e.answer x) := by
  simp only [tablesApart, Bool.and_eq_true, Bool.not_eq_true'] at ha
  obtain ⟨segment, page⟩ := ha
  have segmentClear : inMmuWindow params (sdAddr params (begun x s) x.va) = false := by simpa using segment
  obtain ⟨e, v, walk, ends⟩ := translateEnabled_walk (x := x) (s := begun x s) (fun _ => segmentClear) fun _ bound g u read hc => by
    obtain ⟨g', hg⟩ := hg (by simpa using bound)
    obtain ⟨rfl, -⟩ := read.eq_of_segmentOf (by simpa using hg)
    simp only [hg, hc, Bool.false_or, Bool.and_eq_true, Bool.not_eq_true'] at page
    obtain ⟨⟨pageClear, -⟩, -⟩ := page
    exact pageClear
  exact ⟨e, v, exec_translate_of_walk hs he walk ends h⟩

/-- A paged descriptor's tables lie apart. -/
theorem tablesApart_paged {s : State} {va : Word} {g : SegInHand} (ha : tablesApart params s va = true)
    (hg : segmentOf params s va = some g) (hc : params.contiguous g.sd0 = false) :
    pdAddr params va g.sd1 ≠ sdAddr params s va ∧ pdAddr params va g.sd1 ≠ sdAddr params s va + 4 := by
  simp only [tablesApart, hg, hc, Bool.and_eq_true, Bool.false_or, bne_iff_ne] at ha
  obtain ⟨-, ⟨-, first⟩, second⟩ := ha
  exact ⟨first, second⟩

theorem DrawsOnly.plainWord {s u : State} (h : DrawsOnly s u) (pa : Word) : plainWord params u pa = plainWord params s pa := by
  rw [h]
  rfl

/-- Past the segment half the page descriptor at hand is the one before it, the tables lying apart. -/
theorem SegmentHalf.pageOf_eq {x : Access} {s u t : State} {g : SegInHand} (read : SegmentRead x s g u) (half : SegmentHalf x g u t)
    (h : pdAddr params x.va g.sd1 ≠ sdAddr params s x.va) : pageOf params t x.va g = pageOf params s x.va g := by
  have pdc : t.pdc = s.pdc := by rw [half.eq, read.draws]
  have plain : plainWord params t (pdAddr params x.va g.sd1) = plainWord params s (pdAddr params x.va g.sd1) := by
    rw [half.word.plain _ (pdAddr_aligned ..) (by rw [read.sda]; exact h), read.draws.plainWord]
  unfold pageOf
  rw [pdc, plain]

/-! #### The verdict -/

theorem verdictSegment_unusable {g : SegInHand} (h : segmentUsable params g = false) (x : Access) (s : State) :
    verdictSegment params s x g = some ((checkEnding g).answer x) := by
  unfold verdictSegment checkEnding
  cases hv : params.valid g.sd0 with
  | false => simp [Ending.answer]
  | true =>
    cases hi : params.indirect g.sd0 with
    | true => simp [Ending.answer]
    | false =>
      have hp : params.present g.sd0 = false := by simpa [segmentUsable, hv, hi] using h
      simp [Ending.answer, hp]

theorem verdictSegment_usable {g : SegInHand} (h : segmentUsable params g = true) (x : Access) (s : State) :
    verdictSegment params s x g =
      if x.se = true ∧ params.objectTrap g.sd0 = true then some (failure x .otrap)
      else if params.contiguous g.sd0 then some (verdictContiguous params x g)
      else verdictPaged params s x g := by
  simp only [segmentUsable, Bool.and_eq_true, Bool.not_eq_true'] at h
  simp [verdictSegment, h]

/-- Within the section bound the verdict is that on the segment descriptor at hand. -/
theorem verdict_within {x : Access} {s : State} (he : s.enable = true)
    (bound : (params.ssl x.va).toNat ≤ (params.sectLen (s.sramb.get (params.sid x.va))).toNat) :
    verdict params s x = (segmentOf params s x.va).bind (verdictSegment params s x) := by
  rw [verdict, params_enabled, he, if_neg (by simp), if_neg (Nat.not_lt.mpr bound)]

/-- Where there is a verdict within the section bound, a segment descriptor is at hand. -/
theorem segmentOf_of_verdict {x : Access} {s : State} {r : Response} (he : s.enable = true) (hv : verdict params s x = some r)
    (bound : (params.ssl x.va).toNat ≤ (params.sectLen (s.sramb.get (params.sid x.va))).toNat) :
    ∃ g, segmentOf params s x.va = some g := by
  rw [verdict_within he bound] at hv
  exact (Option.bind_eq_some_iff.mp hv).imp fun _ h => h.1

/-- A walk ends with the verdict, wherever there is one. -/
theorem Walk.answer_eq_verdict {x : Access} {s v : State} {e : Ending} {r : Response} (w : Walk x s e v) (he : s.enable = true)
    (ha : tablesApart params s x.va = true) (hv : verdict params s x = some r) : e.answer x = r := by
  have within (bound : (params.ssl x.va).toNat ≤ (params.sectLen (s.sramb.get (params.sid x.va))).toNat) {g : SegInHand} {u : State}
      (read : SegmentRead x s g u) : segmentOf params s x.va = some g ∧ verdictSegment params s x g = some r := by
    rw [verdict_within he bound] at hv
    obtain ⟨g', hg, hv⟩ := Option.bind_eq_some_iff.mp hv
    obtain ⟨rfl, -⟩ := read.eq_of_segmentOf hg
    exact ⟨hg, hv⟩
  cases w with
  | beyondSection beyond => simpa [verdict, he, beyond, Ending.answer] using hv
  | unusable bound read unusable => simpa [verdictSegment_unusable unusable] using (within bound read).2
  | @usable _ g u t _ bound read usable half rest =>
    obtain ⟨hg, hv⟩ := within bound read
    rw [verdictSegment_usable usable] at hv
    have pdc : t.pdc = s.pdc := by rw [half.eq, read.draws]
    cases rest with
    | trapped trap => simpa [trap, Ending.answer] using hv
    | contiguous noTrap cont verdict => simpa [noTrap, cont, verdict] using hv
    | beyondPages noTrap paged miss beyond =>
      rw [pdc] at miss
      simpa [noTrap, paged, verdictPaged, miss, beyond, Ending.answer] using hv
    | @page _ q _ _ noTrap paged pageRead verdict =>
      have inside := pageRead.within
      rw [pdc] at inside
      rw [if_neg noTrap, if_neg (by simp [paged]), verdictPaged, if_neg inside] at hv
      obtain ⟨q', hq', rfl⟩ := Option.map_eq_some_iff.mp hv
      rw [pageRead.unique q' ((half.pageOf_eq read (tablesApart_paged ha hg paged).1).trans hq'), verdict]

/-- Settles O43: disabled the address stands, enabled the walk ends with the verdict. -/
theorem translateAnswersTheVerdict : Obligations.TranslateAnswersTheVerdict := by
  intro acc lvl se va s r hs ha hv
  cases he : s.enable with
  | false =>
    refine ⟨_, exec_translate_disabled hs he acc lvl se va, ?_⟩
    simp only [verdict, params_enabled, he, if_true, Option.some.injEq] at hv
    rw [← hv]
    rfl
  | true =>
    obtain ⟨t, h⟩ := exec_next (.translate acc lvl se va) s
    obtain ⟨e, v, walk, answers, -⟩ := translate_walk (x := ⟨va, acc, lvl, se⟩) hs he ha
      (segmentOf_of_verdict he hv) h
    refine ⟨t, h, ?_⟩
    rwa [walk.answer_eq_verdict (by simpa using he) (by simpa using ha) ((verdict_begun ..).trans hv)] at answers

end Sys2Proof.Machine

/-! ### What a TRANSLATE leaves

Write-backs and cache fills of a TRANSLATE with its descriptors clear of the MMU window, read off its walk (R179 to R182, R189, R190,
R195). -/

namespace Sys2Proof.Machine

/-! #### Words in RAM -/

/-- The number at an address is that of its bytes. -/
theorem bigEndian_congr {m m' : Memory} {a : Nat} {w : Width}
    (h : ∀ b, a ≤ b → b < a + w.bytes → Memory.read m b = Memory.read m' b) : bigEndian m a w = bigEndian m' a w := by
  cases w with
  | byte => simp only [bigEndian, h a (by omega) (by simp [Width.bytes])]
  | half => simp only [bigEndian, h a (by omega) (by simp [Width.bytes]), h (a + 1) (by omega) (by simp [Width.bytes])]
  | word =>
    simp only [bigEndian, h a (by omega) (by simp [Width.bytes]), h (a + 1) (by omega) (by simp [Width.bytes]),
      h (a + 2) (by omega) (by simp [Width.bytes]), h (a + 3) (by omega) (by simp [Width.bytes])]

section
variable {pa qa old w : Word} {s t : State} (h : WordUpdated pa old w s t)
include h

theorem WordUpdated.bigEndian_eq (hr : regionOf params pa = .ram) :
    bigEndian t.ram pa.toNat .word = if w = old then bigEndian s.ram pa.toNat .word else w.toNat := by
  split
  · rw [h.same ‹_›]
  · rw [bigEndian_word, h.changed ‹_› hr]

theorem WordUpdated.bigEndian_other (hp : Width.word.aligned pa = true) (hq : Width.word.aligned qa = true) (hne : qa ≠ pa) :
    bigEndian t.ram qa.toNat .word = bigEndian s.ram qa.toNat .word := by
  have apart := aligned_apart hq hp hne
  exact bigEndian_congr fun b low high => h.other b (by simp only [Width.bytes] at high; omega)

end

/-! #### The segment descriptor -/

section
variable {x : Access} {g : SegInHand} {q : PageInHand} {s t v : State} {e : Ending}

/-- With a usable segment descriptor at hand a walk has both its halves. -/
theorem Walk.past_checks (walk : Walk x s e v) (bound : (params.ssl x.va).toNat ≤ (params.sectLen (s.sramb.get (params.sid x.va))).toNat)
    (hg : segmentOf params s x.va = some g) (usable : segmentUsable params g = true) :
    ∃ t, SegmentHalf x g s t ∧ Rest x g t e v := by
  cases walk with
  | beyondSection beyond => omega
  | unusable _ read unusable =>
    obtain ⟨rfl, rfl⟩ := read.eq_of_segmentOf hg
    simp [usable] at unusable
  | usable _ read _ half rest =>
    obtain ⟨rfl, rfl⟩ := read.eq_of_segmentOf hg
    exact ⟨_, half, rest⟩

/-- The rest of a walk leaves the SDC. -/
theorem Rest.sdc (rest : Rest x g t e v) : v.sdc = t.sdc := by
  rw [rest.eq]

/-- The rest of a walk changes no word of RAM but that of the page descriptor. -/
theorem Rest.bigEndian_other {qa : Word} (rest : Rest x g t e v) (hq : Width.word.aligned qa = true)
    (h : params.contiguous g.sd0 = false → qa ≠ pdAddr params x.va g.sd1) :
    bigEndian v.ram qa.toNat .word = bigEndian t.ram qa.toNat .word := by
  cases rest with
  | trapped | contiguous | beyondPages => rfl
  | page _ paged read _ half =>
    rw [half.word.bigEndian_other (by rw [read.pda]; exact pdAddr_aligned ..) hq (by rw [read.pda]; exact h paged), read.draws]

end

/-- Settles O49: the segment half leaves the word, the page half another one. -/
theorem segmentDescriptorWriteBack : Obligations.SegmentDescriptorWriteBack := by
  intro acc lvl se va s t g hs he _ bound ha hg usable hr h
  obtain ⟨e, v, walk, -, rfl⟩ := translate_walk (x := ⟨va, acc, lvl, se⟩) hs he ha (fun _ => ⟨g, hg⟩) h
  obtain ⟨m, half, rest⟩ := walk.past_checks (by simpa using bound) (by simpa using hg) usable
  have sda := segmentOf_sda hg
  have apart : params.contiguous g.sd0 = false → g.sda ≠ pdAddr params va g.sd1 := fun paged => by
    rw [sda]
    exact (tablesApart_paged ha hg paged).1.symm
  rw [State.respond_ram, Ending.record_ram, rest.bigEndian_other (by rw [sda]; exact sdAddr_aligned ..) apart,
    half.word.bigEndian_eq hr, begun_ram]

/-! #### The page descriptor -/

section
variable {x : Access} {g : SegInHand} {q : PageInHand} {s t v : State} {e : Ending}

theorem pageOf_hit (hq : pageOf params s x.va g = some q) : q.hit = false ↔ lookupPage (pdcKey params x.va) s.pdc = none := by
  unfold pageOf at hq
  cases hl : lookupPage (pdcKey params x.va) s.pdc with
  | some n =>
    rw [hl] at hq
    cases hq
    simp
  | none =>
    simp only [hl, Option.map_eq_some_iff] at hq
    obtain ⟨pd, -, rfl⟩ := hq
    simp

/-- The segment half leaves the PDC. -/
theorem SegmentHalf.pdc {u : State} (read : SegmentRead x s g u) (half : SegmentHalf x g u t) : t.pdc = s.pdc := by
  rw [half.eq, read.draws]

/-- With a paged segment descriptor at hand a walk comes to its page descriptor, or it ends before, with no address. -/
theorem Walk.page_cases (walk : Walk x s e v) (ha : tablesApart params s x.va = true) (hg : segmentOf params s x.va = some g)
    (paged : params.contiguous g.sd0 = false) (hq : pageOf params s x.va g = some q) :
    (pageReached params s x g q ∧ ∃ t u, SegmentHalf x g s t ∧ DrawsOnly t u ∧ PageHalf x g q (e.pageWord x q) u v) ∨
      (¬ pageReached params s x g q ∧ (∀ pa, e ≠ .gives pa) ∧ (v = s ∨ SegmentHalf x g s v)) := by
  cases walk with
  | beyondSection beyond => exact .inr ⟨fun reached => by have := reached.1; omega, by simp, .inl rfl⟩
  | unusable _ read unusable =>
    obtain ⟨rfl, rfl⟩ := read.eq_of_segmentOf hg
    exact .inr ⟨fun reached => by simp [reached.2.1] at unusable, checkEnding_ne_gives _, .inl rfl⟩
  | usable bound read usable half rest =>
    obtain ⟨rfl, rfl⟩ := read.eq_of_segmentOf hg
    have pdc := half.pdc read
    cases rest with
    | trapped trap => exact .inr ⟨fun ⟨_, _, noTrap, _⟩ => noTrap trap, by simp, .inr half⟩
    | contiguous _ cont => simp [paged] at cont
    | beyondPages _ _ miss beyond =>
      rw [pdc, ← pageOf_hit hq] at miss
      refine .inr ⟨fun ⟨_, _, _, _, inside⟩ => ?_, by simp, .inr half⟩
      rcases inside with hit | within
      · simp [miss] at hit
      · omega
    | page noTrap _ pageRead _ done =>
      obtain rfl := pageRead.unique _ ((half.pageOf_eq read (tablesApart_paged ha hg paged).1).trans hq)
      refine .inl ⟨⟨bound, usable, noTrap, paged, ?_⟩, _, _, half, pageRead.draws, done⟩
      cases hit : q.hit with
      | true => exact .inl rfl
      | false => exact .inr (Nat.not_lt.mp fun beyond => pageRead.within ⟨pageRead.miss hit, beyond⟩)

@[simp] theorem pageReached_begun : pageReached params (begun x s) x g q ↔ pageReached params s x g q := by
  rw [begun_eq]
  rfl

end

/-- Settles O50: `Walk.page_cases` says what the walk has done to the word, and how that depends on its ending. -/
theorem pageDescriptorWriteBack : Obligations.PageDescriptorWriteBack := by
  intro acc lvl se va s t g q hs he _ ha hg paged hq hr h
  obtain ⟨e, v, walk, answers, rfl⟩ := translate_walk (x := ⟨va, acc, lvl, se⟩) hs he ha (fun _ => ⟨g, hg⟩) h
  have pda := pageOf_pda hq
  have aligned : Width.word.aligned q.pda = true := by rw [pda]; exact pdAddr_aligned ..
  have apart : q.pda ≠ g.sda := by
    rw [pda, segmentOf_sda hg]
    exact (tablesApart_paged ha hg paged).1
  have segmentHalf {m : State} (half : SegmentHalf ⟨va, acc, lvl, se⟩ g (begun ⟨va, acc, lvl, se⟩ s) m) :
      bigEndian m.ram q.pda.toNat .word = bigEndian s.ram q.pda.toNat .word := by
    rw [half.word.bigEndian_other (by rw [segmentOf_sda hg]; exact sdAddr_aligned ..) aligned apart, begun_ram]
  simp only [answers.iff_eq, State.respond_ram, Ending.record_ram]
  rcases walk.page_cases (by simpa using ha) (by simpa using hg) paged (by simpa using hq) with
    ⟨reached, m, u, half, draws, done⟩ | ⟨missed, noAddress, left⟩
  · have word : bigEndian v.ram q.pda.toNat .word =
        if e.pageWord ⟨va, acc, lvl, se⟩ q = q.pd then bigEndian s.ram q.pda.toNat .word else (e.pageWord ⟨va, acc, lvl, se⟩ q).toNat := by
      rw [done.word.bigEndian_eq hr, draws, segmentHalf half]
    refine ⟨fun _ ⟨pa, hpa⟩ => ?_, fun _ hpa => ?_, fun missed => absurd (by simpa using reached) missed⟩
    · rw [word, Ending.answer_eq_value hpa, Ending.pageWord]
    · rw [word]
      cases e with
      | gives pa => exact absurd rfl (hpa pa)
      | fails | stops => rfl
  · rw [pageReached_begun] at missed
    refine ⟨fun reached => absurd reached missed, fun reached => absurd reached missed,
      fun _ => ⟨fun pa hpa => noAddress pa (Ending.answer_eq_value hpa), ?_⟩⟩
    rcases left with rfl | half
    · rw [begun_ram]
    · exact segmentHalf half

/-- Settles O51: a miss under side effects puts the entry first in its cache. -/
theorem missFillsTheCaches : Obligations.MissFillsTheCaches := by
  intro acc lvl va s t g hs he bound ha hg usable h
  obtain ⟨e, v, walk, -, rfl⟩ := translate_walk (x := ⟨va, acc, lvl, true⟩) hs he ha (fun _ => ⟨g, hg⟩) h
  simp only [State.respond_sdc, State.respond_pdc, Ending.record_sdc, Ending.record_pdc]
  refine ⟨fun miss => ?_, fun q noTrap paged hq miss within present => ?_⟩
  · obtain ⟨m, half, rest⟩ := walk.past_checks (by simpa using bound) (by simpa using hg) usable
    obtain ⟨kept, -, filled⟩ := half.filled rfl miss
    rw [rest.sdc, filled]
    exact lookupSegment_cons_self ..
  · have reached : pageReached params s ⟨va, acc, lvl, true⟩ g q := ⟨bound, usable, by simp [noTrap], paged, .inr within⟩
    rcases walk.page_cases (by simpa using ha) (by simpa using hg) paged (by simpa using hq) with
      ⟨-, m, u, -, -, done⟩ | ⟨missed, -⟩
    · obtain ⟨kept, -, filled⟩ := done.filled rfl miss present
      rw [filled]
      exact lookupPage_cons_self ..
    · exact absurd (pageReached_begun.mpr reached) missed

end Sys2Proof.Machine

/-! ### Two identical translations

After a walk that gives an address the descriptors at hand are the same, as far as the verdict and the tables' layout read them (R201). -/

namespace Sys2Proof.Machine

/-! #### The verdict and the written-back SD0 -/

section
variable (x : Access) (g : SegInHand)

@[simp] theorem segmentUsable_segmentWord : segmentUsable params { g with sd0 := segmentWord params x g } = segmentUsable params g := by
  simp only [segmentUsable, segmentWord_agrees _ valid_setR valid_setM, segmentWord_agrees _ indirect_setR indirect_setM,
    segmentWord_agrees _ present_setR present_setM]

end

/-- The bits written back to SD0 make no difference to the verdict on a usable descriptor. -/
theorem verdictSegment_congr {x : Access} {g g' : SegInHand} (usable : segmentUsable params g = true) (h1 : g'.sd1 = g.sd1)
    (h0 : g'.sd0 = g.sd0 ∨ g'.sd0 = segmentWord params x g) (s : State) : verdictSegment params s x g' = verdictSegment params s x g := by
  obtain ⟨sda, sd0, sd1, hit⟩ := g'
  obtain rfl : sd1 = g.sd1 := h1
  have unwritten (w : Word) : verdictSegment params s x ⟨sda, w, g.sd1, hit⟩ = verdictSegment params s x { g with sd0 := w } := rfl
  rw [unwritten]
  rcases h0 with rfl | rfl
  · rfl
  · rw [verdictSegment_usable usable, verdictSegment_usable (by simpa using usable)]
    simp [verdictPaged, funext (verdictPage_segmentWord x g)]

theorem verdictPage_eq_value {x : Access} {g : SegInHand} {q : PageInHand} {pa : Word} (h : verdictPage params x g q = .value pa) :
    params.pagePresent q.pd = true ∧ pa = params.pageBase q.pd + params.pot x.va := by
  rcases verdictPage_cases x g q with ⟨c, hc, -⟩ | ⟨hv, present⟩
  · exact (failure_ne_value _ _ _ (hc.symm.trans h)).elim
  · rw [hv] at h
    cases h
    exact ⟨present, rfl⟩

/-! #### The descriptors after a walk -/

section
variable {x : Access} {g : SegInHand} {q : PageInHand} {s t u v : State} {e : Ending}

theorem plainWord_congr (hr : t.ram = s.ram) (hm : t.rom = s.rom) (pa : Word) : plainWord params t pa = plainWord params s pa := by
  unfold plainWord
  rw [hr, hm]

/-- The descriptor word in plain memory after its update: the old one with nothing to write or where nothing can be written. -/
theorem SegmentHalf.plainWord_sda (half : SegmentHalf x g s t) (h : plainWord params s g.sda = some g.sd0) :
    ∃ w, plainWord params t g.sda = some w ∧ (w = g.sd0 ∨ w = segmentWord params x g) := by
  have rom : t.rom = s.rom := by rw [half.eq]
  by_cases changed : segmentWord params x g ≠ g.sd0 ∧ regionOf params g.sda = .ram
  · obtain ⟨hw, hr⟩ := changed
    refine ⟨_, ?_, .inr rfl⟩
    simp only [plainWord, hr, half.word.changed hw hr]
  · have ram : t.ram = s.ram := by
      by_cases hw : segmentWord params x g = g.sd0
      · exact half.word.same hw
      · exact half.word.elsewhere fun hr => changed ⟨hw, hr⟩
    exact ⟨_, (plainWord_congr ram rom _).trans h, .inl rfl⟩

/-- A segment descriptor is at hand in the SDC, or on a miss in plain memory. -/
theorem segmentOf_cases (hg : segmentOf params s x.va = some g) :
    (g.hit = true ∧ lookupSegment (sdcKey params x.va) s.sdc = some ⟨sdcKey params x.va, g.sd0, g.sd1⟩) ∨
      (g.hit = false ∧ lookupSegment (sdcKey params x.va) s.sdc = none ∧ plainWord params s (sdAddr params s x.va) = some g.sd0 ∧
        plainWord params s (sdAddr params s x.va + 4) = some g.sd1) := by
  unfold segmentOf at hg
  split at hg
  · rename_i n hl
    have key : n.key = sdcKey params x.va := by simpa using List.find?_some hl
    cases hg
    exact .inl ⟨rfl, by rw [hl, ← key]⟩
  · rename_i hl
    split at hg
    · rename_i h0 h1
      cases hg
      exact .inr ⟨rfl, hl, h0, h1⟩
    · cases hg

/-- After the segment half the descriptor at hand is the same but for the bits written back. -/
theorem SegmentHalf.segmentOf_after (half : SegmentHalf x g s t) (hg : segmentOf params s x.va = some g) :
    ∃ g', segmentOf params t x.va = some g' ∧ g'.sd1 = g.sd1 ∧ (g'.sd0 = g.sd0 ∨ g'.sd0 = segmentWord params x g) := by
  have address : sdAddr params t x.va = sdAddr params s x.va := by rw [half.eq]; rfl
  have sda := segmentOf_sda hg
  have cached (h : lookupSegment (sdcKey params x.va) t.sdc = some ⟨sdcKey params x.va, g.sd0, g.sd1⟩) :
      segmentOf params t x.va = some ⟨sdAddr params t x.va, g.sd0, g.sd1, true⟩ := by
    unfold segmentOf
    rw [h]
  rcases segmentOf_cases hg with ⟨hit, hl⟩ | ⟨miss, hl, h0, h1⟩
  · exact ⟨_, cached (by rw [half.hit hit, hl]), rfl, .inl rfl⟩
  · cases hse : x.se with
    | true =>
      obtain ⟨kept, -, filled⟩ := half.filled hse miss
      exact ⟨_, cached (by rw [filled]; exact lookupSegment_cons_self ..), rfl, .inl rfl⟩
    | false =>
      obtain ⟨w, hw, changed⟩ := half.plainWord_sda (by rw [sda, h0])
      have second := half.word.plain _ (sdAddr_add_four_aligned s x.va) (by rw [sda]; simp)
      refine ⟨⟨sdAddr params t x.va, w, g.sd1, false⟩, ?_, rfl, changed⟩
      unfold segmentOf
      rw [(half.peek hse).1, hl, address, ← sda, hw, sda, second, h1]

/-- The rest of a walk leaves the segment descriptor at hand. -/
theorem Rest.segmentOf_eq (rest : Rest x g t e v)
    (apart : params.contiguous g.sd0 = false → pdAddr params x.va g.sd1 ≠ sdAddr params t x.va ∧
      pdAddr params x.va g.sd1 ≠ sdAddr params t x.va + 4) : segmentOf params v x.va = segmentOf params t x.va := by
  cases rest with
  | trapped | contiguous | beyondPages => rfl
  | page _ paged read _ half =>
    have word (qa : Word) (ha : Width.word.aligned qa = true) (hne : pdAddr params x.va g.sd1 ≠ qa) :
        plainWord params v qa = plainWord params t qa := by
      rw [half.word.plain qa ha (by rw [read.pda]; exact hne.symm), read.draws.plainWord]
    have sdc : v.sdc = t.sdc := by rw [half.eq, read.draws]
    have address : sdAddr params v x.va = sdAddr params t x.va := by rw [half.eq, read.draws]; rfl
    unfold segmentOf
    rw [sdc, address, word _ (sdAddr_aligned ..) (apart paged).1, word _ (sdAddr_add_four_aligned ..) (apart paged).2]

/-- After the page half of a present page the same page descriptor word is at hand, but for the bits written back. -/
theorem PageHalf.pageOf_after {w : Word} (half : PageHalf x g q w u v) (hq : pageOf params u x.va g = some q)
    (present : params.pagePresent q.pd = true) : ∃ q', pageOf params v x.va g = some q' ∧ q'.pd = q.pd := by
  cases hse : x.se with
  | false => exact ⟨q, by rw [half.idle hse, hq], rfl⟩
  | true =>
    have cached (h : lookupPage (pdcKey params x.va) v.pdc = some ⟨pdcKey params x.va, q.pd, params.rights g.sd0⟩) :
        pageOf params v x.va g = some ⟨pdAddr params x.va g.sd1, q.pd, params.rights g.sd0, true⟩ := by
      unfold pageOf
      rw [h]
    cases hit : q.hit with
    | true =>
      cases hl : lookupPage (pdcKey params x.va) u.pdc with
      | none => simp [(pageOf_hit hq).mpr hl] at hit
      | some n =>
        refine ⟨q, ?_, rfl⟩
        rw [← hq, pageOf, pageOf, half.unfilled (.inl hit), hl]
    | false =>
      obtain ⟨kept, -, filled⟩ := half.filled hse hit present
      exact ⟨_, cached (by rw [filled]; exact lookupPage_cons_self ..), rfl⟩

/-- Past a walk that gives an address there is a verdict again, and no other address (R201). -/
theorem Walk.verdict_after {pa : Word} {r : Response} (walk : Walk x s (.gives pa) v) (he : s.enable = true)
    (ha : tablesApart params s x.va = true) (hv : verdict params s x = some r) :
    tablesApart params v x.va = true ∧ ∃ r, verdict params v x = some r ∧ ∀ pb, r = .value pb → pb = pa := by
  have enable : v.enable = true := by rw [walk.eq]; exact he
  have sramb : v.sramb = s.sramb := by rw [walk.eq]
  have address : sdAddr params v x.va = sdAddr params s x.va := by rw [walk.eq]; rfl
  generalize ending : Ending.gives pa = e at walk
  cases walk with
  | beyondSection => cases ending
  | unusable => exact (checkEnding_ne_gives _ _ ending.symm).elim
  | @usable _ g _ t _ bound read usable half rest =>
    rw [verdict_within he bound] at hv
    obtain ⟨g0, hg, hv⟩ := Option.bind_eq_some_iff.mp hv
    obtain ⟨rfl, rfl⟩ := read.eq_of_segmentOf hg
    have apart (paged) := tablesApart_paged ha hg paged
    obtain ⟨g', hg', sd1, sd0⟩ := half.segmentOf_after hg
    have hgv : segmentOf params v x.va = some g' := by
      rw [rest.segmentOf_eq (by rw [half.eq]; exact apart), hg']
    have contiguous : params.contiguous g'.sd0 = params.contiguous g0.sd0 := by
      rcases sd0 with sd0 | sd0 <;> simp [sd0]
    have verdict : verdict params v x = verdictSegment params v x g0 := by
      rw [verdict_within enable (by rw [sramb]; exact bound), hgv, Option.bind_some, verdictSegment_congr usable sd1 sd0]
    rw [verdict, verdictSegment_usable usable]
    refine ⟨by simpa [tablesApart, hg, hgv, contiguous, sd1, address] using ha, ?_⟩
    cases rest with
    | trapped | beyondPages => cases ending
    | contiguous noTrap cont verdict =>
      subst ending
      exact ⟨.value pa, by rw [if_neg noTrap, if_pos cont, verdict]; rfl, fun pb h => by cases h; rfl⟩
    | page noTrap paged pageRead verdict done =>
      subst ending
      have inside := pageRead.within
      rw [half.pdc read] at inside
      rw [verdictSegment_usable usable, if_neg noTrap, if_neg (by simp [paged]), verdictPaged, if_neg inside] at hv
      obtain ⟨q, hq, -⟩ := Option.map_eq_some_iff.mp hv
      have hqt := (half.pageOf_eq read (apart paged).1).trans hq
      obtain rfl := pageRead.unique q hqt
      obtain ⟨present, rfl⟩ := verdictPage_eq_value verdict
      obtain ⟨q', hqv, pd⟩ := done.pageOf_after (by rw [pageRead.draws]; exact hqt) present
      rw [if_neg noTrap, if_neg (by simp [paged]), verdictPaged]
      split
      · exact ⟨_, rfl, fun pb h => (failure_ne_value _ _ _ h).elim⟩
      · exact ⟨_, by rw [hqv]; rfl, fun pb h => by rw [(verdictPage_eq_value h).2, pd]⟩

end

/-- Settles O54: by `Walk.verdict_after` there is a verdict on the second translation, and by O43 it is what that answers. -/
theorem translationIsIdempotent : Obligations.TranslationIsIdempotent := by
  intro acc lvl se va pa pb s t u _ ha hv h hpa h' hpb
  obtain ⟨r, hv⟩ := Option.ne_none_iff_exists'.mp hv
  have running : s.halted = false := by
    cases hs : s.halted with
    | false => rfl
    | true =>
      rw [exec_halted (by simp) hs] at h
      cases h
      simp [Answers] at hpa
  cases he : s.enable with
  | false =>
    rw [exec_translate_disabled running he] at h
    cases h
    rw [exec_translate_disabled (s := s.respond (.value va)) running he] at h'
    cases h'
    cases hpa
    cases hpb
    rfl
  | true =>
    obtain ⟨e, v, walk, answers, rfl⟩ := translate_walk (x := ⟨va, acc, lvl, se⟩) running he ha (segmentOf_of_verdict he hv) h
    obtain rfl := Ending.answer_eq_value ((answers.iff_eq _).mp hpa)
    obtain ⟨apart, q, verdict, unique⟩ :=
      walk.verdict_after (by simpa using he) (by simpa using ha) ((verdict_begun ..).trans hv)
    have stays : v.halted = false := by rw [walk.eq, begun_eq]; exact running
    obtain ⟨w, h'', answers'⟩ := translateAnswersTheVerdict acc lvl se va (v.respond (.value pa)) q stays apart verdict
    obtain rfl : w = u := by simpa using h''.symm.trans h'
    exact (unique pb ((answers'.iff_eq _).mp hpb)).symm

end Sys2Proof.Machine

/-! ### The frame of a TRANSLATE

What each ending of a walk leaves of the caches, RAM and the I/O log (R189, R200), and from it the frame of a side-effect TRANSLATE. -/

namespace Sys2Proof.Machine

section
variable {x : Access} {g : SegInHand} {s t v : State} {e : Ending}

/-! #### The caches -/

/-- The segment half changes the SDC only where its lookup misses, by the address's own entry. -/
theorem SegmentHalf.sdc_cases {u : State} (read : SegmentRead x s g u) (half : SegmentHalf x g u t) :
    t.sdc = s.sdc ∨ lookupSegment (sdcKey params x.va) s.sdc = none ∧
      ∃ n kept, n.key = sdcKey params x.va ∧ kept.Sublist s.sdc ∧ t.sdc = n :: kept := by
  have sdc : u.sdc = s.sdc := by rw [read.draws]
  cases hse : x.se with
  | false => exact .inl ((half.peek hse).1.trans sdc)
  | true =>
    cases hit : g.hit with
    | true => exact .inl ((half.hit hit).trans sdc)
    | false =>
      obtain ⟨kept, part, filled⟩ := half.filled hse hit
      exact .inr ⟨read.miss hit, _, kept, rfl, sdc ▸ part, filled⟩

/-- A walk changes the SDC only where its lookup misses, by the address's own entry. -/
theorem Walk.sdc_cases (walk : Walk x s e v) :
    v.sdc = s.sdc ∨ lookupSegment (sdcKey params x.va) s.sdc = none ∧
      ∃ n kept, n.key = sdcKey params x.va ∧ kept.Sublist s.sdc ∧ v.sdc = n :: kept := by
  cases walk with
  | beyondSection => exact .inl rfl
  | unusable _ read => exact .inl (by rw [read.draws])
  | usable _ read _ half rest =>
    rw [rest.sdc]
    exact half.sdc_cases read

/-- What the rest of a walk does to the PDC: nothing for a trap, a contiguous segment, or a page beyond the bound or not present; else the
address's own entry comes where the lookup misses. -/
theorem Rest.pdc_cases (rest : Rest x g t e v) :
    v.pdc = t.pdc ∨ (params.contiguous g.sd0 = false ∧ e ≠ .fails .otrap ∧ e ≠ .fails .pdtlen ∧ e ≠ .fails .pageNotPres) ∧
      lookupPage (pdcKey params x.va) t.pdc = none ∧ ∃ n kept, n.key = pdcKey params x.va ∧ kept.Sublist t.pdc ∧ v.pdc = n :: kept := by
  cases rest with
  | trapped | contiguous | beyondPages => exact .inl rfl
  | @page _ q u _ noTrap paged read verdict half =>
    have pdc : u.pdc = t.pdc := by rw [read.draws]
    by_cases unfilled : q.hit = true ∨ x.se = false ∨ params.pagePresent q.pd = false
    · exact .inl ((half.unfilled unfilled).trans pdc)
    · obtain ⟨miss, side, present⟩ : q.hit = false ∧ x.se = true ∧ params.pagePresent q.pd = true := by simpa using unfilled
      obtain ⟨kept, part, filled⟩ := half.filled side miss present
      refine .inr ⟨⟨paged, ?_⟩, read.miss miss, _, kept, rfl, pdc ▸ part, filled⟩
      rcases verdictPage_cases x g q with ⟨c, hc, codes⟩ | ⟨hv, -⟩
      · obtain rfl := Ending.answer_eq_failure (verdict.symm.trans hc)
        rcases codes with rfl | rfl | ⟨-, absent⟩ | rfl
        · simp
        · simp
        · simp [present] at absent
        · simp
      · obtain rfl := Ending.answer_eq_value (verdict.symm.trans hv)
        simp

/-- The endings before the segment half (R173, R176 to R178). -/
def Ending.early : Ending → Bool
  | gives _ => false
  | fails .sdtlen | fails .invSd | fails .segNotPres | fails .pdtNotPres | stops => true
  | fails .otrap | fails .acc | fails .segOffset | fails .pdtlen | fails .pageNotPres | fails .pw => false

theorem Rest.early_eq_false (rest : Rest x g t e v) : e.early = false := by
  cases rest with
  | trapped | beyondPages => rfl
  | contiguous _ _ verdict =>
    rcases verdictContiguous_cases x g with ⟨c, hc, codes⟩ | hv
    · obtain rfl := Ending.answer_eq_failure (verdict.symm.trans hc)
      rcases codes with rfl | rfl <;> rfl
    · rw [Ending.answer_eq_value (verdict.symm.trans hv)]
      rfl
  | @page _ q _ _ _ _ _ verdict =>
    rcases verdictPage_cases x g q with ⟨c, hc, codes⟩ | ⟨hv, -⟩
    · obtain rfl := Ending.answer_eq_failure (verdict.symm.trans hc)
      rcases codes with rfl | rfl | ⟨rfl, -⟩ | rfl <;> rfl
    · rw [Ending.answer_eq_value (verdict.symm.trans hv)]
      rfl

/-- A walk that ends before the segment half leaves both caches. -/
theorem Walk.caches_of_early (walk : Walk x s e v) (h : e.early = true) : v.sdc = s.sdc ∧ v.pdc = s.pdc := by
  cases walk with
  | beyondSection => exact ⟨rfl, rfl⟩
  | unusable _ read => rw [read.draws]; exact ⟨rfl, rfl⟩
  | usable _ _ _ _ rest => simp [rest.early_eq_false] at h

/-- What a walk does to the PDC. -/
theorem Walk.pdc_cases (walk : Walk x s e v) :
    v.pdc = s.pdc ∨ (e ≠ .fails .otrap ∧ e ≠ .fails .pdtlen ∧ e ≠ .fails .pageNotPres) ∧
      (∀ g u, resolveSegment params x s = .go g u → params.contiguous g.sd0 = false) ∧
      lookupPage (pdcKey params x.va) s.pdc = none ∧ ∃ n kept, n.key = pdcKey params x.va ∧ kept.Sublist s.pdc ∧ v.pdc = n :: kept := by
  cases walk with
  | beyondSection => exact .inl rfl
  | unusable _ read => exact .inl (by rw [read.draws])
  | usable _ read _ half rest =>
    rw [← half.pdc read]
    refine rest.pdc_cases.imp_right fun ⟨⟨paged, endings⟩, entry⟩ => ⟨endings, fun g' u' hg => ?_, entry⟩
    rw [(read.unique hg).1, paged]

/-! #### RAM and the I/O log -/

/-- A walk changes no byte of RAM outside the words of its descriptors. -/
theorem Walk.ram_frame (walk : Walk x s e v) {a : Nat} (hs : a < (sdAddr params s x.va).toNat ∨ (sdAddr params s x.va).toNat + 4 ≤ a)
    (hp : ∀ g u, resolveSegment params x s = .go g u → params.contiguous g.sd0 = false →
      a < (pdAddr params x.va g.sd1).toNat ∨ (pdAddr params x.va g.sd1).toNat + 4 ≤ a) : Memory.read v.ram a = Memory.read s.ram a := by
  cases walk with
  | beyondSection => rfl
  | unusable _ read => rw [read.draws]
  | @usable _ g u t _ _ read _ half rest =>
    have first : Memory.read t.ram a = Memory.read s.ram a := by
      rw [half.word.other a (by rw [read.sda]; exact hs), read.draws]
    cases rest with
    | trapped | contiguous | beyondPages => exact first
    | page _ paged pageRead _ done =>
      rw [done.word.other a (by rw [pageRead.pda]; exact hp g u read.eq paged), pageRead.draws, first]

/-- A walk logs I/O writes only where one of its descriptors lies in the I/O region. -/
theorem Walk.ioLog_frame (walk : Walk x s e v) (hs : regionOf params (sdAddr params s x.va) ≠ .io)
    (hp : ∀ g u, resolveSegment params x s = .go g u → params.contiguous g.sd0 = false →
      regionOf params (pdAddr params x.va g.sd1) ≠ .io) : v.ioLog = s.ioLog := by
  cases walk with
  | beyondSection => rfl
  | unusable _ read => rw [read.draws]
  | @usable _ g u t _ _ read _ half rest =>
    have first : t.ioLog = s.ioLog := by
      rw [half.word.io (by rw [read.sda]; exact hs), read.draws]
    cases rest with
    | trapped | contiguous | beyondPages => exact first
    | page _ paged pageRead _ done =>
      rw [done.word.io (by rw [pageRead.pda]; exact hp g u read.eq paged), pageRead.draws, first]

end

/-! #### The whole frame -/

/-- The record of an ending changes FC, FA and `halted` alone. -/
theorem Ending.record_eq (x : Access) (e : Ending) (v : State) :
    e.record x v = { v with fc := (e.record x v).fc, fa := (e.record x v).fa, halted := (e.record x v).halted } := by
  cases e with
  | gives | stops => rfl
  | fails c => rw [record]; split <;> rfl

theorem Ending.record_fault {x : Access} {e : Ending} (h : ∀ c, e ≠ .fails c) (v : State) :
    (e.record x v).fc = v.fc ∧ (e.record x v).fa = v.fa := by
  cases e with
  | gives | stops => exact ⟨rfl, rfl⟩
  | fails c => exact absurd rfl (h c)

theorem Ending.record_halted {x : Access} {e : Ending} (h : e ≠ .stops) (v : State) : (e.record x v).halted = v.halted := by
  cases e with
  | gives => rfl
  | fails c => rw [record]; split <;> rfl
  | stops => exact absurd rfl h

theorem Ending.answer_isRefusal (x : Access) (e : Ending) : (e.answer x).isRefusal = false := by
  cases e with
  | gives | stops => rfl
  | fails c => cases hse : x.se <;> simp [answer, failure, hse, Response.isRefusal]

/-- Settles O48: clause by clause from the frame of the walk and of the record of its ending. -/
theorem translateFrame : Obligations.TranslateFrame := by
  intro acc lvl va s t hs he segment page h
  obtain ⟨e, v, walk, ends⟩ := translateEnabled_walk (x := ⟨va, acc, lvl, true⟩) (s := begun ⟨va, acc, lvl, true⟩ s) (fun _ => segment)
    fun _ _ g u read => page g u read.eq
  obtain ⟨walk, answers, rfl⟩ := exec_translate_of_walk (x := ⟨va, acc, lvl, true⟩) hs he walk ends h
  have fault {c : TransFault} (h : e.answer ⟨va, acc, lvl, true⟩ = .fault c) : e = .fails c := Ending.answer_eq_failure h
  simp only [answers.iff_eq, State.respond_sdc, State.respond_pdc, State.respond_ram, State.respond_ioLog, Ending.record_sdc,
    Ending.record_pdc, Ending.record_ram, Ending.record_ioLog]
  refine ⟨?_, fun noFault => ?_, fun halts => ?_, walk.sdc_cases, walk.pdc_cases.imp_right fun ⟨_, _, entry⟩ => entry,
    fun r hr early => ?_, fun r hr late => ?_, fun g u hg contiguous => ?_, walk.ioLog_frame, fun a => walk.ram_frame⟩
  · rw [State.respond_of_not_refusal _ (e.answer_isRefusal _)]
    have recorded := e.record_eq ⟨va, acc, lvl, true⟩ v
    generalize e.record ⟨va, acc, lvl, true⟩ v = w at recorded ⊢
    rw [recorded, walk.eq]
    rfl
  · obtain ⟨fc, fa⟩ := Ending.record_fault (x := ⟨va, acc, lvl, true⟩) (e := e) (by rintro c rfl; exact noFault c rfl) v
    exact ⟨fc.trans (by rw [walk.eq]; rfl), fa.trans (by rw [walk.eq]; rfl)⟩
  · by_contra noStop
    have stays := Ending.record_halted (x := ⟨va, acc, lvl, true⟩) (e := e) (by rintro rfl; exact noStop rfl) v
    rw [State.respond_halted, stays, walk.eq] at halts
    exact absurd hs (by simpa using halts)
  · refine walk.caches_of_early ?_
    rcases early with rfl | rfl | rfl | rfl | rfl
    · rw [fault hr]; rfl
    · rw [fault hr]; rfl
    · rw [Ending.answer_eq_stop hr]; rfl
    · rw [fault hr]; rfl
    · rw [fault hr]; rfl
  · refine walk.pdc_cases.resolve_right fun ⟨⟨otrap, pdtlen, absent⟩, _⟩ => ?_
    rcases late with rfl | rfl | rfl
    · exact otrap (fault hr)
    · exact pdtlen (fault hr)
    · exact absent (fault hr)
  · refine walk.pdc_cases.resolve_right fun ⟨_, paged, _⟩ => ?_
    simp [paged g u hg] at contiguous

end Sys2Proof.Machine

/-! ### Peeks

What a peek translation and the diagnostic accesses leave (R197, R199, R283, R284, R304): of the block only `halted` and, for a WRITE, the
modified bit of the segment descriptor and the byte deposited. -/

namespace Sys2Proof.Machine

/-! #### Changes of RAM, the I/O log and `halted` alone -/

/-- From `s` to `t` nothing of the block has changed but RAM and `halted`. -/
def MemoryOnly (s t : State) : Prop :=
  t = { s with ram := t.ram, ioLog := t.ioLog, halted := t.halted, refusedMark := t.refusedMark, outcomes := t.outcomes,
               draws := t.draws, drawCount := t.drawCount }

namespace MemoryOnly

variable {s t u : State}

theorem refl (s : State) : MemoryOnly s s := rfl

theorem trans (h : MemoryOnly s t) (k : MemoryOnly t u) : MemoryOnly s u := by
  unfold MemoryOnly at h k ⊢
  rw [k, h]

theorem respond (h : MemoryOnly s t) (b : Bool) (r : Response) : MemoryOnly s ((t.setHalted b).respond r) := by
  unfold MemoryOnly at h
  rw [h]
  rfl

theorem sameBlock (h : MemoryOnly s t) : SameBlock s { t with halted := s.halted, ram := s.ram } := by
  unfold MemoryOnly at h
  rw [h]
  simp [SameBlock]

theorem sameBlock_of_ram (h : MemoryOnly s t) (ram : t.ram = s.ram) : SameBlock s { t with halted := s.halted } := by
  have block := h.sameBlock
  rwa [← ram] at block

end MemoryOnly

theorem DrawsOnly.memoryOnly {s t : State} (h : DrawsOnly s t) : MemoryOnly s t := by
  unfold DrawsOnly at h
  rw [h]
  rfl

/-! #### A byte access -/

theorem Width.aligned_byte (pa : Word) : Width.byte.aligned pa = true := Width.aligned_eq_true (Nat.mod_one _)

theorem physRead_byte_state (pa : Word) (s : State) : DrawsOnly s (physRead params pa .byte s).state := by
  have ha := Width.aligned_byte pa
  cases hr : regionOf params pa with
  | rom => rw [physRead_rom ha hr]; exact .refl s
  | ram => rw [physRead_ram ha hr]; exact .refl s
  | unmapped => rw [physRead_unmapped ha hr]; exact .refl s
  | io =>
    cases hw : inMmuWindow params pa with
    | true => rw [physRead_window ha hr hw]; exact .refl s
    | false => rw [physRead_device ha hr hw]; exact s.drawWord_drawsOnly

theorem physWrite_byte_state (pa v : Word) (s : State) : MemoryOnly s (physWrite params pa .byte v s).state ∧
    ∀ a, a ≠ pa.toNat → Memory.read (physWrite params pa .byte v s).state.ram a = Memory.read s.ram a := by
  have ha := Width.aligned_byte pa
  cases hr : regionOf params pa with
  | rom => rw [physWrite_rom ha hr]; exact ⟨.refl s, fun _ _ => rfl⟩
  | unmapped => rw [physWrite_unmapped ha hr]; exact ⟨.refl s, fun _ _ => rfl⟩
  | ram =>
    rw [physWrite_ram ha hr]
    exact ⟨rfl, fun a hne => Memory.read_writeWide_other s.ram .byte v _ (by simp only [Width.bytes]; omega)⟩
  | io =>
    cases hw : inMmuWindow params pa with
    | true => rw [physWrite_window ha hr hw]; exact ⟨.refl s, fun _ _ => rfl⟩
    | false => rw [physWrite_device ha hr hw]; exact ⟨rfl, fun _ _ => rfl⟩

theorem answerValue_state (m : Res Word) : (answerValue m).state = m.state := by
  cases m <;> rfl

theorem answerDone_state (m : Res Unit) : (answerDone m).state = m.state := by
  cases m <;> rfl

theorem exec_pread8_memoryOnly {pa : Word} {s t : State} (h : exec (.pread8 pa) s = .next t) :
    MemoryOnly s t ∧ t.ram = s.ram ∧ t.ioLog = s.ioLog := by
  rcases exec_cases (.pread8 pa) s with hb | ⟨-, -, hb⟩ <;> (rw [hb] at h; cases h)
  · have draws : DrawsOnly s (requestBody params (.pread8 pa) s).state := by
      rw [show requestBody params (.pread8 pa) s = answerValue (physRead params pa .byte s) from rfl, answerValue_state]
      exact physRead_byte_state pa s
    rw [Res.close_eq]
    exact ⟨draws.memoryOnly.respond _ _, by rw [State.respond_ram, draws], by rw [State.respond_ioLog, draws]⟩
  · exact ⟨(MemoryOnly.refl s).respond _ _, rfl, rfl⟩

theorem exec_pwrite8_memoryOnly {pa v : Word} {s t : State} (h : exec (.pwrite8 pa v) s = .next t) :
    MemoryOnly s t ∧ ∀ a, a ≠ pa.toNat → Memory.read t.ram a = Memory.read s.ram a := by
  rcases exec_cases (.pwrite8 pa v) s with hb | ⟨-, -, hb⟩ <;> (rw [hb] at h; cases h)
  · have state : (requestBody params (.pwrite8 pa v) s).state = (physWrite params pa .byte v s).state := answerDone_state _
    obtain ⟨memory, ram⟩ := physWrite_byte_state pa v s
    rw [Res.close_eq, state]
    exact ⟨memory.respond _ _, ram⟩
  · exact ⟨(MemoryOnly.refl s).respond _ _, fun _ _ => rfl⟩

/-! #### The walk of a peek -/

/-- What a peek translation has done at most from `s` to `t`: written the modified bit of its segment descriptor. -/
structure Peeked (x : Access) (s t : State) : Prop where
  memory : MemoryOnly s t
  readOnly : params.mAccesses x.acc = false → t.ram = s.ram ∧ t.ioLog = s.ioLog
  outside : RamSameOutside s t (sdAddr params s x.va)
  word : ∀ g, segmentOf params s x.va = some g → t.ram = s.ram ∨
    (params.modified g.sd0 = false ∧ t.ram = Memory.writeWide s.ram g.sda.toNat .word (params.setM g.sd0))

section
variable {x : Access} {g : SegInHand} {s t u v : State} {e : Ending}

theorem DrawsOnly.peeked (h : DrawsOnly s t) (x : Access) : Peeked x s t where
  memory := h.memoryOnly
  readOnly _ := by rw [h]; exact ⟨rfl, rfl⟩
  outside _ _ := by rw [h]
  word _ _ := .inl (by rw [h])

/-- After the segment half a peek draws at most. -/
theorem Rest.drawsOnly_of_peek (rest : Rest x g t e v) (hse : x.se = false) : DrawsOnly t v := by
  cases rest with
  | trapped | contiguous | beyondPages => exact .refl t
  | page _ _ read _ half => rw [half.idle hse]; exact read.draws

theorem SegmentHalf.peeked (half : SegmentHalf x g u t) (read : SegmentRead x s g u) (hse : x.se = false) : Peeked x s t := by
  obtain ⟨sdc, draws, drawCount⟩ := half.peek hse
  have ram : u.ram = s.ram := by rw [read.draws]
  constructor
  case memory =>
    refine read.draws.memoryOnly.trans ?_
    unfold MemoryOnly
    rw [half.eq, sdc, draws, drawCount]
  case readOnly =>
    intro hm
    rw [half.readOnly hse hm, read.draws]
    exact ⟨rfl, rfl⟩
  case outside =>
    intro a ha
    rw [half.word.other a (by rw [read.sda]; exact ha), ram]
  case word =>
    intro g' hg
    obtain ⟨rfl, -⟩ := read.eq_of_segmentOf hg
    rw [← ram]
    exact half.peekRam hse

theorem Peeked.trans_drawsOnly (h : Peeked x s t) (k : DrawsOnly t v) : Peeked x s v where
  memory := h.memory.trans k.memoryOnly
  readOnly hm := by rw [k]; exact h.readOnly hm
  outside a ha := by rw [k]; exact h.outside a ha
  word g hg := by rw [k]; exact h.word g hg

theorem Peeked.respond (h : Peeked x s t) (b : Bool) (r : Response) : Peeked x s ((t.setHalted b).respond r) :=
  ⟨h.memory.respond b r, h.readOnly, h.outside, h.word⟩

theorem Walk.peeked (walk : Walk x s e v) (hse : x.se = false) : Peeked x s v := by
  cases walk with
  | beyondSection => exact (DrawsOnly.refl s).peeked x
  | unusable _ read => exact read.draws.peeked x
  | usable _ read _ half rest => exact (half.peeked read hse).trans_drawsOnly (rest.drawsOnly_of_peek hse)

/-- A peek translation answers its address while disabled, else it is a walk, its segment descriptor clear of the MMU window where the
modified bit may be written. -/
theorem translate_peek (hse : x.se = false) (hw : params.mAccesses x.acc = true → inMmuWindow params (sdAddr params s x.va) = false) :
    translate params x s = .go x.va s ∨ ∃ e v, Walk x s e v ∧ translate params x s = e.result x v := by
  cases he : s.enable with
  | false => exact .inl (translate_disabled he x)
  | true =>
    rw [translate_enabled he, hse, if_neg (by simp)]
    exact .inr (translateEnabled_walk (fun h => hw (h.resolve_left (by simp [hse]))) fun h => by simp [hse] at h)

/-- The state that a peek TRANSLATE leaves. -/
theorem exec_translate_peeked (hse : x.se = false)
    (hw : params.mAccesses x.acc = true → inMmuWindow params (sdAddr params s x.va) = false)
    (h : exec (.translate x.acc x.lvl x.se x.va) s = .next t) : Peeked x s t := by
  have idle := (DrawsOnly.refl s).peeked x
  cases hs : s.halted with
  | true =>
    rw [exec_halted (by simp) hs] at h
    cases h
    exact idle.respond s.halted _
  | false =>
    rw [exec_translate_running x hs] at h
    cases h
    rcases translate_peek hse hw with ends | ⟨e, v, walk, ends⟩
    · rw [ends]
      exact idle.respond s.halted _
    · rw [ends, Ending.close_result]
      have peeked := walk.peeked hse
      cases e with
      | gives pa => exact peeked.respond v.halted _
      | stops => exact peeked.respond true _
      | fails c =>
        rw [Ending.record, hse, if_neg (by simp)]
        exact peeked.respond v.halted _

end

/-! #### The statements -/

/-- Settles O45: the translation ends as its walk does, and the record of a Fail is none. -/
theorem peekFailureRecordsNothing : Obligations.PeekFailureRecordsNothing := by
  intro i s t c h ha
  obtain ⟨u, hu, rfl⟩ := exec_ended h ha (by simp) (by simp) (by simp)
  cases hx : translationOf i with
  | none =>
    have ended : Ended params ⟨0, .read, 0, true⟩ s (.fail c) u := requestBody_ended (by simp [hx]) hu
    exact absurd (ended.fail c rfl) (by simp)
  | some x =>
    have ended : Ended params x s (.fail c) u := requestBody_ended (by simp [hx]) hu
    have hse := ended.fail c rfl
    refine ⟨x, rfl, hse, fun clear => ?_⟩
    obtain ⟨k, hk, avoids⟩ := requestBody_translatesFirst params hx
    rw [hk] at hu
    rcases Res.bind_eq_ended hu with hu | ⟨pa, w, -, hu⟩
    · rcases translate_peek hse (fun _ => clear) with ends | ⟨e, v, walk, ends⟩
      · rw [ends] at hu
        cases hu
      · rw [ends] at hu
        obtain rfl : v = u := by
          cases e with
          | gives | stops => cases hu
          | fails d =>
            rw [Ending.result, failWith_peek params hse] at hu
            cases hu
            rfl
        have block := (walk.peeked hse).memory.sameBlock
        have halted : v.halted = s.halted := by rw [walk.eq]
        rw [← halted] at block
        exact block
    · have avoided := avoids c pa w
      rw [hu] at avoided
      exact (avoided.2 rfl).elim

/-- A request that translates, then makes a port access, by the two cases of its TRANSLATE. -/
theorem exec_translatesThen_cases {i : Instr} {x : Access} {port : Word → Instr} (hx : translationOf i = some x)
    (hi : TranslatesThen params x port (requestBody params i)) {s t : State} (h : exec i s = .next t) :
    ∃ u, exec (.translate x.acc x.lvl x.se x.va) s = .next u ∧
      ((∃ pa, Answers s u (.value pa) ∧ exec (port pa) { u with outcomes := s.outcomes } = .next t) ∨
        (∀ pa, ¬ Answers s u (.value pa)) ∧ t = u) := by
  obtain ⟨u, hu⟩ := exec_next (.translate x.acc x.lvl x.se x.va) s
  obtain ⟨r, ha⟩ := exists_answers hu
  obtain ⟨address, noAddress⟩ := exec_of_translatesThen hx hi hu ha
  refine ⟨u, hu, ?_⟩
  simp only [ha.iff_eq]
  by_cases hr : ∃ pa, r = .value pa
  · obtain ⟨pa, rfl⟩ := hr
    exact .inl ⟨pa, rfl, by rw [← address pa rfl, h]⟩
  · simp only [not_exists] at hr
    rw [noAddress hr] at h
    cases h
    exact .inr ⟨hr, rfl⟩

/-- Settles O46: a peek that may not write the modified bit draws at most, and so does the byte read of EXAMINE. -/
theorem peekReadChangesNothing : Obligations.PeekReadChangesNothing := by
  rintro i s t (⟨va, rfl⟩ | ⟨acc, lvl, va, hacc, rfl⟩) h
  · obtain ⟨u, hu, cases⟩ := exec_translatesThen_cases rfl (examine_translatesThen params va) h
    have peeked := exec_translate_peeked (x := ⟨va, .read, 0, false⟩) rfl Bool.noConfusion hu
    obtain ⟨ram, ioLog⟩ := peeked.readOnly rfl
    rcases cases with ⟨pa, -, hp⟩ | ⟨-, rfl⟩
    · obtain ⟨memory, ram', ioLog'⟩ := exec_pread8_memoryOnly hp
      have forget : MemoryOnly u { u with outcomes := s.outcomes } := rfl
      exact ⟨((peeked.memory.trans forget).trans memory).sameBlock_of_ram (ram'.trans ram), ioLog'.trans ioLog⟩
    · exact ⟨peeked.memory.sameBlock_of_ram ram, ioLog⟩
  · have reads : params.mAccesses acc = false := by
      cases acc with
      | write => exact absurd rfl hacc
      | _ => rfl
    have peeked := exec_translate_peeked (x := ⟨va, acc, lvl, false⟩) rfl (by simp [reads]) h
    obtain ⟨ram, ioLog⟩ := peeked.readOnly reads
    exact ⟨peeked.memory.sameBlock_of_ram ram, ioLog⟩

/-- Settles O47: the peek writes the modified bit at most, DEPOSIT then the byte. -/
theorem peekWriteTouchesOnlyTheModifiedBit : Obligations.PeekWriteTouchesOnlyTheModifiedBit := by
  intro va v lvl s t clear
  refine ⟨fun h => ?_, fun h => ?_⟩
  · have peeked := exec_translate_peeked (x := ⟨va, .write, lvl, false⟩) rfl (fun _ => clear) h
    exact ⟨peeked.memory.sameBlock, peeked.outside, peeked.word⟩
  · obtain ⟨u, hu, cases⟩ := exec_translatesThen_cases rfl (deposit_translatesThen params va v) h
    have peeked := exec_translate_peeked (x := ⟨va, .write, 0, false⟩) rfl (fun _ => clear) hu
    have same {w : State} (hw : exec (.translate .write 0 false va) s = .next w) : w = u := by simpa using hw.symm.trans hu
    rcases cases with ⟨pa, ha, hp⟩ | ⟨noAddress, rfl⟩
    · obtain ⟨memory, ram⟩ := exec_pwrite8_memoryOnly hp
      have forget : MemoryOnly u { u with outcomes := s.outcomes } := rfl
      refine ⟨((peeked.memory.trans forget).trans memory).sameBlock, fun w hw => ?_⟩
      obtain rfl := same hw
      refine ⟨fun noAddress => absurd ha (noAddress pa), fun qa hq a hne => ram a ?_⟩
      obtain rfl : pa = qa := by simpa using (ha.iff_eq _).mp hq
      exact hne
    · refine ⟨peeked.memory.sameBlock, fun w hw => ?_⟩
      obtain rfl := same hw
      exact ⟨fun _ => rfl, fun _ _ _ _ => rfl⟩

end Sys2Proof.Machine

/-! ### A permitted access of a contiguous segment

TRANSLATE answers `segBase + SOT` and leaves RAM outside its descriptor word (R179 to R185), then the port access completes there. -/

namespace Sys2Proof.Machine

/-- What a TRANSLATE under side effects that answers `pa` leaves for an access there, its segment descriptor at `sda` the one word of RAM
it may have written. -/
structure Translated (x : Access) (s t : State) (pa sda : Word) : Prop where
  answers : Answers s t (.value pa)
  var : t.var = x.va
  running : t.halted = false
  wf : Memory.wf s.ram = true → Memory.wf t.ram = true
  ram : ∀ a, a < sda.toNat ∨ sda.toNat + 4 ≤ a → Memory.read t.ram a = Memory.read s.ram a

/-- Within the bound and the rights of a contiguous segment a translation gives `segBase + SOT` (R183 to R185). -/
theorem verdictContiguous_permitted {x : Access} {g : SegInHand} (permits : params.permits (params.rights g.sd0) x.acc x.lvl = true)
    (within : (params.sot x.va).toNat ≤ (params.maxOff g.sd0).toNat) :
    verdictContiguous params x g = .value (params.segBase g.sd1 + params.sot x.va) := by
  simp [verdictContiguous, permits, Nat.not_lt.mpr within]

section
variable {x : Access} {g : SegInHand} {s t v : State} {e : Ending}

/-- The rest of a walk of an untrapped contiguous segment is its verdict. -/
theorem Rest.of_contiguous (rest : Rest x g t e v) (noTrap : params.objectTrap g.sd0 = false) (cont : params.contiguous g.sd0 = true) :
    v = t ∧ verdictContiguous params x g = e.answer x := by
  cases rest with
  | trapped trap => simp [noTrap] at trap
  | contiguous _ _ verdict => exact ⟨rfl, verdict⟩
  | beyondPages _ paged | page _ paged => simp [cont] at paged

theorem exec_translate_permitted (hs : s.halted = false) (he : s.enable = true) (hse : x.se = true)
    (bound : (params.ssl x.va).toNat ≤ (params.sectLen (s.sramb.get (params.sid x.va))).toNat)
    (ha : tablesApart params s x.va = true) (hg : segmentOf params s x.va = some g) (usable : segmentUsable params g = true)
    (noTrap : params.objectTrap g.sd0 = false) (cont : params.contiguous g.sd0 = true)
    (permits : params.permits (params.rights g.sd0) x.acc x.lvl = true) (within : (params.sot x.va).toNat ≤ (params.maxOff g.sd0).toNat) :
    ∃ t, exec (.translate x.acc x.lvl x.se x.va) s = .next t ∧
      Translated x s t (params.segBase g.sd1 + params.sot x.va) g.sda := by
  obtain ⟨t, h⟩ := exec_next (.translate x.acc x.lvl x.se x.va) s
  obtain ⟨e, v, walk, answers, rfl⟩ := translate_walk hs he ha (fun _ => ⟨g, hg⟩) h
  obtain ⟨m, half, rest⟩ := walk.past_checks (by simpa using bound) (by simpa using hg) usable
  obtain ⟨rfl, verdict⟩ := rest.of_contiguous noTrap cont
  rw [verdictContiguous_permitted permits within] at verdict
  obtain rfl := Ending.answer_eq_value verdict.symm
  refine ⟨_, h, ?_⟩
  constructor
  case answers => exact answers
  case var =>
    rw [State.respond_var, Ending.record, walk.eq, begun, hse, if_pos rfl]
    rfl
  case running =>
    rw [State.respond_halted, Ending.record, walk.eq]
    simpa using hs
  case wf => exact fun wf => half.word.wf (by simpa using wf)
  case ram => exact fun a ha => (half.word.other a ha).trans (by rw [begun_ram])

end

/-- Settles O58: the translation gives `pa` and leaves the datum's bytes, O35 and O36 say what the port access does. -/
theorem permittedContiguousAccessCompletes : Obligations.PermittedContiguousAccessCompletes := by
  intro w acc lvl va v pa s g hs he wf bound ha hg usable noTrap cont permits within hpa aligned ram apart
  obtain ⟨t, h, translated⟩ :=
    exec_translate_permitted (x := ⟨va, acc, lvl, true⟩) hs he rfl bound ha hg usable noTrap cont permits within
  rw [← hpa] at translated
  have datum : bigEndian t.ram pa.toNat w = bigEndian s.ram pa.toNat w :=
    bigEndian_congr fun b low high => translated.ram b (by omega)
  refine ⟨?_, ?_⟩
  · obtain ⟨x, hx, value⟩ := (physicalReadOfMemory w pa { t with outcomes := s.outcomes } translated.running aligned).2 ram
    have port := ((accessIsTranslateThenPhysical w lvl va v s).1 acc t _ h translated.answers).1 pa rfl
    exact ⟨_, x, port.trans hx, rfl, translated.var, value.trans datum⟩
  · rintro rfl
    obtain ⟨m, hm, stored, frame⟩ := physicalWriteToRam w pa v { t with outcomes := s.outcomes } translated.running aligned ram
      (translated.wf wf)
    have port := ((accessIsTranslateThenPhysical w lvl va v s).2 t _ h translated.answers).1 pa rfl
    exact ⟨_, port.trans hm, rfl, translated.var, stored, fun a outside clear => (frame a outside).trans (translated.ram a clear)⟩

end Sys2Proof.Machine
